-- ==== Sys2Proof/Word.lean ====
section
/-! DEFINITION. The word types of huffman_codec (00_scope.md R6, 10_state.md): bytes, 32-bit register and command
words, 64-bit counters. -/

namespace Sys2Proof

/-- A symbol, a DATA field or a stream byte (00_scope.md R5 NSYM, R8). -/
abbrev Byte := BitVec 8

/-- A 32-bit register or command word (10_state.md R23, 30_encoding.md R80), and a 32-bit code pattern (R38). -/
abbrev Word := BitVec 32

/-- A 64-bit counter or accumulator (00_scope.md R5 FREQ_W, ACC_W). -/
abbrev DWord := BitVec 64

/-- An index into the decoder's node arena of 8193 nodes (10_state.md R43). -/
abbrev NodeIdx := Fin 8193

end Sys2Proof
end

