-- ==== Sys2Proof/Config.lean ====
section
/-! DEFINITION. The implementation parameters of 00_scope.md R5: the fixed ones as constants, the OPEN base address and
the free values of reads while BUSY = 1 as constants without a body. -/

namespace Sys2Proof.Config

/-- LEN_MAX, the largest `original_length` (R5, D6, D9). -/
abbrev lenMax : Nat := 2 ^ 63 - 1

/-- MAX_CODE_LEN (R5; source §3 "bit-length as a small unsigned integer 0–32"). -/
abbrev maxCodeLen : Nat := 32

/-- The largest table entry count, NSYM = 256 (R5, 41_decoder.md R164). -/
abbrev maxEntries : Nat := 256

/-- DEC_NODES, the size of the decoder's arena (R5, D24). -/
abbrev decNodes : Nat := 8193

/-- HDR_BYTES (R5, D8). -/
abbrev hdrBytes : Nat := 12

/-- ENTRY_BYTES (R5, D8). -/
abbrev entryBytes : Nat := 6

/-- The size of the register window in bytes (10_state.md R23). -/
abbrev windowBytes : Nat := 0x40

/-- The value of the ID register (10_state.md R34). -/
abbrev idValue : Word := 0x48554646#32

/-- BASE, the base address of the register window: OPEN (R5, 20_memory.md R67, D2). No body: a claim holds for every
base address. -/
opaque base : Nat

/-- The free values of 20_memory.md R69: what STATUS (but BUSY and the reserved bits) and the count registers read
while BUSY = 1. No body; the argument numbers the draws (log 5). -/
opaque busyDraw : Nat → Word

end Sys2Proof.Config
end

