-- ==== Sys2Proof/Syntax.lean ====
section
/-! DEFINITION. The eleven commands of the opcode map (30_encoding.md R84), one constructor per row of
spec/opcode_table.json, and the fields of the one command format C (R80). -/

namespace Sys2Proof

/-- A command. The one operand there is, is the DATA byte (R81). -/
inductive Instr where
  /-- NOP, 42_control.md R211. -/
  | nop
  /-- CLRERR, 42_control.md R212. -/
  | clrerr
  /-- ENC_INIT, 40_encoder.md R111. -/
  | encInit
  /-- ENC_COUNT b, 40_encoder.md R112. -/
  | encCount (data : Byte)
  /-- ENC_BUILD, 40_encoder.md R114. -/
  | encBuild
  /-- ENC_PUT b, 40_encoder.md R125. -/
  | encPut (data : Byte)
  /-- ENC_FINISH, 40_encoder.md R127. -/
  | encFinish
  /-- DEC_INIT, 41_decoder.md R161. -/
  | decInit
  /-- DEC_PUT b, 41_decoder.md R162. -/
  | decPut (data : Byte)
  /-- DEC_NEXT, 41_decoder.md R176. -/
  | decNext
  /-- DEC_END, 41_decoder.md R178. -/
  | decEnd
deriving DecidableEq, Repr

/-- The fields of format C (R80): OP in bits 31:24, RSV in bits 23:8, DATA in bits 7:0. -/
structure CmdFields where
  op : BitVec 8
  rsv : BitVec 16
  data : Byte
deriving DecidableEq, Repr

/-- One row of the opcode map (R84): the opcode, the mnemonic, and whether DATA is a byte operand (else it must be 0). -/
structure OpcodeRow where
  op : BitVec 8
  mnemonic : String
  takesByte : Bool
deriving DecidableEq, Repr

/-- The opcode map (R84). -/
def opcodeMap : List OpcodeRow :=
  [⟨0x00, "NOP", false⟩, ⟨0x01, "CLRERR", false⟩,
   ⟨0x10, "ENC_INIT", false⟩, ⟨0x11, "ENC_COUNT", true⟩, ⟨0x12, "ENC_BUILD", false⟩,
   ⟨0x13, "ENC_PUT", true⟩, ⟨0x14, "ENC_FINISH", false⟩,
   ⟨0x20, "DEC_INIT", false⟩, ⟨0x21, "DEC_PUT", true⟩, ⟨0x22, "DEC_NEXT", false⟩, ⟨0x23, "DEC_END", false⟩]

/-- The format-C fields that stand for a command (R84 "OP" and "DATA" columns, R86). -/
def Instr.fields : Instr → CmdFields
  | .nop => ⟨0x00, 0, 0⟩
  | .clrerr => ⟨0x01, 0, 0⟩
  | .encInit => ⟨0x10, 0, 0⟩
  | .encCount b => ⟨0x11, 0, b⟩
  | .encBuild => ⟨0x12, 0, 0⟩
  | .encPut b => ⟨0x13, 0, b⟩
  | .encFinish => ⟨0x14, 0, 0⟩
  | .decInit => ⟨0x20, 0, 0⟩
  | .decPut b => ⟨0x21, 0, b⟩
  | .decNext => ⟨0x22, 0, 0⟩
  | .decEnd => ⟨0x23, 0, 0⟩

end Sys2Proof
end

