-- ==== Sys2Proof/WellFormed.lean ====
section
/-! DEFINITION. When a command is legal (30_encoding.md R82): three checks on the fields of format C, and the same
said of a command through its fields. -/

namespace Sys2Proof

/-- R82, first condition: `w[31:24]` is an opcode listed in R84. -/
def CmdFields.opListed (f : CmdFields) : Bool :=
  opcodeMap.any fun r => r.op == f.op

/-- R82, second condition: `w[23:8] = 0`. -/
def CmdFields.rsvZero (f : CmdFields) : Bool :=
  f.rsv == 0

/-- R82, third condition: `w[7:0] = 0` if that opcode's DATA column reads "must be 0". -/
def CmdFields.dataAllowed (f : CmdFields) : Bool :=
  opcodeMap.all fun r => r.op != f.op || r.takesByte || f.data == 0

/-- `Legal` of R82 and R210: all three conditions hold. -/
def CmdFields.legal (f : CmdFields) : Bool :=
  f.opListed && f.rsvZero && f.dataAllowed

/-- A command is well-formed when its format-C fields are legal. -/
def Instr.wellFormed (i : Instr) : Bool :=
  i.fields.legal

end Sys2Proof
end

