-- ==== Sys2Proof/Decode.lean ====
section
/-! DEFINITION. The decoder of command words (30_encoding.md R80 to R85), total on every word and every byte string, the
encoder after it, and decodeTableWord for the opcode table's numbering. -/

namespace Sys2Proof

/-- Why a command word is illegal (R82). The block itself reports all of them as CmdError(ILLEGAL) (R83). -/
inductive DecodeReject where
  /-- `w[31:24]` is no opcode of R84. -/
  | unlistedOpcode
  /-- `w[23:8]` is not 0. -/
  | reservedBitsSet
  /-- `w[7:0]` is not 0 on a command that takes no byte. -/
  | dataNotZero
  /-- The bytes given are not the four lanes of one command word (R85, 20_memory.md R61). -/
  | notOneWord
deriving DecidableEq, Repr

/-- The fields of format C (R80). -/
def fieldsOf (w : Word) : CmdFields :=
  ⟨w.extractLsb' 24 8, w.extractLsb' 8 16, w.extractLsb' 0 8⟩

/-- A command that takes no byte: its DATA must be 0 (R82). -/
def requireNoData (f : CmdFields) (i : Instr) : Except DecodeReject Instr :=
  if f.data = 0 then .ok i else .error .dataNotZero

/-- The opcode map read as a case split on OP (R84, R210); the DATA byte is the operand (R81). -/
def decodeOp (f : CmdFields) : Except DecodeReject Instr :=
  match f.op.toNat with
  | 0x00 => requireNoData f .nop
  | 0x01 => requireNoData f .clrerr
  | 0x10 => requireNoData f .encInit
  | 0x11 => .ok (.encCount f.data)
  | 0x12 => requireNoData f .encBuild
  | 0x13 => .ok (.encPut f.data)
  | 0x14 => requireNoData f .encFinish
  | 0x20 => requireNoData f .decInit
  | 0x21 => .ok (.decPut f.data)
  | 0x22 => requireNoData f .decNext
  | 0x23 => requireNoData f .decEnd
  | _ => .error .unlistedOpcode

/-- The decoder: a legal word's command, or the reason the word is illegal (R82, R83). -/
def decode (w : Word) : Except DecodeReject Instr :=
  if (fieldsOf w).rsv = 0 then decodeOp (fieldsOf w) else .error .reservedBitsSet

/-- The lanes of a 32-bit register value on a byte bus: bits 7:0 at the lowest address (20_memory.md R61). -/
def lanes (w : Word) : List Byte :=
  [w.extractLsb' 0 8, w.extractLsb' 8 8, w.extractLsb' 16 8, w.extractLsb' 24 8]

/-- The decoder over bytes: exactly the four lanes of one word are a command (R85). -/
def decodeBytes : List Byte → Except DecodeReject Instr
  | [b0, b1, b2, b3] => decode (b3 ++ b2 ++ b1 ++ b0)
  | _ => .error .notOneWord

/-- The fields put together again as one word (R80). -/
def CmdFields.toWord (f : CmdFields) : Word :=
  f.op ++ f.rsv ++ f.data

/-- The encoder: the one word of a command, `(OP, 16'b0, byte)` (R84, R86). -/
def encode (i : Instr) : Word :=
  i.fields.toWord

/-- The command the decoder reads from a word whose bits are numbered as spec/opcode_table.json numbers them: the word's
four lanes, every bit above `nbits` zero. -/
def decodeTableWord (nbits w : Nat) : Option Instr :=
  (decodeBytes (lanes (BitVec.ofNat 32 (w % 2 ^ nbits)))).toOption

end Sys2Proof
end

