-- ==== Sys2Proof/Machine/State.lean ====
section
/-! DEFINITION. The state of the block (10_state.md), the host's side of the bus as plain data, the machine right after
reset (70_reset_and_hazards.md R250), and the reasons a step can stop. -/

namespace Sys2Proof.Machine

/-- `enc_state`, the encoder's phase (10_state.md R41). -/
inductive EncPhase where
  | count | encode | done | error
deriving DecidableEq, Repr

/-- `enc_err`, the encoder's error code (60_exceptions.md R223). Codes 5 to 15 are never produced. -/
inductive EncErr where
  | none | seq | passMismatch | codeTooLong | lengthOverflow
deriving DecidableEq, Repr

/-- `dec_state`, the decoder's phase (10_state.md R45). -/
inductive DecPhase where
  | hdr | table | payload | done | error
deriving DecidableEq, Repr

/-- `dec_err`, the decoder's error code (60_exceptions.md R224). Codes 10 to 15 are never produced. -/
inductive DecErr where
  | none | seq | badLength | badCount | codeLen | treeConflict | emptyTable | truncated | invalidPath | inOverrun
deriving DecidableEq, Repr

/-- `cmd_cause` (10_state.md R46, 60_exceptions.md R222). Code 3 is never produced. -/
inductive CmdCause where
  | none | illegal | overrun
deriving DecidableEq, Repr

/-- The kind of an arena node (10_state.md R43). -/
inductive NodeKind where
  | empty | internal | leaf
deriving DecidableEq, Repr

/-- One entry of the node arena (10_state.md R43): `c0` is the zero-branch child, `c1` the one-branch child; `none` is
the value NONE. -/
structure Node where
  kind : NodeKind
  c0 : Option NodeIdx
  c1 : Option NodeIdx
  sym : Byte
deriving DecidableEq, Repr

/-- The reset value of every arena entry (10_state.md R43), and what an index the list does not name reads as. -/
def Node.blank : Node := ⟨.empty, none, none, 0⟩

/-- The node arena `node[0..8192]` (10_state.md R43): the nodes that differ from `Node.blank`, each with its index. -/
abbrev Arena := List (NodeIdx × Node)

/-- The arena with its next free index, `node_next` (10_state.md R43). -/
structure NodeStore where
  nodes : Arena
  next : Nat
deriving DecidableEq, Repr

/-- A table with one entry per symbol (10_state.md R36, R38). -/
abbrev SymTab (α : Type) := Vector α 256

/-- The encoder engine (10_state.md R36 to R41) with its output FIFO `enc_out` (R47). -/
structure Enc where
  freq : SymTab DWord
  encLen : DWord
  putCnt : DWord
  codePat : SymTab Word
  codeLen : SymTab Nat
  acc : DWord
  live : Nat
  phase : EncPhase
  err : EncErr
  out : List Byte
deriving DecidableEq, Repr

/-- The decoder engine (10_state.md R42 to R45) with its output FIFO `dec_out` (R47). -/
structure Dec where
  dpos : Nat
  len : DWord
  tcount : Word
  entDone : Nat
  eSym : Byte
  ePat : Word
  eLen : Byte
  store : NodeStore
  win : Word
  vbits : Nat
  cur : NodeIdx
  rem : DWord
  needIn : Bool
  inEnd : Bool
  phase : DecPhase
  err : DecErr
  out : List Byte
deriving DecidableEq, Repr

/-- One operation of the host on the block: an access of `size` bytes at the address BASE + `off` (20_memory.md R62), or
reset (70_reset_and_hazards.md R250). Every address is BASE + `off` for one integer `off`. -/
inductive BusOp where
  | read (off : Int) (size : Nat)
  | write (off : Int) (size : Nat) (value : Word)
  | reset
deriving DecidableEq, Repr

/-- The whole state. `enc`, `dec`, `busy`, `cmdErr` and `cmdCause` are the block's (10_state.md R20); `pending`,
`hostReads` and `draws` are the model's own: what the host will do next (log 1), what its reads returned (log 6), and the
number of free values drawn (log 5). -/
structure State where
  enc : Enc
  dec : Dec
  busy : Bool
  cmdErr : Bool
  cmdCause : CmdCause
  pending : List BusOp
  hostReads : List Word
  draws : Nat
deriving DecidableEq, Repr

/-- The encoder's reset values (10_state.md R36 to R41, R47). -/
def Enc.reset : Enc where
  freq := Vector.replicate 256 0
  encLen := 0
  putCnt := 0
  codePat := Vector.replicate 256 0
  codeLen := Vector.replicate 256 0
  acc := 0
  live := 0
  phase := .count
  err := .none
  out := []

/-- The decoder's reset values (10_state.md R42 to R45, R47): no node is used and the next free index is 1. -/
def Dec.reset : Dec where
  dpos := 0
  len := 0
  tcount := 0
  entDone := 0
  eSym := 0
  ePat := 0
  eLen := 0
  store := ⟨[], 1⟩
  win := 0
  vbits := 0
  cur := 0
  rem := 0
  needIn := false
  inEnd := false
  phase := .hdr
  err := .none
  out := []

/-- The machine right after reset (70_reset_and_hazards.md R250, R251), with no host operation pending. -/
def State.reset : State where
  enc := Enc.reset
  dec := Dec.reset
  busy := false
  cmdErr := false
  cmdCause := .none
  pending := []
  hostReads := []
  draws := 0

/-- The reasons the machine stops. No run from reset reaches either: each is raised only in a state that breaks an
invariant of 10_state.md R50. -/
inductive Fault where
  /-- Raised by ENC_BUILD when `enc_len` is not 0 and no symbol is present: "BuildTree is not invoked with `k = 0`"
  (40_encoder.md R118). Safe: the model stops where the spec gives no tree. -/
  | treeOfNoSymbols
  /-- Raised by DEC_PUT when an entry needs a node and `node_next` is past the arena's last index, 8192: "the arena never
  overflows" (41_decoder.md R169). Safe: the model stops where the spec has no such node. -/
  | arenaFull
deriving DecidableEq, Repr

/-- The reasons a step is refused: the host's accesses to which the spec gives no meaning (20_memory.md R62), and an
instruction without a meaning. -/
inductive Refusal where
  /-- Raised by an arm of exec that has no meaning yet. Safe. -/
  | notModelled (mnemonic : String)
  /-- Raised by the bus for an access whose width is not 4 bytes (R62). Safe. -/
  | accessWidth
  /-- Raised by the bus for a 4-byte access outside the register window (R62). Safe. -/
  | accessOutsideWindow
  /-- Raised by the bus for a 4-byte access in the window at an offset that is no multiple of 4 (R62). Safe. -/
  | accessMisaligned
deriving DecidableEq, Repr

end Sys2Proof.Machine
end

