-- ==== Sys2Proof/Machine/Operands.lean ====
section
/-! DEFINITION. How a command's DATA byte is used: as a symbol that indexes a table (10_state.md R36, R38), as a byte of a
little-endian field (00_scope.md R8), as the bits of a code; and the signed reading of the header length (R7). -/

namespace Sys2Proof.Machine

/-- `t[s]`, a table read at a symbol. -/
def SymTab.get {α : Type} (t : SymTab α) (s : Byte) : α :=
  Vector.get t s.toFin

/-- `t[s] <- v`, a table write at a symbol. -/
def SymTab.set {α : Type} (t : SymTab α) (s : Byte) (v : α) : SymTab α :=
  Vector.set t s.toNat v s.isLt

/-- A table that reads `v` at every symbol. -/
def SymTab.const {α : Type} (v : α) : SymTab α :=
  Vector.replicate 256 v

/-- "for s in 0..255 ascending" (00_scope.md R5, NSYM = 256). -/
def allSymbols : List Byte :=
  (List.range 256).map (BitVec.ofNat 8)

/-- `LE_k(v)`, the low `8k` bits of `v`, least significant byte first (00_scope.md R8). -/
def leBytes (k v : Nat) : List Byte :=
  (List.range k).map fun i => BitVec.ofNat 8 (v >>> (8 * i))

/-- `fromLE(bs)`, the sum of `bs[k] * 2^(8k)` (00_scope.md R8). -/
def fromLE : List Byte → Nat
  | [] => 0
  | b :: bs => b.toNat + 2 ^ 8 * fromLE bs

/-- `b << (8 * k)`: the DATA byte, zero-extended to the field's width, placed as byte `k` of the field (30_encoding.md
R81, 41_decoder.md R163, R165). -/
def byteLane (width : Nat) (b : Byte) (k : Nat) : BitVec width :=
  b.setWidth width <<< (8 * k)

/-- `s64(v)`, the two's-complement reading of a 64-bit value (00_scope.md R7). -/
def s64 (v : DWord) : Int :=
  if v.toNat < 2 ^ 63 then v.toNat else v.toNat - 2 ^ 64

/-- `P[i]`, bit `i` of a code pattern (00_scope.md R6). -/
def patternBit (p : Word) (i : Nat) : Bool :=
  p.getLsbD i

end Sys2Proof.Machine
end

