-- ==== Sys2Proof/Machine/Flags.lean ====
section
/-! DEFINITION. The flags of the block: every field of STATUS (10_state.md R25, R26) and the codes shown in it. -/

namespace Sys2Proof.Machine

/-- The value of STATUS.ENC_STATE (10_state.md R25, R41). -/
def EncPhase.code : EncPhase → BitVec 2
  | .count => 0
  | .encode => 1
  | .done => 2
  | .error => 3

/-- The value of STATUS.ENC_ERR (60_exceptions.md R223). -/
def EncErr.code : EncErr → BitVec 4
  | .none => 0
  | .seq => 1
  | .passMismatch => 2
  | .codeTooLong => 3
  | .lengthOverflow => 4

/-- The value of STATUS.DEC_STATE (10_state.md R25, R45). -/
def DecPhase.code : DecPhase → BitVec 3
  | .hdr => 0
  | .table => 1
  | .payload => 2
  | .done => 3
  | .error => 4

/-- The value of STATUS.DEC_ERR (60_exceptions.md R224). -/
def DecErr.code : DecErr → BitVec 4
  | .none => 0
  | .seq => 1
  | .badLength => 2
  | .badCount => 3
  | .codeLen => 4
  | .treeConflict => 5
  | .emptyTable => 6
  | .truncated => 7
  | .invalidPath => 8
  | .inOverrun => 9

/-- The value of STATUS.CMD_CAUSE (60_exceptions.md R222). -/
def CmdCause.code : CmdCause → BitVec 2
  | .none => 0
  | .illegal => 1
  | .overrun => 2

/-- One bit of STATUS. -/
def flagBit (b : Bool) : BitVec 1 :=
  BitVec.ofBool b

/-- STATUS.DEC_IN_ROOM, computed from the decoder's state (10_state.md R26). -/
def Dec.inRoom (d : Dec) : Bool :=
  match d.phase with
  | .hdr => true
  | .table => true
  | .payload => !d.inEnd && decide (d.vbits ≤ 24)
  | .done => !d.inEnd
  | .error => false

/-- STATUS.ENC_OUT_VALID, `|enc_out| > 0` (10_state.md R25). -/
def Enc.outValid (e : Enc) : Bool :=
  !e.out.isEmpty

/-- STATUS.DEC_OUT_VALID, `|dec_out| > 0` (10_state.md R25). -/
def Dec.outValid (d : Dec) : Bool :=
  !d.out.isEmpty

/-- STATUS (10_state.md R25), from bit 31 down to bit 0. -/
def State.statusWord (s : State) : Word :=
  (0 : BitVec 7)
    ++ flagBit s.dec.outValid ++ flagBit s.enc.outValid ++ flagBit s.dec.inEnd ++ flagBit s.dec.inRoom ++ flagBit s.dec.needIn
    ++ s.dec.err.code
    ++ (0 : BitVec 1) ++ s.dec.phase.code
    ++ s.enc.err.code
    ++ (0 : BitVec 2) ++ s.enc.phase.code
    ++ s.cmdCause.code ++ flagBit s.cmdErr ++ flagBit s.busy

/-- STATUS as a read while BUSY = 1 may return it (20_memory.md R69, 70_reset_and_hazards.md R254): BUSY is 1, the
reserved bits read 0, and every other field is the free value `draw`. -/
def busyStatus (draw : Word) : Word :=
  (draw &&& 0x01FF7F3E#32) ||| 1#32

end Sys2Proof.Machine
end

