-- ==== Sys2Proof/Machine/Ops.lean ====
section
/-! DEFINITION. The operations the commands share: raising an error and leaving it (60_exceptions.md R222 to R229), the
output FIFOs (00_scope.md R9, 10_state.md R47), and the decoder's node arena (10_state.md R43, 41_decoder.md R169). -/

namespace Sys2Proof.Machine

/-! ### Raising an error, and leaving it -/

/-- `raise CmdError(cause)`: the first cause is kept; no engine state changes (60_exceptions.md R222). -/
def State.raiseCmd (cause : CmdCause) (s : State) : State :=
  if s.cmdErr then s else { s with cmdErr := true, cmdCause := cause }

/-- `raise EncError(code)`: the encoder goes to ERROR with that code (60_exceptions.md R223, R228). -/
def Enc.raise (code : EncErr) (e : Enc) : Enc :=
  { e with err := code, phase := .error }

/-- `raise DecError(code)`: the decoder goes to ERROR with that code (60_exceptions.md R224, R228). -/
def Dec.raise (code : DecErr) (d : Dec) : Dec :=
  { d with err := code, phase := .error }

/-- Leaving the command-error state: `cmd_err` and `cmd_cause` cleared (42_control.md R212, 60_exceptions.md R229). -/
def State.clearCmd (s : State) : State :=
  { s with cmdErr := false, cmdCause := .none }

/-- The encoder's start state, and its one way out of ERROR (40_encoder.md R111, 60_exceptions.md R229). -/
def Enc.init (e : Enc) : Enc :=
  { e with
    freq := SymTab.const 0, codePat := SymTab.const 0, codeLen := SymTab.const 0,
    encLen := 0, putCnt := 0, acc := 0, live := 0,
    out := [],
    phase := .count, err := .none }

/-- The decoder's start state, and its one way out of ERROR (41_decoder.md R161, 60_exceptions.md R229). -/
def Dec.init (d : Dec) : Dec :=
  { d with
    dpos := 0, len := 0, tcount := 0, entDone := 0,
    eSym := 0, ePat := 0, eLen := 0,
    store := ⟨[], 1⟩,
    win := 0, vbits := 0, cur := 0, rem := 0, needIn := false, inEnd := false,
    out := [],
    phase := .hdr, err := .none }

/-! ### The output FIFOs -/

/-- `emit_enc` of each byte in order (00_scope.md R9). -/
def Enc.emit (bs : List Byte) (e : Enc) : Enc :=
  { e with out := e.out ++ bs }

/-- `emit_dec(b)` (00_scope.md R9). -/
def Dec.emit (b : Byte) (d : Dec) : Dec :=
  { d with out := d.out ++ [b] }

/-- What a read of a FIFO's register returns: `zext_32({1, b})` for the oldest byte `b`, 0 when the FIFO is empty
(10_state.md R32, R33). -/
def fifoValue : List Byte → Word
  | [] => 0
  | b :: _ => ((1 : BitVec 1) ++ b).setWidth 32

/-! ### The node arena -/

/-- `node[i]`: the node listed at `i`, or the blank one (10_state.md R43). -/
def Arena.get : Arena → NodeIdx → Node
  | [], _ => Node.blank
  | (j, n) :: rest, i => if j = i then n else Arena.get rest i

/-- An entry put before the first listed index that is greater. -/
def Arena.insert (i : NodeIdx) (n : Node) : Arena → Arena
  | [] => [(i, n)]
  | (j, m) :: rest => if i < j then (i, n) :: (j, m) :: rest else (j, m) :: Arena.insert i n rest

/-- `node[i] <- n`: the old entry is taken out, and the new one is listed if it differs from the blank node. -/
def Arena.set (a : Arena) (i : NodeIdx) (n : Node) : Arena :=
  let cleared := a.filter fun e => e.1 != i
  if n = Node.blank then cleared else Arena.insert i n cleared

/-- The canonical form of the arena: indices strictly rising, no entry equal to the blank node. -/
def Arena.wf (a : Arena) : Bool :=
  (a.zip a.tail).all (fun p => decide (p.1.1 < p.2.1)) && a.all fun e => e.2 != Node.blank

/-- `Alloc(kind, s)` (41_decoder.md R169): the next slot and the store after it, or nothing when the next index is past the
arena's end, which "never" happens. -/
def NodeStore.alloc (st : NodeStore) (kind : NodeKind) (sym : Byte) : Option (NodeIdx × NodeStore) :=
  if h : st.next < 8193 then
    some (⟨st.next, h⟩, ⟨st.nodes.set ⟨st.next, h⟩ ⟨kind, none, none, sym⟩, st.next + 1⟩)
  else none

/-- The child a code bit selects: a 1 bit the one-branch, a 0 bit the zero-branch (41_decoder.md R167). -/
def Node.child (n : Node) (bit : Bool) : Option NodeIdx :=
  if bit then n.c1 else n.c0

/-- The child a code bit selects, written. -/
def Node.withChild (n : Node) (bit : Bool) (c : NodeIdx) : Node :=
  if bit then { n with c1 := some c } else { n with c0 := some c }

/-- `node[i]` of the store. -/
def NodeStore.node (st : NodeStore) (i : NodeIdx) : Node :=
  st.nodes.get i

/-- `node[i] <- n` in the store. -/
def NodeStore.setNode (st : NodeStore) (i : NodeIdx) (n : Node) : NodeStore :=
  { st with nodes := st.nodes.set i n }

/-! ### Running an engine's part of the state -/

/-- The state with the encoder replaced: all an ENC command may change (42_control.md R210). -/
def State.withEnc (e : Enc) (s : State) : State :=
  { s with enc := e }

/-- The state with the decoder replaced: all a DEC command may change (42_control.md R210). -/
def State.withDec (d : Dec) (s : State) : State :=
  { s with dec := d }

end Sys2Proof.Machine
end

