-- ==== Sys2Proof/Machine/Bus.lean ====
section
/-! DEFINITION. The register window (10_state.md R23 to R35, 20_memory.md R60 to R73): which register an access names, what
a read returns and changes, what a write does, and what one bus operation asks of the block. -/

namespace Sys2Proof.Machine

/-- The registers of the window (10_state.md R23), and the reserved offsets as one (R35). -/
inductive Reg where
  | cmd | status
  | encLenLo | encLenHi | encPutcntLo | encPutcntHi
  | decLenLo | decLenHi | decRemLo | decRemHi
  | encOut | decOut
  | ident
  | reserved
deriving DecidableEq, Repr

/-- The register at a word index of the window, offset / 4 (10_state.md R23). -/
def Reg.atIndex : Nat → Reg
  | 0 => .cmd
  | 1 => .status
  | 2 => .encLenLo
  | 3 => .encLenHi
  | 4 => .encPutcntLo
  | 5 => .encPutcntHi
  | 6 => .decLenLo
  | 7 => .decLenHi
  | 8 => .decRemLo
  | 9 => .decRemHi
  | 10 => .encOut
  | 11 => .decOut
  | 12 => .ident
  | _ => .reserved

/-- The register an access names, or why the access has no meaning (20_memory.md R62): it must be 4 bytes wide, in the
window, at a multiple of 4. -/
def Reg.select (off : Int) (size : Nat) : Except Refusal Reg :=
  if size ≠ 4 then .error .accessWidth
  else if off < 0 ∨ (Config.windowBytes : Int) ≤ off then .error .accessOutsideWindow
  else if off % 4 ≠ 0 then .error .accessMisaligned
  else .ok (Reg.atIndex (off.toNat / 4))

/-- Bits 31:0 of a 64-bit counter. -/
def loHalf (v : DWord) : Word := v.extractLsb' 0 32

/-- Bits 63:32 of a 64-bit counter. -/
def hiHalf (v : DWord) : Word := v.extractLsb' 32 32

/-- The value a register holds between commands, without what reading it changes (10_state.md R23 to R35). -/
def State.regValue (s : State) : Reg → Word
  | .cmd => 0
  | .status => s.statusWord
  | .encLenLo => loHalf s.enc.encLen
  | .encLenHi => hiHalf s.enc.encLen
  | .encPutcntLo => loHalf s.enc.putCnt
  | .encPutcntHi => hiHalf s.enc.putCnt
  | .decLenLo => loHalf s.dec.len
  | .decLenHi => hiHalf s.dec.len
  | .decRemLo => loHalf s.dec.rem
  | .decRemHi => hiHalf s.dec.rem
  | .encOut => fifoValue s.enc.out
  | .decOut => fifoValue s.dec.out
  | .ident => Config.idValue
  | .reserved => 0

/-- Whether a running command may change what the register reads: STATUS and the count registers (20_memory.md R69). -/
def Reg.mayBeRunning : Reg → Bool
  | .status => true
  | .encLenLo => true
  | .encLenHi => true
  | .encPutcntLo => true
  | .encPutcntHi => true
  | .decLenLo => true
  | .decLenHi => true
  | .decRemLo => true
  | .decRemHi => true
  | .cmd => false
  | .encOut => false
  | .decOut => false
  | .ident => false
  | .reserved => false

/-- What such a register reads while BUSY = 1: a free value, but for BUSY and STATUS' reserved bits (20_memory.md R69,
70_reset_and_hazards.md R254). -/
def busyValue (r : Reg) (draw : Word) : Word :=
  if r = .status then busyStatus draw else draw

/-- The value a read returns. -/
def State.readValue (s : State) (r : Reg) : Word :=
  if s.busy && r.mayBeRunning then busyValue r (Config.busyDraw s.draws) else s.regValue r

/-- What a read changes in the block: a read of ENC_OUT or DEC_OUT removes the oldest byte (10_state.md R32, R33; 20_memory.md
R66); a free value drawn is counted. -/
def State.afterRead (s : State) (r : Reg) : State :=
  match r with
  | .encOut => s.withEnc { s.enc with out := s.enc.out.tail }
  | .decOut => s.withDec { s.dec with out := s.dec.out.tail }
  | r => if s.busy && r.mayBeRunning then { s with draws := s.draws + 1 } else s

/-- A host read: the value returned is appended to the host's record of reads. -/
def State.hostRead (s : State) (r : Reg) : State :=
  { s.afterRead r with hostReads := s.hostReads ++ [s.readValue r] }

/-- Reset: every state element of the block takes its reset value (70_reset_and_hazards.md R250). The host's queue, the
host's record and the number of draws are no state of the block and stay. -/
def State.resetBlock (s : State) : State :=
  { State.reset with pending := s.pending, hostReads := s.hostReads, draws := s.draws }

/-- What one bus operation asks of the block. -/
inductive BusAction where
  /-- Run this command. -/
  | run (i : Instr)
  /-- Nothing more: this is the state after the operation. -/
  | done (s : State)
  /-- The spec gives the access no meaning. -/
  | refuse (r : Refusal)
deriving DecidableEq, Repr

/-- Dispatch of a word written to CMD (42_control.md R210, 60_exceptions.md R227): OVERRUN while BUSY = 1, then ILLEGAL,
then the command. -/
def State.dispatchWord (s : State) (w : Word) : BusAction :=
  if s.busy then .done (s.raiseCmd .overrun)
  else
    match decode w with
    | .ok i => .run i
    | .error _ => .done (s.raiseCmd .illegal)

/-- A host write: a write to CMD is a command, every other write is ignored (20_memory.md R66, 10_state.md R24, R35). -/
def State.hostWrite (s : State) (r : Reg) (w : Word) : BusAction :=
  if r = .cmd then s.dispatchWord w else .done s

/-- One operation of the host on the block, in state `s`. -/
def State.busAction (s : State) : BusOp → BusAction
  | .read off size =>
    match Reg.select off size with
    | .ok r => .done (s.hostRead r)
    | .error e => .refuse e
  | .write off size w =>
    match Reg.select off size with
    | .ok r => s.hostWrite r w
    | .error e => .refuse e
  | .reset => .done s.resetBlock

/-- `MemRead(addr, size)`, an access named by its address on the host's bus (00_scope.md R9, 20_memory.md R62). -/
def BusOp.memRead (addr size : Nat) : BusOp :=
  .read ((addr : Int) - (Config.base : Int)) size

/-- `MemWrite(addr, size, v)`, an access named by its address on the host's bus (00_scope.md R9, 20_memory.md R62). -/
def BusOp.memWrite (addr size : Nat) (v : Word) : BusOp :=
  .write ((addr : Int) - (Config.base : Int)) size v

end Sys2Proof.Machine
end

