-- ==== Sys2Proof/Machine/Control.lean ====
section
/-! DEFINITION. The block-level commands NOP and CLRERR (42_control.md R211, R212). -/

namespace Sys2Proof.Machine

/-- NOP "has no effect" (42_control.md R211). -/
def execNop (s : State) : Host.Outcome State Fault Refusal :=
  .next s

/-- CLRERR "clears the command-error state" (42_control.md R212). -/
def execClrerr (s : State) : Host.Outcome State Fault Refusal :=
  .next s.clearCmd

end Sys2Proof.Machine
end

