-- ==== Sys2Proof/Machine/Decoder.lean ====
section
/-! DEFINITION. The four decoder commands (41_decoder.md), each as a function of the decoder alone and then as the meaning
of its instruction. -/

namespace Sys2Proof.Machine

/-! ### DEC_INIT -/

/-- DEC_INIT, "accepted in every phase" (41_decoder.md R161). -/
def execDecInit (s : State) : Host.Outcome State Fault Refusal :=
  .next (s.withDec s.dec.init)

/-! ### The tree reconstructor -/

/-- How InsertEntry ends: the entry is in the tree; an error, with the arena as the statements before the raise left it
(60_exceptions.md R225); or no free node, which "never" happens (41_decoder.md R169). -/
inductive InsertResult where
  | inserted (st : NodeStore)
  | failed (code : DecErr) (st : NodeStore)
  | noSlot
deriving DecidableEq, Repr

/-- The last step of InsertEntry: the final bit's slot must be free, and takes the leaf (41_decoder.md R167). -/
def attachLeaf (sym : Byte) (pat : Word) (p : NodeIdx) (st : NodeStore) : InsertResult :=
  match (st.node p).child (patternBit pat 0) with
  | some _ => .failed .treeConflict st
  | none =>
    match st.alloc .leaf sym with
    | none => .noSlot
    | some (c, st') => .inserted (st'.setNode p ((st'.node p).withChild (patternBit pat 0) c))

/-- The loop of InsertEntry "for i from n-1 down to 1" from node `p`, then the final bit (41_decoder.md R167). The first
argument is `i`; at 0 the loop is over. -/
def insertWalk (sym : Byte) (pat : Word) : Nat → NodeIdx → NodeStore → InsertResult
  | 0, p, st => attachLeaf sym pat p st
  | i + 1, p, st =>
    match (st.node p).child (patternBit pat (i + 1)) with
    | none =>
      match st.alloc .internal 0 with
      | none => .noSlot
      | some (c, st') => insertWalk sym pat i c (st'.setNode p ((st'.node p).withChild (patternBit pat (i + 1)) c))
    | some c => if (st.node c).kind = .leaf then .failed .treeConflict st else insertWalk sym pat i c st

/-- InsertEntry of a zero-length code: the root, if unused, becomes the leaf (41_decoder.md R167, R182). -/
def insertRootLeaf (sym : Byte) (st : NodeStore) : InsertResult :=
  if (st.node 0).kind = .empty then .inserted (st.setNode 0 ⟨.leaf, none, none, sym⟩) else .failed .treeConflict st

/-- InsertEntry of a code of 1 to 32 bits: the root, if it is no leaf, is internal, and the walk starts there
(41_decoder.md R167). -/
def insertCode (sym : Byte) (pat : Word) (n : Nat) (st : NodeStore) : InsertResult :=
  if (st.node 0).kind = .leaf then .failed .treeConflict st
  else insertWalk sym pat (n - 1) 0 (st.setNode 0 { st.node 0 with kind := .internal })

/-- `InsertEntry(s, P, n)` (41_decoder.md R166, R167). Pattern bits above the length are never read. -/
def insertEntry (sym : Byte) (pat : Word) (n : Nat) (st : NodeStore) : InsertResult :=
  if Config.maxCodeLen < n then .failed .codeLen st
  else if n = 0 then insertRootLeaf sym st
  else insertCode sym pat n st

/-! ### DEC_PUT -/

/-- HeaderDone: the checks in the order written, then the next phase (41_decoder.md R164). -/
def Dec.headerDone (d : Dec) : Dec :=
  if s64 d.len < 0 then d.raise .badLength
  else if Config.maxEntries < d.tcount.toNat then d.raise .badCount
  else if d.tcount = 0 then
    if d.len = 0 then { d with phase := .done } else d.raise .emptyTable
  else { d with entDone := 0, phase := .table }

/-- HdrByte's field update: bytes 0 to 7 are `original_length`, the later ones `table_count` (41_decoder.md R163). -/
def Dec.withHdrByte (b : Byte) (d : Dec) : Dec :=
  if d.dpos < 8 then { d with len := d.len ||| byteLane 64 b d.dpos }
  else { d with tcount := d.tcount ||| byteLane 32 b (d.dpos - 8) }

/-- `HdrByte(b)` (41_decoder.md R163). -/
def Dec.hdrByte (b : Byte) (d : Dec) : Dec :=
  let d' := d.withHdrByte b
  if d.dpos + 1 = Config.hdrBytes then Dec.headerDone { d' with dpos := 0 } else { d' with dpos := d.dpos + 1 }

/-- EnterPayload (41_decoder.md R172). -/
def Dec.enterPayload (d : Dec) : Dec :=
  { d with rem := d.len, cur := 0, win := 0, vbits := 0, needIn := false, phase := .payload }

/-- TableDone (41_decoder.md R171). -/
def Dec.tableDone (d : Dec) : Dec :=
  if d.len = 0 then { d with phase := .done } else d.enterPayload

/-- TableByte after a successful InsertEntry: the entry registers are cleared, the entry is counted, and the last entry
ends the table (41_decoder.md R165). -/
def Dec.entryDone (st : NodeStore) (d : Dec) : Dec :=
  let d' := { d with store := st, eSym := 0, ePat := 0, eLen := 0, entDone := d.entDone + 1 }
  if d.entDone + 1 = d.tcount.toNat then d'.tableDone else d'

/-- TableByte once the sixth byte is there: InsertEntry on the assembled entry (41_decoder.md R165). -/
def Dec.finishEntry (d : Dec) : Except Fault Dec :=
  match insertEntry d.eSym d.ePat d.eLen.toNat d.store with
  | .inserted st => .ok (d.entryDone st)
  | .failed code st => .ok (Dec.raise code { d with store := st })
  | .noSlot => .error .arenaFull

/-- TableByte's field update (41_decoder.md R165). -/
def Dec.withEntryByte (b : Byte) (d : Dec) : Dec :=
  if d.dpos = 0 then { d with eSym := b }
  else if d.dpos ≤ 4 then { d with ePat := d.ePat ||| byteLane 32 b (d.dpos - 1) }
  else { d with eLen := b }

/-- `TableByte(b)` (41_decoder.md R165). -/
def Dec.tableByte (b : Byte) (d : Dec) : Except Fault Dec :=
  let d' := d.withEntryByte b
  if d.dpos + 1 = Config.entryBytes then Dec.finishEntry { d' with dpos := 0 } else .ok { d' with dpos := d.dpos + 1 }

/-- `WinByte(b)` (41_decoder.md R173). -/
def Dec.winByte (b : Byte) (d : Dec) : Dec :=
  if d.inEnd then d.raise .seq
  else if 24 < d.vbits then d.raise .inOverrun
  else { d with win := d.win ||| b.setWidth 32 <<< (24 - d.vbits), vbits := d.vbits + 8, needIn := false }

/-- `DoneByte(b)`: the byte is discarded, unless the stream was already ended (41_decoder.md R174). -/
def Dec.doneByte (_b : Byte) (d : Dec) : Dec :=
  if d.inEnd then d.raise .seq else d

/-- DEC_PUT b (41_decoder.md R160, R162). -/
def Dec.put (b : Byte) (d : Dec) : Except Fault Dec :=
  match d.phase with
  | .hdr => .ok (d.hdrByte b)
  | .table => d.tableByte b
  | .payload => .ok (d.winByte b)
  | .done => .ok (d.doneByte b)
  | .error => .ok d

/-- The meaning of DEC_PUT b. -/
def execDecPut (b : Byte) (s : State) : Host.Outcome State Fault Refusal :=
  match s.dec.put b with
  | .ok d => .next (s.withDec d)
  | .error f => .fault f

/-! ### DEC_NEXT -/

/-- Where the loop of DEC_NEXT ends, with the window, its count and the tree position as the bits consumed left them
(41_decoder.md R176, 60_exceptions.md R225). -/
inductive WalkResult where
  /-- A leaf is reached. -/
  | symbol (sym : Byte) (win : Word) (vbits : Nat)
  /-- A bit is needed and none is left in the window. -/
  | starved (win : Word) (cur : NodeIdx)
  /-- The bit selects a child the table never created. -/
  | noPath (win : Word) (vbits : Nat) (cur : NodeIdx)
deriving DecidableEq, Repr

/-- The loop of DEC_NEXT over `vbits` window bits from tree position `cur` (41_decoder.md R176, R177). -/
def walkBits (st : NodeStore) : Nat → Word → NodeIdx → WalkResult
  | 0, win, cur =>
    if (st.node cur).kind = .leaf then .symbol (st.node cur).sym win 0 else .starved win cur
  | v + 1, win, cur =>
    if (st.node cur).kind = .leaf then .symbol (st.node cur).sym win (v + 1)
    else
      match (st.node cur).child (win.getLsbD 31) with
      | none => .noPath (win <<< 1) v cur
      | some c => walkBits st v (win <<< 1) c

/-- DEC_NEXT at a leaf: the symbol is emitted and counted, and the walk goes back to the root (41_decoder.md R176). -/
def Dec.emitSymbol (sym : Byte) (win : Word) (vbits : Nat) (d : Dec) : Dec :=
  { (d.emit sym) with
    win := win, vbits := vbits, rem := d.rem - 1, cur := 0, needIn := false,
    phase := if d.rem - 1 = 0 then .done else d.phase }

/-- DEC_NEXT out of window bits: TRUNCATED after DEC_END, else a stop that keeps the tree position (41_decoder.md
R176). -/
def Dec.starve (win : Word) (cur : NodeIdx) (d : Dec) : Dec :=
  let d' := { d with win := win, vbits := 0, cur := cur }
  if d.inEnd then d'.raise .truncated else { d' with needIn := true }

/-- DEC_NEXT in phase PAYLOAD (41_decoder.md R176). -/
def Dec.nextSymbol (d : Dec) : Dec :=
  match walkBits d.store d.vbits d.win d.cur with
  | .symbol sym win vbits => d.emitSymbol sym win vbits
  | .starved win cur => d.starve win cur
  | .noPath win vbits cur => Dec.raise .invalidPath { d with win := win, vbits := vbits, cur := cur }

/-- DEC_NEXT (41_decoder.md R160, R176). -/
def Dec.next (d : Dec) : Dec :=
  match d.phase with
  | .hdr => d.raise .seq
  | .table => d.raise .seq
  | .payload => d.nextSymbol
  | .done => d.raise .seq
  | .error => d

/-- The meaning of DEC_NEXT. -/
def execDecNext (s : State) : Host.Outcome State Fault Refusal :=
  .next (s.withDec s.dec.next)

/-! ### DEC_END -/

/-- DEC_END in PAYLOAD or DONE: the input ends, once (41_decoder.md R178). -/
def Dec.endInput (d : Dec) : Dec :=
  if d.inEnd then d.raise .seq else { d with inEnd := true }

/-- DEC_END (41_decoder.md R160, R178). -/
def Dec.finish (d : Dec) : Dec :=
  match d.phase with
  | .hdr => d.raise .truncated
  | .table => d.raise .truncated
  | .payload => d.endInput
  | .done => d.endInput
  | .error => d

/-- The meaning of DEC_END. -/
def execDecEnd (s : State) : Host.Outcome State Fault Refusal :=
  .next (s.withDec s.dec.finish)

end Sys2Proof.Machine
end

