-- ==== Sys2Proof/Machine/Tree.lean ====
section
/-! DEFINITION. The encoder's transient Huffman tree: BuildTree (40_encoder.md R115 to R118) and GenCodes (R120, R121).
Weights, patterns and depths are mathematical integers (00_scope.md R7). -/

namespace Sys2Proof.Machine

/-- TreeNode (00_scope.md R12): a Leaf holding one symbol and its count, or an Internal node with its weight, its
one-branch and its zero-branch. -/
inductive HTree where
  | leaf (sym : Byte) (weight : Nat)
  | internal (weight : Nat) (one zero : HTree)
deriving DecidableEq, Repr

/-- `w(n)` (40_encoder.md R115). -/
def HTree.weight : HTree → Nat
  | .leaf _ w => w
  | .internal w _ _ => w

/-- `insert(L, Pos(L, w(t)), t)`: before the first node of strictly greater weight, so after every node of equal weight
(40_encoder.md R115, R117; 90_conflicts.md C1). -/
def insertAfterEqual (t : HTree) : List HTree → List HTree
  | [] => [t]
  | u :: rest => if t.weight < u.weight then t :: u :: rest else u :: insertAfterEqual t rest

/-- The leaf of a symbol, if the symbol is present (10_state.md R36, 40_encoder.md R115). -/
def presentLeaf (freq : SymTab DWord) (s : Byte) : Option HTree :=
  if freq.get s = 0 then none else some (.leaf s (freq.get s).toNat)

/-- BuildTree, step 1: the present symbols' leaves, inserted in ascending symbol order (40_encoder.md R115). -/
def initialList (freq : SymTab DWord) : List HTree :=
  (allSymbols.filterMap (presentLeaf freq)).foldl (fun l t => insertAfterEqual t l) []

/-- The merge of the front two nodes: the first removed is the one-branch, the second the zero-branch (40_encoder.md
R116). -/
def mergeNodes (a b : HTree) : HTree :=
  .internal (a.weight + b.weight) a b

/-- BuildTree, steps 2 and 3: merge while at least two nodes remain; the one left is the root (40_encoder.md R116, R118).
`fuel` bounds the merges; with `k` nodes there are `k - 1`. -/
def mergeLoop : Nat → List HTree → Option HTree
  | _, [] => none
  | _, [t] => some t
  | 0, _ :: _ :: _ => none
  | fuel + 1, a :: b :: rest => mergeLoop fuel (insertAfterEqual (mergeNodes a b) rest)

/-- BuildTree (40_encoder.md R115 to R118); no tree when no symbol is present. -/
def buildTree (freq : SymTab DWord) : Option HTree :=
  mergeLoop (initialList freq).length (initialList freq)

/-- CodeTableEntry (00_scope.md R12): a symbol, its code's bits as a number, and its code's length. -/
structure CodeEntry where
  sym : Byte
  pat : Nat
  len : Nat
deriving DecidableEq, Repr

/-- `Walk(node, p, d)`: depth first, one-branch first, each leaf reached with the bits and the depth of its path
(40_encoder.md R120). -/
def HTree.walk : HTree → Nat → Nat → List CodeEntry
  | .leaf s _, p, d => [⟨s, p, d⟩]
  | .internal _ one zero, p, d => one.walk (2 * p + 1) (d + 1) ++ zero.walk (2 * p) (d + 1)

/-- GenCodes (40_encoder.md R120), with the one-bit code 0 for a sole symbol (R121). -/
def genCodes : HTree → List CodeEntry
  | .leaf s _ => [⟨s, 0, 1⟩]
  | .internal w one zero => (HTree.internal w one zero).walk 0 0

/-- `P[s] <- p` for each leaf reached, over a table of zeros (40_encoder.md R114, R120). -/
def patTable (codes : List CodeEntry) : SymTab Word :=
  codes.foldl (fun t c => t.set c.sym (BitVec.ofNat 32 c.pat)) (SymTab.const 0)

/-- `N[s] <- d` for each leaf reached, over a table of zeros (40_encoder.md R114, R120). -/
def lenTable (codes : List CodeEntry) : SymTab Nat :=
  codes.foldl (fun t c => t.set c.sym c.len) (SymTab.const 0)

end Sys2Proof.Machine
end

