-- ==== Sys2Proof/Machine/Encoder.lean ====
section
/-! DEFINITION. The five encoder commands (40_encoder.md), each as a function of the encoder alone and then as the meaning
of its instruction. -/

namespace Sys2Proof.Machine

/-! ### ENC_INIT -/

/-- ENC_INIT, "accepted in every phase" (40_encoder.md R111). -/
def execEncInit (s : State) : Host.Outcome State Fault Refusal :=
  .next (s.withEnc s.enc.init)

/-! ### ENC_COUNT -/

/-- ENC_COUNT b in phase COUNT (40_encoder.md R112). -/
def Enc.countSymbol (b : Byte) (e : Enc) : Enc :=
  if e.encLen.toNat = Config.lenMax then e.raise .lengthOverflow
  else { e with freq := e.freq.set b (e.freq.get b + 1), encLen := e.encLen + 1 }

/-- ENC_COUNT b (40_encoder.md R110, R112). -/
def Enc.count (b : Byte) (e : Enc) : Enc :=
  match e.phase with
  | .count => e.countSymbol b
  | .encode => e.raise .seq
  | .done => e.raise .seq
  | .error => e

/-- The meaning of ENC_COUNT b. -/
def execEncCount (b : Byte) (s : State) : Host.Outcome State Fault Refusal :=
  .next (s.withEnc (s.enc.count b))

/-! ### ENC_BUILD -/

/-- The bytes of one table entry: symbol, `LE_4` of the pattern, length (30_encoding.md R90, 40_encoder.md R123). -/
def entryBytes (e : Enc) (s : Byte) : List Byte :=
  s :: leBytes 4 (e.codePat.get s).toNat ++ [BitVec.ofNat 8 (e.codeLen.get s)]

/-- The symbols with a code, ascending (40_encoder.md R123). -/
def codedSymbols (e : Enc) : List Byte :=
  allSymbols.filter fun s => 0 < e.codeLen.get s

/-- The bytes EmitHeader emits: `LE_8(enc_len)`, `LE_4(T)`, then the table in symbol order (40_encoder.md R123). -/
def headerBytes (e : Enc) : List Byte :=
  leBytes 8 e.encLen.toNat ++ leBytes 4 (codedSymbols e).length ++ (codedSymbols e).flatMap (entryBytes e)

/-- The last statements of ENC_BUILD: pass 2 starts with an empty packer (40_encoder.md R114). -/
def Enc.enterEncode (e : Enc) : Enc :=
  { e with putCnt := 0, acc := 0, live := 0, phase := .encode }

/-- The code table written from GenCodes' result (40_encoder.md R114). -/
def Enc.withCodes (codes : List CodeEntry) (e : Enc) : Enc :=
  { e with codePat := patTable codes, codeLen := lenTable codes }

/-- ENC_BUILD once the tree is there: CODE_TOO_LONG before anything is emitted, or the table, the header and phase ENCODE
(40_encoder.md R114, R122, R123). -/
def Enc.buildFrom (root : HTree) (e : Enc) : Enc :=
  if (genCodes root).any fun c => Config.maxCodeLen < c.len then e.raise .codeTooLong
  else
    let coded := e.withCodes (genCodes root)
    (coded.emit (headerBytes coded)).enterEncode

/-- ENC_BUILD in phase COUNT (40_encoder.md R114). A non-zero length with no present symbol has no tree (R118): a fault. -/
def Enc.buildTable (e : Enc) : Except Fault Enc :=
  if e.encLen = 0 then .ok (e.emit (List.replicate Config.hdrBytes 0)).enterEncode
  else
    match buildTree e.freq with
    | some root => .ok (e.buildFrom root)
    | none => .error .treeOfNoSymbols

/-- ENC_BUILD (40_encoder.md R110, R114). -/
def Enc.build (e : Enc) : Except Fault Enc :=
  match e.phase with
  | .count => e.buildTable
  | .encode => .ok (e.raise .seq)
  | .done => .ok (e.raise .seq)
  | .error => .ok e

/-- The meaning of ENC_BUILD. -/
def execEncBuild (s : State) : Host.Outcome State Fault Refusal :=
  match s.enc.build with
  | .ok e => .next (s.withEnc e)
  | .error f => .fault f

/-! ### ENC_PUT -/

/-- The packer's accumulator and its count of live bits (10_state.md R39). -/
structure Packer where
  acc : DWord
  live : Nat
deriving DecidableEq, Repr

/-- The highest 8 live bits (40_encoder.md R124, R126). -/
def Packer.topByte (p : Packer) : Byte :=
  (p.acc >>> (p.live - 8)).setWidth 8

/-- The packer after its highest 8 live bits are dropped (40_encoder.md R124, R126). -/
def Packer.dropByte (p : Packer) : Packer :=
  ⟨BitVec.ofNat 64 (p.acc.toNat % 2 ^ (p.live - 8)), p.live - 8⟩

/-- The loop of R124 and R126: while `more live` holds and at least 8 bits are live, emit the highest 8. `fuel` bounds the
rounds; each takes 8 live bits. -/
def Packer.drain (more : Nat → Bool) : Nat → Packer → Packer × List Byte
  | 0, p => (p, [])
  | fuel + 1, p =>
    if more p.live && decide (8 ≤ p.live) then
      let r := Packer.drain more fuel p.dropByte
      (r.1, p.topByte :: r.2)
    else (p, [])

/-- `acc <- (acc << n) | p; live <- live + n` (40_encoder.md R124). -/
def Packer.append (code : Word) (n : Nat) (p : Packer) : Packer :=
  ⟨(p.acc <<< n) ||| code.setWidth 64, p.live + n⟩

/-- `Pack(p, n)`: drain while the code would push the live count above 32, then append it (40_encoder.md R124). -/
def Packer.pack (code : Word) (n : Nat) (p : Packer) : Packer × List Byte :=
  let r := Packer.drain (fun live => decide (32 < live + n)) p.live p
  (r.1.append code n, r.2)

/-- The encoder's packer. -/
def Enc.packer (e : Enc) : Packer :=
  ⟨e.acc, e.live⟩

/-- The encoder with a packer's result: its registers, and its bytes emitted. -/
def Enc.withPacked (r : Packer × List Byte) (e : Enc) : Enc :=
  { e with acc := r.1.acc, live := r.1.live, out := e.out ++ r.2 }

/-- ENC_PUT b in phase ENCODE (40_encoder.md R125). -/
def Enc.putSymbol (b : Byte) (e : Enc) : Enc :=
  if e.codeLen.get b = 0 then e.raise .passMismatch
  else if e.putCnt = e.encLen then e.raise .passMismatch
  else
    let packed := e.withPacked (e.packer.pack (e.codePat.get b) (e.codeLen.get b))
    { packed with putCnt := e.putCnt + 1 }

/-- ENC_PUT b (40_encoder.md R110, R125). -/
def Enc.put (b : Byte) (e : Enc) : Enc :=
  match e.phase with
  | .count => e.raise .seq
  | .encode => e.putSymbol b
  | .done => e.raise .seq
  | .error => e

/-- The meaning of ENC_PUT b. -/
def execEncPut (b : Byte) (s : State) : Host.Outcome State Fault Refusal :=
  .next (s.withEnc (s.enc.put b))

/-! ### ENC_FINISH -/

/-- The last, partial byte of Flush: the remaining bits left-justified, the low bits 0 (40_encoder.md R126). -/
def Packer.lastByte (p : Packer) : List Byte :=
  if 0 < p.live then [(p.acc <<< (8 - p.live)).setWidth 8] else []

/-- Flush: whole bytes, then the partial one; the packer ends empty (40_encoder.md R126). -/
def Packer.flush (p : Packer) : Packer × List Byte :=
  let r := Packer.drain (fun _ => true) p.live p
  (⟨0, 0⟩, r.2 ++ r.1.lastByte)

/-- ENC_FINISH in phase ENCODE (40_encoder.md R127). -/
def Enc.finishPass (e : Enc) : Enc :=
  if e.putCnt = e.encLen then { e.withPacked e.packer.flush with phase := .done } else e.raise .passMismatch

/-- ENC_FINISH (40_encoder.md R110, R127). -/
def Enc.finish (e : Enc) : Enc :=
  match e.phase with
  | .count => e.raise .seq
  | .encode => e.finishPass
  | .done => e.raise .seq
  | .error => e

/-- The meaning of ENC_FINISH. -/
def execEncFinish (s : State) : Host.Outcome State Fault Refusal :=
  .next (s.withEnc s.enc.finish)

end Sys2Proof.Machine
end

