-- ==== Sys2Proof/Machine/Dispatch.lean ====
section
/-! DEFINITION. The case split of 42_control.md R210: one arm per command. -/

namespace Sys2Proof.Machine

def exec (i : Instr) (s : State) : Host.Outcome State Fault Refusal :=
  match i with
  | .nop => Sys2Proof.Machine.execNop s
  | .clrerr => Sys2Proof.Machine.execClrerr s
  | .encInit => Sys2Proof.Machine.execEncInit s
  | .encCount b => Sys2Proof.Machine.execEncCount b s
  | .encBuild => Sys2Proof.Machine.execEncBuild s
  | .encPut b => Sys2Proof.Machine.execEncPut b s
  | .encFinish => Sys2Proof.Machine.execEncFinish s
  | .decInit => Sys2Proof.Machine.execDecInit s
  | .decPut b => Sys2Proof.Machine.execDecPut b s
  | .decNext => Sys2Proof.Machine.execDecNext s
  | .decEnd => Sys2Proof.Machine.execDecEnd s

end Sys2Proof.Machine
end

