-- ==== Sys2Proof/Machine/Step.lean ====
section
/-! DEFINITION. One step: the host's next bus operation, carried out whole (00_scope.md R10, 70_reset_and_hazards.md R262).
With no operation pending nothing happens (R10: "Nothing else changes the state"; log 1). -/

namespace Sys2Proof.Machine

/-- One step of the machine. -/
def step (s : State) : Host.Outcome State Fault Refusal :=
  match s.pending with
  | [] => .next s
  | op :: rest =>
    match State.busAction { s with pending := rest } op with
    | .run i => exec i { s with pending := rest }
    | .done s' => .next s'
    | .refuse r => .refused r

/-- `s` with the host about to write the table word `w` to CMD, BUSY being 0 (42_control.md R210): the very next step runs
that command (log 1). -/
def State.withFetchWord (s : State) (nbits w : Nat) : State :=
  { s with pending := .write 0 4 (BitVec.ofNat 32 (w % 2 ^ nbits)) :: s.pending, busy := false }

end Sys2Proof.Machine
end

