-- ==== Sys2Proof/Machine/Assembler.lean ====
section
/-! DEFINITION. The assembler syntax of commands (30_encoding.md R86) and the pseudo-instructions (R87). -/

namespace Sys2Proof.Machine

/-- Why a line is no command: the assembly errors of R86, and a line of another form. -/
inductive AsmError where
  /-- The first word is no mnemonic of R84. -/
  | unknownMnemonic
  /-- A byte operand given to a command that takes none. -/
  | operandNotAllowed
  /-- A missing operand. -/
  | operandMissing
  /-- The operand has none of the three forms, or is above 255. -/
  | badOperand
deriving DecidableEq, Repr

/-- The value of a digit in base `base`. -/
def digitValue (base : Nat) (c : Char) : Option Nat :=
  let v :=
    if 48 ≤ c.toNat ∧ c.toNat ≤ 57 then some (c.toNat - 48)
    else if 65 ≤ c.toNat ∧ c.toNat ≤ 70 then some (c.toNat - 55)
    else if 97 ≤ c.toNat ∧ c.toNat ≤ 102 then some (c.toNat - 87)
    else none
  v.filter fun d => decide (d < base)

/-- The value of a row of digits in base `base`, from the value of the digits before it. -/
def digitsValue (base : Nat) : Nat → List Char → Option Nat
  | acc, [] => some acc
  | acc, c :: cs => (digitValue base c).bind fun d => digitsValue base (base * acc + d) cs

/-- A byte from a number, if it is one. -/
def byteOfNat (n : Nat) : Option Byte :=
  if n < 256 then some (BitVec.ofNat 8 n) else none

/-- A byte literal (30_encoding.md R86): `'c'` for an ASCII character, `0x` and two hexadecimal digits, or a decimal number
of 0 to 255. -/
def parseByte : List Char → Option Byte
  | ['\'', c, '\''] => if c.toNat < 128 then some (BitVec.ofNat 8 c.toNat) else none
  | ['0', 'x', h, l] => (digitsValue 16 0 [h, l]).bind byteOfNat
  | c :: cs => (digitsValue 10 0 (c :: cs)).bind byteOfNat
  | [] => none

/-- The operand of a line: what stands after the first space. -/
def operandText (line : List Char) : Option (List Char) :=
  match line.dropWhile (· != ' ') with
  | [] => none
  | _ :: operand => some operand

/-- The word of a row with the operand as written: `(OP, 16'b0, byte)` (30_encoding.md R86). -/
def assembleRow (row : OpcodeRow) (operand : Option (List Char)) : Except AsmError Word :=
  match row.takesByte, operand with
  | false, none => .ok (CmdFields.toWord ⟨row.op, 0, 0⟩)
  | false, some _ => .error .operandNotAllowed
  | true, none => .error .operandMissing
  | true, some text =>
    match parseByte text with
    | some b => .ok (CmdFields.toWord ⟨row.op, 0, b⟩)
    | none => .error .badOperand

/-- One line of assembler text, `MNEMONIC` or `MNEMONIC byte` (30_encoding.md R86). -/
def assemble (line : List Char) : Except AsmError Word :=
  match opcodeMap.find? fun r => r.mnemonic.toList == line.takeWhile (· != ' ') with
  | some row => assembleRow row (operandText line)
  | none => .error .unknownMnemonic

/-- `ENC_COUNTS s` (30_encoding.md R87). -/
def encCounts (bs : List Byte) : List Instr := bs.map .encCount

/-- `ENC_PUTS s` (30_encoding.md R87). -/
def encPuts (bs : List Byte) : List Instr := bs.map .encPut

/-- `DEC_PUTS bs` (30_encoding.md R87). -/
def decPuts (bs : List Byte) : List Instr := bs.map .decPut

/-- `DEC_NEXTN n` (30_encoding.md R87). -/
def decNextN (n : Nat) : List Instr := List.replicate n .decNext

end Sys2Proof.Machine
end

