-- ==== Sys2Proof/Machine/HostProgram.lean ====
section
/-! DEFINITION. The host sequences COMPRESS and DECOMPRESS (30_encoding.md R97): host programs that drive the machine only
through bus operations, each one step. -/

namespace Sys2Proof.Machine

/-- The outcome of a host program: a value for the host and the state it leaves, or the stop of a step. -/
abbrev HostOutcome (α : Type) := Host.Outcome (α × State) Fault Refusal

/-- The rest of a host program after one step. -/
def afterStep {α : Type} (r : Host.Outcome State Fault Refusal) (k : State → HostOutcome α) : HostOutcome α :=
  match r with
  | .next s => k s
  | .fault f => .fault f
  | .refused f => .refused f

/-- The host does `op` now, before anything pending. -/
def State.perform (op : BusOp) (s : State) : Host.Outcome State Fault Refusal :=
  step { s with pending := op :: s.pending }

/-- `MemWrite(BASE+0x00, 4, w)` for the word of a command. -/
def State.issue (i : Instr) (s : State) : Host.Outcome State Fault Refusal :=
  s.perform (.write 0 4 (encode i))

/-- The commands of a list, issued in order; then the rest of the program. -/
def issueAll {α : Type} : List Instr → State → (State → HostOutcome α) → HostOutcome α
  | [], s, k => k s
  | i :: is, s, k => afterStep (s.issue i) fun s' => issueAll is s' k

/-- `MemRead(BASE+off, 4)`: the rest of the program gets the value the read returned. -/
def readWord {α : Type} (off : Int) (s : State) (k : Word → State → HostOutcome α) : HostOutcome α :=
  afterStep (s.perform (.read off 4)) fun s' => k (s'.hostReads.getLastD 0) s'

/-- "every byte read from ENC_OUT (bit 8 = 1) until a read returns 0", from the FIFO register at `off`. `fuel` bounds the
reads. -/
def drainFifo {α : Type} (off : Int) : Nat → List Byte → State → (List Byte → State → HostOutcome α) → HostOutcome α
  | 0, got, s, k => k got s
  | fuel + 1, got, s, k =>
    readWord off s fun w s' => if w = 0 then k got s' else drainFifo off fuel (got ++ [w.setWidth 8]) s' k

/-- STATUS.ENC_STATE of a STATUS value (10_state.md R25). -/
def statusEncState (w : Word) : BitVec 2 := w.extractLsb' 4 2

/-- STATUS.ENC_ERR of a STATUS value (10_state.md R25). -/
def statusEncErr (w : Word) : BitVec 4 := w.extractLsb' 8 4

/-- STATUS.DEC_STATE of a STATUS value (10_state.md R25). -/
def statusDecState (w : Word) : BitVec 3 := w.extractLsb' 12 3

/-- STATUS.DEC_ERR of a STATUS value (10_state.md R25). -/
def statusDecErr (w : Word) : BitVec 4 := w.extractLsb' 16 4

/-- STATUS.DEC_IN_ROOM of a STATUS value (10_state.md R25). -/
def statusInRoom (w : Word) : Bool := w.getLsbD 21

/-- STATUS.DEC_IN_END of a STATUS value (10_state.md R25). -/
def statusInEnd (w : Word) : Bool := w.getLsbD 22

/-- What COMPRESS and DECOMPRESS return: "success or a typed failure" (30_encoding.md R97), a success with the output drained.
DESIGN CHOICE (log 19): a failure holds the code alone. Bytes drained before it "are not a valid result"
(70_reset_and_hazards.md R261) and stand only in `hostReads`. -/
inductive HostResult where
  | success (output : List Byte)
  | failure (code : BitVec 4)
deriving DecidableEq, Repr

/-- The last lines of COMPRESS: drain ENC_OUT, then read STATUS (30_encoding.md R97). The drained bytes are left out of a
failure (log 19). -/
def compressEnd (s : State) : HostOutcome HostResult :=
  drainFifo 0x28 (s.enc.out.length + 1) [] s fun output s =>
    readWord 0x04 s fun st s =>
      .next (if statusEncState st = EncPhase.done.code then .success output else .failure (statusEncErr st), s)

/-- COMPRESS(x) (30_encoding.md R97). -/
def compress (x : List Byte) (s : State) : HostOutcome HostResult :=
  issueAll (.encInit :: encCounts x ++ [.encBuild]) s fun s =>
    readWord 0x04 s fun st s =>
      if statusEncState st = EncPhase.error.code then .next (.failure (statusEncErr st), s)
      else issueAll (encPuts x ++ [.encFinish]) s compressEnd

/-- The command DECOMPRESS issues for a STATUS value, and the bytes of `f` left after it (30_encoding.md R97). -/
def decompressChoice (st : Word) : List Byte → Instr × List Byte
  | f =>
    if statusDecState st = DecPhase.payload.code then
      match f with
      | b :: rest => if statusInRoom st then (.decPut b, rest) else (.decNext, b :: rest)
      | [] => if statusInEnd st then (.decNext, []) else (.decEnd, [])
    else
      match f with
      | b :: rest => (.decPut b, rest)
      | [] => (.decEnd, [])

/-- The loop of DECOMPRESS, left when DEC_STATE is DONE or ERROR (30_encoding.md R97). `fuel` bounds the rounds; the loop
"ends for every finite `f`", and a result `none` says that `fuel` was too small (log 15). -/
def decompressLoop {α : Type} : Nat → List Byte → State → (State → HostOutcome (Option α)) → HostOutcome (Option α)
  | 0, _, s, _ => .next (none, s)
  | fuel + 1, f, s, k =>
    readWord 0x04 s fun st s =>
      if statusDecState st = DecPhase.done.code ∨ statusDecState st = DecPhase.error.code then k s
      else
        afterStep (s.issue (decompressChoice st f).1) fun s' => decompressLoop fuel (decompressChoice st f).2 s' k

/-- The last lines of DECOMPRESS: drain DEC_OUT, then read STATUS (30_encoding.md R97). The drained bytes are left out of a
failure (log 19). -/
def decompressEnd (s : State) : HostOutcome (Option HostResult) :=
  drainFifo 0x2C (s.dec.out.length + 1) [] s fun output s =>
    readWord 0x04 s fun st s =>
      .next (some (if statusDecState st = DecPhase.done.code then .success output else .failure (statusDecErr st)), s)

/-- DECOMPRESS(f) (30_encoding.md R97), with a bound on the loop's rounds. -/
def decompress (fuel : Nat) (f : List Byte) (s : State) : HostOutcome (Option HostResult) :=
  afterStep (s.issue .decInit) fun s => decompressLoop fuel f s decompressEnd

end Sys2Proof.Machine
end

