-- ==== Sys2Proof/Safety.lean ====
section
/-! DEFINITION. The terms claims are stated in: the invariants of the state (10_state.md R36 to R50), a state whose next step
cannot fault, a list of commands run in order, and the bit strings and trees the laws of 40_encoder.md and 41_decoder.md speak
of. -/

namespace Sys2Proof.Machine

/-! ### Runs -/

/-- The commands of a list executed in order, up to the first stop. -/
def execAll : List Instr → State → Host.Outcome State Fault Refusal
  | [], s => .next s
  | i :: is, s =>
    match exec i s with
    | .next t => execAll is t
    | .fault f => .fault f
    | .refused r => .refused r

/-- The next step of the machine does not stop with a fault. -/
def State.NoFault (s : State) : Prop :=
  ∀ f, step s ≠ .fault f

/-- A command of the encoder, opcodes 0x10 to 0x14 (60_exceptions.md R235). -/
def isEncCommand : Instr → Bool
  | .encInit => true
  | .encCount _ => true
  | .encBuild => true
  | .encPut _ => true
  | .encFinish => true
  | .nop => false
  | .clrerr => false
  | .decInit => false
  | .decPut _ => false
  | .decNext => false
  | .decEnd => false

/-- A command of the decoder, opcodes 0x20 to 0x23 (60_exceptions.md R235). -/
def isDecCommand : Instr → Bool
  | .decInit => true
  | .decPut _ => true
  | .decNext => true
  | .decEnd => true
  | .nop => false
  | .clrerr => false
  | .encInit => false
  | .encCount _ => false
  | .encBuild => false
  | .encPut _ => false
  | .encFinish => false

/-! ### Bit strings -/

/-- The `n` low bits of a number, most significant bit first (00_scope.md R8, 30_encoding.md R90). -/
def bitsOf (v n : Nat) : List Bool :=
  (List.range n).map fun i => v.testBit (n - 1 - i)

/-- The code of a symbol as a bit string (40_encoder.md R128). -/
def Enc.code (e : Enc) (s : Byte) : List Bool :=
  bitsOf (e.codePat.get s).toNat (e.codeLen.get s)

/-- Bytes as the payload's bit string, MSB-first within each byte (20_memory.md R64). -/
def payloadBits (bs : List Byte) : List Bool :=
  bs.flatMap fun b => bitsOf b.toNat 8

/-- The 0 bits that fill `n` bits up to whole bytes (40_encoder.md R128). -/
def padding (n : Nat) : List Bool :=
  List.replicate ((8 - n % 8) % 8) false

/-- The live bits of the packer, most significant first (40_encoder.md R128). -/
def Packer.bits (p : Packer) : List Bool :=
  bitsOf p.acc.toNat p.live

/-- The packer's invariant (10_state.md R39, R50). -/
structure Packer.Inv (p : Packer) : Prop where
  live_le : p.live ≤ 39
  acc_lt : p.acc.toNat < 2 ^ p.live

/-- The first `k` bits of the decoder's window, in stream order (10_state.md R44, 41_decoder.md R177). -/
def windowBits (win : Word) (k : Nat) : List Bool :=
  bitsOf (win.toNat >>> (32 - k)) k

/-! ### Trees -/

/-- The symbols at the leaves of a tree, one-branch first. -/
def HTree.symbols : HTree → List Byte
  | .leaf s _ => [s]
  | .internal _ one zero => one.symbols ++ zero.symbols

/-- The number of Internal nodes. -/
def HTree.internals : HTree → Nat
  | .leaf _ _ => 0
  | .internal _ one zero => 1 + one.internals + zero.internals

/-- The length of the longest path from the root to a leaf. -/
def HTree.depth : HTree → Nat
  | .leaf _ _ => 0
  | .internal _ one zero => 1 + max one.depth zero.depth

/-- Every Internal node's weight is the sum of its children's (40_encoder.md R119). -/
def HTree.WeightsAdd : HTree → Prop
  | .leaf _ _ => True
  | .internal w one zero => w = one.weight + zero.weight ∧ one.WeightsAdd ∧ zero.WeightsAdd

/-- The symbol at the end of a root-to-leaf path: 1 takes the one-branch, 0 the zero-branch (40_encoder.md R120). -/
def HTree.follow : HTree → List Bool → Option Byte
  | .leaf s _, [] => some s
  | .leaf _ _, _ :: _ => none
  | .internal _ _ _, [] => none
  | .internal _ one zero, bit :: rest => if bit then one.follow rest else zero.follow rest

/-- The present symbols, ascending (10_state.md R36). -/
def presentSymbols (freq : SymTab DWord) : List Byte :=
  allSymbols.filter fun s => freq.get s ≠ 0

/-- The sum of all counts. -/
def totalCount (freq : SymTab DWord) : Nat :=
  (allSymbols.map fun s => (freq.get s).toNat).sum

/-- The arena node reached from `i` along a bit string, if every branch exists. -/
def NodeStore.descend (st : NodeStore) : NodeIdx → List Bool → Option NodeIdx
  | i, [] => some i
  | i, bit :: rest =>
    match (st.node i).child bit with
    | some c => st.descend c rest
    | none => none

/-- The arena's leaf at the end of a bit string from the root: its symbol. -/
def NodeStore.symbolAt (st : NodeStore) (bits : List Bool) : Option Byte :=
  match st.descend 0 bits with
  | some i => if (st.node i).kind = .leaf then some (st.node i).sym else none
  | none => none

/-! ### Invariants -/

/-- The arena is in canonical form and holds a tree: only allocated nodes are used and linked, a child is a used node that was
allocated after its parent and has no other parent, and only an INTERNAL node has children (10_state.md R43, 41_decoder.md R167,
R169). -/
structure NodeStore.Inv (st : NodeStore) : Prop where
  canonical : st.nodes.wf = true
  next_pos : 1 ≤ st.next
  next_le : st.next ≤ Config.decNodes
  listed_lt : ∀ e ∈ st.nodes, e.1.val < st.next
  child_lt : ∀ i bit c, (st.node i).child bit = some c → i.val < c.val ∧ c.val < st.next
  one_parent : ∀ i j bit bit' c, (st.node i).child bit = some c → (st.node j).child bit' = some c → i = j ∧ bit = bit'
  child_used : ∀ i bit c, (st.node i).child bit = some c → (st.node c).kind ≠ .empty
  only_internal : ∀ i bit, (st.node i).kind ≠ .internal → (st.node i).child bit = none

/-- The encoder's invariants (10_state.md R37, R38, R39, R41, R50). -/
structure Enc.Inv (e : Enc) : Prop where
  len_sum : e.encLen.toNat = totalCount e.freq
  len_le : e.encLen.toNat ≤ Config.lenMax
  put_le : e.phase = .encode ∨ e.phase = .done → e.putCnt.toNat ≤ e.encLen.toNat
  packer : e.packer.Inv
  code_len_le : ∀ s, e.codeLen.get s ≤ Config.maxCodeLen
  code_pat_lt : ∀ s, (e.codePat.get s).toNat < 2 ^ e.codeLen.get s
  coded_iff : e.phase = .encode ∨ e.phase = .done → ∀ s, e.codeLen.get s = 0 ↔ e.freq.get s = 0
  uncoded : e.phase = .count → ∀ s, e.codeLen.get s = 0
  err_iff : e.err = .none ↔ e.phase ≠ .error

/-- The decoder's invariants (10_state.md R42 to R45, R50; 41_decoder.md R172). -/
structure Dec.Inv (d : Dec) : Prop where
  store : d.store.Inv
  next_le : d.store.next ≤ 1 + 32 * d.entDone
  dpos_hdr : d.phase = .hdr → d.dpos < Config.hdrBytes
  dpos_table : d.phase = .table → d.dpos < Config.entryBytes
  fresh_hdr : d.phase = .hdr → d.entDone = 0 ∧ d.store = ⟨[], 1⟩
  entries : d.phase = .table ∨ d.phase = .payload ∨ d.phase = .done →
    d.entDone ≤ d.tcount.toNat ∧ d.tcount.toNat ≤ Config.maxEntries
  entries_left : d.phase = .table → d.entDone < d.tcount.toNat
  root_used : 0 < d.entDone → (d.store.node 0).kind ≠ .empty
  vbits_le : d.vbits ≤ 32
  win_low : d.win.toNat % 2 ^ (32 - d.vbits) = 0
  cur_used : d.phase = .payload → (d.store.node d.cur).kind ≠ .empty
  rem_le : d.rem.toNat ≤ Config.lenMax
  rem_payload : d.phase = .payload → 1 ≤ d.rem.toNat ∧ d.rem.toNat ≤ d.len.toNat
  rem_done : d.phase = .done → d.rem = 0
  len_nonneg : d.phase = .table ∨ d.phase = .payload ∨ d.phase = .done → 0 ≤ s64 d.len
  rem_before : d.phase = .hdr ∨ d.phase = .table → d.rem = 0
  err_iff : d.err = .none ↔ d.phase ≠ .error

/-- The invariant of the whole state: both engines', BUSY is 0 (10_state.md R27), and `cmd_cause` is NONE exactly while
`cmd_err` is 0 (R46, 60_exceptions.md R222). -/
structure State.Inv (s : State) : Prop where
  enc : s.enc.Inv
  dec : s.dec.Inv
  busy : s.busy = false
  cause_iff : s.cmdCause = .none ↔ s.cmdErr = false

end Sys2Proof.Machine
end

