-- ==== Sys2Proof/Certificates/Slice0/Obligations.lean ====
section
/-! DEFINITION. The statements for the provers: one `def Obligations.<Name> : Prop` each, stating the numbered rules of
spec/ about this machine. -/

open Sys2Proof Sys2Proof.Machine

/-! ### The command word -/

/-- 30_encoding.md R84: which words are which command, by match and mask, and which engine's opcodes they are. -/
def Obligations.OpcodeMapDecodes : Prop :=
  (∀ i : Instr, (isEncCommand i = true ↔ 0x10 ≤ (encode i).toNat >>> 24 ∧ (encode i).toNat >>> 24 ≤ 0x14) ∧
    (isDecCommand i = true ↔ 0x20 ≤ (encode i).toNat >>> 24 ∧ (encode i).toNat >>> 24 ≤ 0x23)) ∧
  ∀ w : Word,
    (decode w = .ok .nop ↔ w &&& 0xFFFFFFFF#32 = 0x00000000#32) ∧
    (decode w = .ok .clrerr ↔ w &&& 0xFFFFFFFF#32 = 0x01000000#32) ∧
    (decode w = .ok .encInit ↔ w &&& 0xFFFFFFFF#32 = 0x10000000#32) ∧
    (∀ b, decode w = .ok (.encCount b) ↔ w &&& 0xFFFFFF00#32 = 0x11000000#32 ∧ w.extractLsb' 0 8 = b) ∧
    (decode w = .ok .encBuild ↔ w &&& 0xFFFFFFFF#32 = 0x12000000#32) ∧
    (∀ b, decode w = .ok (.encPut b) ↔ w &&& 0xFFFFFF00#32 = 0x13000000#32 ∧ w.extractLsb' 0 8 = b) ∧
    (decode w = .ok .encFinish ↔ w &&& 0xFFFFFFFF#32 = 0x14000000#32) ∧
    (decode w = .ok .decInit ↔ w &&& 0xFFFFFFFF#32 = 0x20000000#32) ∧
    (∀ b, decode w = .ok (.decPut b) ↔ w &&& 0xFFFFFF00#32 = 0x21000000#32 ∧ w.extractLsb' 0 8 = b) ∧
    (decode w = .ok .decNext ↔ w &&& 0xFFFFFFFF#32 = 0x22000000#32) ∧
    (decode w = .ok .decEnd ↔ w &&& 0xFFFFFFFF#32 = 0x23000000#32)

/-- The three conditions of 30_encoding.md R82 on a word, in the rule's own terms. -/
def legalByR82 (w : Word) : Prop :=
  w.extractLsb' 24 8 ∈ [0x00#8, 0x01#8, 0x10#8, 0x11#8, 0x12#8, 0x13#8, 0x14#8, 0x20#8, 0x21#8, 0x22#8, 0x23#8] ∧
  w.extractLsb' 8 16 = 0#16 ∧
  (w.extractLsb' 24 8 ∉ [0x11#8, 0x13#8, 0x21#8] → w.extractLsb' 0 8 = 0#8)

/-- 30_encoding.md R82: the legal words are those that meet the three conditions. -/
def Obligations.LegalWordsAreTheOnesThatDecode : Prop :=
  ∀ w : Word, (∃ i, decode w = .ok i) ↔ legalByR82 w

/-- Every command is well-formed, and decoding and encoding are inverse to each other in both directions (30_encoding.md R80,
R84, R86). -/
def Obligations.DecodeAndEncodeAgree : Prop :=
  (∀ i : Instr, i.wellFormed = true) ∧ ∀ (i : Instr) (w : Word), decode w = .ok i ↔ encode i = w

/-- The words the spec writes out (30_encoding.md R84, R86; 95_test_vectors.md), decoded. -/
def Obligations.WrittenOutWordsDecode : Prop :=
  decode 0x00000000#32 = .ok .nop ∧ decode 0x01000000#32 = .ok .clrerr ∧ decode 0x10000000#32 = .ok .encInit ∧
  decode 0x11000061#32 = .ok (.encCount 0x61) ∧ decode 0x110000FF#32 = .ok (.encCount 0xFF) ∧
  decode 0x12000000#32 = .ok .encBuild ∧ decode 0x13000041#32 = .ok (.encPut 0x41) ∧
  decode 0x14000000#32 = .ok .encFinish ∧ decode 0x20000000#32 = .ok .decInit ∧
  decode 0x2100000E#32 = .ok (.decPut 0x0E) ∧ decode 0x22000000#32 = .ok .decNext ∧ decode 0x23000000#32 = .ok .decEnd ∧
  decode 0xFF000000#32 = .error .unlistedOpcode ∧ decode 0x11000100#32 = .error .reservedBitsSet ∧
  decode 0x10000001#32 = .error .dataNotZero

/-- A byte as a decimal literal. -/
def decimalText (b : Byte) : List Char :=
  if b.toNat < 10 then [Nat.digitChar b.toNat]
  else if b.toNat < 100 then [Nat.digitChar (b.toNat / 10), Nat.digitChar (b.toNat % 10)]
  else [Nat.digitChar (b.toNat / 100), Nat.digitChar (b.toNat / 10 % 10), Nat.digitChar (b.toNat % 10)]

/-- A hexadecimal digit as 30_encoding.md R86 writes it, its letters in upper case (`0xFF`, `DEC_PUT 0x0E`). -/
def upperHexDigit (n : Nat) : Char :=
  Char.ofNat (if n < 10 then 48 + n else 55 + n)

/-- A byte as a hexadecimal literal in R86's spelling. -/
def hexText (b : Byte) : List Char :=
  ['0', 'x', upperHexDigit (b.toNat / 16), upperHexDigit (b.toNat % 16)]

/-- Both spellings of a hexadecimal digit; the lower-case one is the model's choice (log 14). -/
def hexDigitSpellings (n : Nat) : List Char :=
  [upperHexDigit n, Nat.digitChar n]

/-- 30_encoding.md R86: the three forms of a byte operand, and the two assembly errors. That a character literal stands for
its ASCII code is the spec's G1. The model's own choices (log 14) are that the hexadecimal form has two digits, that each of
them may also be a lower-case letter (the clause over hexDigitSpellings), and that the operand is all that stands after the
first space. -/
def Obligations.AssemblerTakesTheThreeOperandForms : Prop :=
  (∀ name mk, (name, mk) ∈ [("ENC_COUNT", Instr.encCount), ("ENC_PUT", Instr.encPut), ("DEC_PUT", Instr.decPut)] →
    (∀ b : Byte, assemble (name.toList ++ ' ' :: decimalText b) = .ok (encode (mk b))) ∧
    (∀ b : Byte, assemble (name.toList ++ ' ' :: hexText b) = .ok (encode (mk b))) ∧
    (∀ b : Byte, ∀ h ∈ hexDigitSpellings (b.toNat / 16), ∀ l ∈ hexDigitSpellings (b.toNat % 16),
      assemble (name.toList ++ [' ', '0', 'x', h, l]) = .ok (encode (mk b))) ∧
    (∀ c : Char, c.toNat < 128 →
      assemble (name.toList ++ [' ', '\'', c, '\'']) = .ok (encode (mk (BitVec.ofNat 8 c.toNat)))) ∧
    assemble name.toList = .error .operandMissing) ∧
  (∀ name i, (name, i) ∈ [("NOP", Instr.nop), ("CLRERR", Instr.clrerr), ("ENC_INIT", Instr.encInit),
      ("ENC_BUILD", Instr.encBuild), ("ENC_FINISH", Instr.encFinish), ("DEC_INIT", Instr.decInit),
      ("DEC_NEXT", Instr.decNext), ("DEC_END", Instr.decEnd)] →
    assemble name.toList = .ok (encode i) ∧
    ∀ text, assemble (name.toList ++ ' ' :: text) = .error .operandNotAllowed)

/-! ### The step and the register window -/

/-- 42_control.md R210, on this model's step: a legal word written to CMD while BUSY is 0 runs its command on the state whose
pending operation has been taken; withFetchWord makes that the next step; with nothing pending nothing happens (log 1). -/
def Obligations.StepRunsTheDecodedCommand : Prop :=
  (∀ (s : State) (rest : List BusOp) (w : Word) (i : Instr),
    s.busy = false → s.pending = .write 0 4 w :: rest → decode w = .ok i →
      step s = exec i { s with pending := rest }) ∧
  (∀ (s : State) (nbits w : Nat) (i : Instr),
    decodeTableWord nbits w = some i → step (s.withFetchWord nbits w) = exec i { s with busy := false }) ∧
  ∀ s : State, s.pending = [] → step s = .next s

/-- 60_exceptions.md R222: a rejected word is dropped; the first cause is kept; the codes. -/
def Obligations.RejectedWordKeepsTheFirstCause : Prop :=
  (∀ (s : State) (rest : List BusOp) (w : Word), s.pending = .write 0 4 w :: rest →
    (s.busy = true →
      step s = .next { s with
        pending := rest, cmdErr := true, cmdCause := if s.cmdErr then s.cmdCause else .overrun }) ∧
    (s.busy = false → ¬ legalByR82 w →
      step s = .next { s with
        pending := rest, cmdErr := true, cmdCause := if s.cmdErr then s.cmdCause else .illegal })) ∧
  CmdCause.none.code = 0#2 ∧ CmdCause.illegal.code = 1#2 ∧ CmdCause.overrun.code = 2#2 ∧ ∀ c : CmdCause, c.code ≠ 3#2

/-- 30_encoding.md R83: an illegal word changes no engine and raises ILLEGAL; every reserved opcode is illegal. -/
def Obligations.IllegalWordIsRejectedWhole : Prop :=
  (∀ (s : State) (rest : List BusOp) (w : Word), s.busy = false → s.pending = .write 0 4 w :: rest → ¬ legalByR82 w →
    ∃ t, step s = .next t ∧ t.enc = s.enc ∧ t.dec = s.dec ∧ t.cmdErr = true ∧
      (s.cmdErr = false → t.cmdCause = .illegal)) ∧
  ∀ w : Word,
    (0x02 ≤ (w.extractLsb' 24 8).toNat ∧ (w.extractLsb' 24 8).toNat ≤ 0x0F ∨
      0x15 ≤ (w.extractLsb' 24 8).toNat ∧ (w.extractLsb' 24 8).toNat ≤ 0x1F ∨
      0x24 ≤ (w.extractLsb' 24 8).toNat) → ¬ legalByR82 w

/-- 10_state.md R28 to R31: the count registers read the halves of the four 64-bit counters, and change nothing else. The
value read stands in the model's record of the host's reads (log 6). -/
def Obligations.CountRegistersReadTheCounters : Prop :=
  ∀ (s : State) (rest : List BusOp) (off : Int) (v : Word), s.busy = false → s.pending = .read off 4 :: rest →
    (off, v) ∈ [((0x08 : Int), s.enc.encLen.extractLsb' 0 32), (0x0C, s.enc.encLen.extractLsb' 32 32),
      (0x10, s.enc.putCnt.extractLsb' 0 32), (0x14, s.enc.putCnt.extractLsb' 32 32),
      (0x18, s.dec.len.extractLsb' 0 32), (0x1C, s.dec.len.extractLsb' 32 32),
      (0x20, s.dec.rem.extractLsb' 0 32), (0x24, s.dec.rem.extractLsb' 32 32)] →
    step s = .next { s with pending := rest, hostReads := s.hostReads ++ [v] }

/-- 10_state.md R32, R33: a read of a FIFO's register returns the oldest byte with bit 8 set and removes it, or 0; a write is
ignored. -/
def Obligations.FifoReadPopsTheOldestByte : Prop :=
  ∀ (s : State) (rest : List BusOp),
    (s.pending = .read 0x28 4 :: rest →
      (∀ b bs, s.enc.out = b :: bs → ∃ t w, step s = .next t ∧
        t = { s with pending := rest, enc := { s.enc with out := bs }, hostReads := s.hostReads ++ [w] } ∧
        w.extractLsb' 0 8 = b ∧ w.getLsbD 8 = true ∧ w.extractLsb' 9 23 = 0#23) ∧
      (s.enc.out = [] → step s = .next { s with pending := rest, hostReads := s.hostReads ++ [0#32] })) ∧
    (s.pending = .read 0x2C 4 :: rest →
      (∀ b bs, s.dec.out = b :: bs → ∃ t w, step s = .next t ∧
        t = { s with pending := rest, dec := { s.dec with out := bs }, hostReads := s.hostReads ++ [w] } ∧
        w.extractLsb' 0 8 = b ∧ w.getLsbD 8 = true ∧ w.extractLsb' 9 23 = 0#23) ∧
      (s.dec.out = [] → step s = .next { s with pending := rest, hostReads := s.hostReads ++ [0#32] })) ∧
    ∀ off v, off = 0x28 ∨ off = 0x2C → s.pending = .write off 4 v :: rest → step s = .next { s with pending := rest }

/-- 10_state.md R35, with R24 and R34: writes to every register but CMD are ignored; the reserved offsets and CMD read 0, ID
reads its constant. -/
def Obligations.IgnoredWritesAndConstantReads : Prop :=
  (∀ (s : State) (rest : List BusOp) (off : Int) (v : Word), 0 < off → off < 0x40 → off % 4 = 0 →
    s.pending = .write off 4 v :: rest → step s = .next { s with pending := rest }) ∧
  ∀ (s : State) (rest : List BusOp) (off : Int) (v : Word),
    (off, v) ∈ [((0x00 : Int), 0#32), (0x30, 0x48554646#32), (0x34, 0#32), (0x38, 0#32), (0x3C, 0#32)] →
    s.pending = .read off 4 :: rest → step s = .next { s with pending := rest, hostReads := s.hostReads ++ [v] }

/-- The numbers STATUS shows: the phases (10_state.md R25, R41, R45) and the error codes (60_exceptions.md R223, R224), with
the values that are never produced. -/
def statusCodesAsListed : Prop :=
  (EncPhase.count.code = 0#2 ∧ EncPhase.encode.code = 1#2 ∧ EncPhase.done.code = 2#2 ∧ EncPhase.error.code = 3#2) ∧
  (DecPhase.hdr.code = 0#3 ∧ DecPhase.table.code = 1#3 ∧ DecPhase.payload.code = 2#3 ∧ DecPhase.done.code = 3#3 ∧
    DecPhase.error.code = 4#3 ∧ ∀ p : DecPhase, p.code ∉ [5#3, 6#3, 7#3]) ∧
  (EncErr.none.code = 0#4 ∧ EncErr.seq.code = 1#4 ∧ EncErr.passMismatch.code = 2#4 ∧ EncErr.codeTooLong.code = 3#4 ∧
    EncErr.lengthOverflow.code = 4#4 ∧ ∀ e : EncErr, e.code.toNat < 5) ∧
  (DecErr.none.code = 0#4 ∧ DecErr.seq.code = 1#4 ∧ DecErr.badLength.code = 2#4 ∧ DecErr.badCount.code = 3#4 ∧
    DecErr.codeLen.code = 4#4 ∧ DecErr.treeConflict.code = 5#4 ∧ DecErr.emptyTable.code = 6#4 ∧
    DecErr.truncated.code = 7#4 ∧ DecErr.invalidPath.code = 8#4 ∧ DecErr.inOverrun.code = 9#4 ∧
    ∀ e : DecErr, e.code.toNat < 10)

/-- 10_state.md R25: a read of STATUS while BUSY is 0 returns, bit by bit, the fields of the table, and changes nothing; the
phases and error codes are shown as the spec numbers them. (CMD_CAUSE's numbers are in RejectedWordKeepsTheFirstCause.) -/
def Obligations.StatusShowsTheFields : Prop :=
  statusCodesAsListed ∧
  ∀ (s : State) (rest : List BusOp), s.busy = false → s.pending = .read 0x04 4 :: rest →
    ∃ w : Word, step s = .next { s with pending := rest, hostReads := s.hostReads ++ [w] } ∧
      w.getLsbD 0 = false ∧ w.getLsbD 1 = s.cmdErr ∧ w.extractLsb' 2 2 = s.cmdCause.code ∧
      w.extractLsb' 4 2 = s.enc.phase.code ∧ w.extractLsb' 6 2 = 0#2 ∧ w.extractLsb' 8 4 = s.enc.err.code ∧
      w.extractLsb' 12 3 = s.dec.phase.code ∧ w.getLsbD 15 = false ∧ w.extractLsb' 16 4 = s.dec.err.code ∧
      w.getLsbD 20 = s.dec.needIn ∧ w.getLsbD 21 = s.dec.inRoom ∧ w.getLsbD 22 = s.dec.inEnd ∧
      (w.getLsbD 23 = true ↔ s.enc.out ≠ []) ∧ (w.getLsbD 24 = true ↔ s.dec.out ≠ []) ∧ w.extractLsb' 25 7 = 0#7

/-- 10_state.md R26 and 41_decoder.md R175: DEC_IN_ROOM holds in exactly the three cases R26 lists, and exactly when the
decoder is not in ERROR and a DEC_PUT raises neither SEQ nor IN_OVERRUN (log 11). -/
def Obligations.InRoomForetellsDecPut : Prop :=
  ∀ (s : State),
    (s.dec.inRoom = true ↔
      (s.dec.phase = .hdr ∨ s.dec.phase = .table) ∨
      (s.dec.phase = .payload ∧ s.dec.inEnd = false ∧ s.dec.vbits ≤ 24) ∨
      (s.dec.phase = .done ∧ s.dec.inEnd = false)) ∧
    (s.dec.Inv → ∀ b, s.dec.inRoom = true ↔
      s.dec.phase ≠ .error ∧ ∀ t, exec (.decPut b) s = .next t → t.dec.err ≠ .seq ∧ t.dec.err ≠ .inOverrun)

/-- 20_memory.md R62: an access that is not 32 bits wide, at a multiple of 4 from BASE and inside the window is refused, by name;
any other access is not; and an access named by its address on the bus is one at its offset from BASE. -/
def Obligations.OnlyAlignedWordAccessesHaveMeaning : Prop :=
  (∀ (s : State) (rest : List BusOp) (off : Int) (size : Nat) (v : Word),
    s.pending = .read off size :: rest ∨ s.pending = .write off size v :: rest →
      (size ≠ 4 → step s = .refused .accessWidth) ∧
      (size = 4 → (off < 0 ∨ 0x40 ≤ off) → step s = .refused .accessOutsideWindow) ∧
      (size = 4 → 0 ≤ off → off < 0x40 → off % 4 ≠ 0 → step s = .refused .accessMisaligned) ∧
      (size = 4 → 0 ≤ off → off < 0x40 → off % 4 = 0 → ∀ r, step s ≠ .refused r)) ∧
  ∀ (n size : Nat) (v : Word),
    BusOp.memRead (Config.base + n) size = .read n size ∧ BusOp.memWrite (Config.base + n) size v = .write n size v

/-- Reads while BUSY is 1 (70_reset_and_hazards.md R254, 20_memory.md R69), which no run of this model reaches (log 4): STATUS
shows BUSY = 1 and its reserved bits 0 whatever the free value is; the block is unchanged; a FIFO's read pops as ever. -/
def Obligations.ReadsWhileBusyShowBusy : Prop :=
  ∀ (s : State) (rest : List BusOp), s.busy = true →
    (s.pending = .read 0x04 4 :: rest → ∃ t w, step s = .next t ∧ t.hostReads = s.hostReads ++ [w] ∧
      w.getLsbD 0 = true ∧ w.extractLsb' 6 2 = 0#2 ∧ w.getLsbD 15 = false ∧ w.extractLsb' 25 7 = 0#7 ∧
      t.enc = s.enc ∧ t.dec = s.dec ∧ t.busy = true ∧ t.cmdErr = s.cmdErr ∧ t.cmdCause = s.cmdCause) ∧
    (∀ b bs, s.enc.out = b :: bs → s.pending = .read 0x28 4 :: rest → ∃ w, step s = .next { s with
      pending := rest, enc := { s.enc with out := bs }, hostReads := s.hostReads ++ [w] } ∧
      w.getLsbD 8 = true ∧ w.extractLsb' 0 8 = b)

/-- 70_reset_and_hazards.md R251 and the reset column of 10_state.md: what the host reads right after reset, and the hidden
tables. -/
def Obligations.ResetLeavesTheStatedValues : Prop :=
  (∀ (off : Int) (v : Word),
    (off, v) ∈ [((0x00 : Int), 0#32), (0x04, 0x00200000#32), (0x08, 0#32), (0x0C, 0#32), (0x10, 0#32), (0x14, 0#32),
      (0x18, 0#32), (0x1C, 0#32), (0x20, 0#32), (0x24, 0#32), (0x28, 0#32), (0x2C, 0#32), (0x30, 0x48554646#32),
      (0x34, 0#32), (0x38, 0#32), (0x3C, 0#32)] →
    step { State.reset with pending := [.read off 4] } = .next { State.reset with hostReads := [v] }) ∧
  (∀ b, State.reset.enc.freq.get b = 0 ∧ State.reset.enc.codePat.get b = 0 ∧ State.reset.enc.codeLen.get b = 0) ∧
  (∀ i, State.reset.dec.store.node i = ⟨.empty, none, none, 0⟩) ∧ State.reset.dec.store.next = 1

/-- 70_reset_and_hazards.md R250: reset gives every element of the block its reset value, and its effect is that of ENC_INIT,
DEC_INIT, CLRERR issued with BUSY = 0. The host's queue, its record and the number of draws are the model's own (log 13). -/
def Obligations.ResetEqualsTheInitCommands : Prop :=
  ∀ (s : State) (rest : List BusOp), s.pending = .reset :: rest →
    step s = .next { State.reset with pending := rest, hostReads := s.hostReads, draws := s.draws } ∧
    (s.busy = false → execAll [.encInit, .decInit, .clrerr] { s with pending := rest } = step s)

/-- 10_state.md R27: BUSY is 0 between steps. -/
def Obligations.BusyIsZeroBetweenSteps : Prop :=
  ∀ s t : State, s.busy = false → step s = .next t → t.busy = false ∧ t.statusWord.getLsbD 0 = false

/-! ### The block-level commands -/

/-- 42_control.md R211. -/
def Obligations.NopChangesNothing : Prop :=
  encode .nop = 0x00000000#32 ∧ (∀ s : State, exec .nop s = .next s) ∧ State.reset.statusWord = 0x00200000#32

/-- 42_control.md R212. -/
def Obligations.ClrerrClearsTheCommandError : Prop :=
  encode .clrerr = 0x01000000#32 ∧ (∀ s : State, exec .clrerr s = .next { s with cmdErr := false, cmdCause := .none }) ∧
  ∃ t, Host.Core.run Sys2Proof.core 2 { State.reset with pending := [.write 0 4 0xFF000000#32, .write 0 4 0x01000000#32] } =
    .next t ∧ t.statusWord = 0x00200000#32

/-! ### The encoder -/

/-- 40_encoder.md R111: ENC_INIT, in every phase, gives every element of the encoder its reset value and changes nothing
else. -/
def Obligations.EncInitResetsTheEncoder : Prop :=
  encode .encInit = 0x10000000#32 ∧ (∀ s : State, exec .encInit s = .next { s with enc := Enc.reset }) ∧
  (∀ b, Enc.reset.freq.get b = 0 ∧ Enc.reset.codePat.get b = 0 ∧ Enc.reset.codeLen.get b = 0) ∧
  Enc.reset.encLen = 0 ∧ Enc.reset.putCnt = 0 ∧ Enc.reset.acc = 0 ∧ Enc.reset.live = 0 ∧ Enc.reset.out = [] ∧
  Enc.reset.phase = .count ∧ Enc.reset.err = .none

/-- 40_encoder.md R112: ENC_COUNT b, in every phase. -/
def Obligations.EncCountCountsOneSymbol : Prop :=
  ∀ (s : State) (b : Byte),
    encode (.encCount b) = 0x11000000#32 ||| b.setWidth 32 ∧
    (s.enc.phase = .count → s.enc.encLen.toNat ≠ 2 ^ 63 - 1 →
      ∃ freq, exec (.encCount b) s =
          .next { s with enc := { s.enc with freq := freq, encLen := s.enc.encLen + 1 } } ∧
        (∀ c, c ≠ b → freq.get c = s.enc.freq.get c) ∧ freq.get b = s.enc.freq.get b + 1 ∧
        (s.enc.Inv → (freq.get b).toNat = (s.enc.freq.get b).toNat + 1)) ∧
    (s.enc.phase = .count → s.enc.encLen.toNat = 2 ^ 63 - 1 →
      exec (.encCount b) s = .next { s with enc := { s.enc with err := .lengthOverflow, phase := .error } }) ∧
    (s.enc.phase = .encode ∨ s.enc.phase = .done →
      exec (.encCount b) s = .next { s with enc := { s.enc with err := .seq, phase := .error } }) ∧
    (s.enc.phase = .error → exec (.encCount b) s = .next s)

/-- 40_encoder.md R110: the SEQ and "ignored" entries of the phase table. -/
def Obligations.EncoderPhaseTable : Prop :=
  ∀ (s : State) (i : Instr),
    ((∃ b, i = .encCount b) ∨ i = .encBuild → s.enc.phase = .encode ∨ s.enc.phase = .done →
      exec i s = .next { s with enc := { s.enc with err := .seq, phase := .error } }) ∧
    ((∃ b, i = .encPut b) ∨ i = .encFinish → s.enc.phase = .count ∨ s.enc.phase = .done →
      exec i s = .next { s with enc := { s.enc with err := .seq, phase := .error } }) ∧
    ((∃ b, i = .encCount b) ∨ i = .encBuild ∨ (∃ b, i = .encPut b) ∨ i = .encFinish → s.enc.phase = .error →
      exec i s = .next s)

/-- 40_encoder.md R113: what counting a byte sequence from ENC_INIT or from reset leaves. -/
def Obligations.CountingGivesOccurrences : Prop :=
  ∀ (x : List Byte) (s : State), x.length ≤ 2 ^ 63 - 1 →
    ∀ is, is = .encInit :: encCounts x ∨ (s.enc = Enc.reset ∧ is = encCounts x) →
      ∃ freq len, execAll is s = .next { s with enc := { Enc.reset with freq := freq, encLen := len } } ∧
        (∀ c, (freq.get c).toNat = x.count c) ∧ len.toNat = x.length ∧ ∀ c, c ∈ presentSymbols freq ↔ c ∈ x

/-- 30_encoding.md R94: the stream of the empty input is twelve 0x00 bytes. -/
def Obligations.EmptyInputGivesTwelveZeroBytes : Prop :=
  ∀ s : State, s.enc.phase = .count → s.enc.encLen = 0 →
    exec .encBuild s = .next { s with enc := { s.enc with
      out := s.enc.out ++ List.replicate 12 0, putCnt := 0, acc := 0, live := 0, phase := .encode } } ∧
    execAll [.encBuild, .encFinish] s = .next { s with enc := { s.enc with
      out := s.enc.out ++ (leBytes 8 0 ++ leBytes 4 0), putCnt := 0, acc := 0, live := 0, phase := .done } }

/-- 40_encoder.md R114: ENC_BUILD with at least one symbol counted. A state with a non-zero length and no symbol breaks an
invariant and is not in this statement's hypotheses (log 7). -/
def Obligations.EncBuildWritesCodesAndHeader : Prop :=
  ∀ s : State, s.enc.phase = .count → s.enc.encLen ≠ 0 → (∃ b, s.enc.freq.get b ≠ 0) →
    ∃ root, buildTree s.enc.freq = some root ∧
      ((∃ c ∈ genCodes root, 32 < c.len) →
        exec .encBuild s = .next { s with enc := { s.enc with err := .codeTooLong, phase := .error } }) ∧
      ((∀ c ∈ genCodes root, c.len ≤ 32) →
        ∃ pat len t, exec .encBuild s = .next t ∧
          t = { s with enc := { s.enc with
            codePat := pat, codeLen := len, out := s.enc.out ++ headerBytes t.enc,
            putCnt := 0, acc := 0, live := 0, phase := .encode } } ∧
          (∀ c ∈ genCodes root, (pat.get c.sym).toNat = c.pat ∧ len.get c.sym = c.len) ∧
          ∀ b, s.enc.freq.get b = 0 → pat.get b = 0 ∧ len.get b = 0)

/-- 40_encoder.md R123, 30_encoding.md R89 to R91: the layout of the header and of each table entry, and the table's
order. -/
def Obligations.HeaderAndTableLayout : Prop :=
  ∀ e : Enc, (∀ b, e.codeLen.get b ≤ 32) →
    (headerBytes e).length = 12 + 6 * (codedSymbols e).length ∧
    fromLE ((headerBytes e).take 8) = e.encLen.toNat ∧
    fromLE (((headerBytes e).drop 8).take 4) = (codedSymbols e).length ∧
    (codedSymbols e).length ≤ 256 ∧
    (codedSymbols e).Pairwise (fun a b => a.toNat < b.toNat) ∧
    (∀ b, b ∈ codedSymbols e ↔ 1 ≤ e.codeLen.get b) ∧
    ∀ (k : Nat) (b : Byte), (codedSymbols e)[k]? = some b →
      ∃ p : List Byte, ((headerBytes e).drop (12 + 6 * k)).take 6 = [b] ++ p ++ [BitVec.ofNat 8 (e.codeLen.get b)] ∧
        p.length = 4 ∧ fromLE p = (e.codePat.get b).toNat

/-- 40_encoder.md R118: BuildTree ends with a tree exactly when a symbol is present, and the tree's size and depth. -/
def Obligations.TreeSizeAndDepth : Prop :=
  ∀ freq : SymTab DWord,
    (presentSymbols freq = [] ↔ buildTree freq = none) ∧
    ∀ root, buildTree freq = some root →
      root.symbols.Perm (presentSymbols freq) ∧
      root.symbols.length = (presentSymbols freq).length ∧
      root.internals + 1 = (presentSymbols freq).length ∧
      root.symbols.length + root.internals ≤ 511 ∧
      root.depth + 1 ≤ (presentSymbols freq).length ∧ root.depth ≤ 255

/-- 40_encoder.md R119: weights add up in the tree ENC_BUILD builds, and the root weighs `enc_len`. -/
def Obligations.TreeWeightsAddUp : Prop :=
  ∀ (e : Enc) (root : HTree), buildTree e.freq = some root →
    root.WeightsAdd ∧ root.weight = totalCount e.freq ∧ (e.Inv → root.weight = e.encLen.toNat)

/-- 40_encoder.md R115: the initial list is the present symbols' leaves in ascending weight, equal weights in ascending symbol
order. -/
def Obligations.InitialListIsStablySorted : Prop :=
  ∀ freq : SymTab DWord, ∃ order : List Byte,
    initialList freq = order.map (fun b => HTree.leaf b (freq.get b).toNat) ∧
    order.Perm (presentSymbols freq) ∧
    order.Pairwise fun a b =>
      (freq.get a).toNat < (freq.get b).toNat ∨ ((freq.get a).toNat = (freq.get b).toNat ∧ a.toNat < b.toNat)

/-- 40_encoder.md R116, R117: one merge takes the front two nodes, the first as the one-branch, and puts the merged node after
every node of equal weight and before the first heavier one; when one node remains it is the root (R118); and the tree
ENC_BUILD uses is what this loop gives on the initial list. The bound on the rounds is the model's (log 15). -/
def Obligations.MergedNodeGoesAfterEqualWeights : Prop :=
  (∀ freq : SymTab DWord, buildTree freq = mergeLoop (initialList freq).length (initialList freq)) ∧
  (∀ (fuel : Nat) (t : HTree), mergeLoop fuel [t] = some t) ∧
  ∀ (fuel : Nat) (a b : HTree) (rest : List HTree),
    rest.Pairwise (fun u v => u.weight ≤ v.weight) →
    ∃ pre post, rest = pre ++ post ∧
      mergeLoop (fuel + 1) (a :: b :: rest) =
        mergeLoop fuel (pre ++ HTree.internal (a.weight + b.weight) a b :: post) ∧
      (∀ u ∈ pre, u.weight ≤ a.weight + b.weight) ∧ ∀ u ∈ post, a.weight + b.weight < u.weight

/-- 40_encoder.md R120, R121: after ENC_BUILD each present symbol's code is its root-to-leaf path, 1 for the one-branch, and a
sole symbol's code is the one bit 0. -/
def Obligations.CodesAreRootToLeafPaths : Prop :=
  ∀ (s t : State) (root : HTree), s.enc.phase = .count → s.enc.encLen ≠ 0 → buildTree s.enc.freq = some root →
    exec .encBuild s = .next t → t.enc.phase = .encode →
      (∀ b ∈ root.symbols, (t.enc.codePat.get b).toNat < 2 ^ t.enc.codeLen.get b) ∧
      (2 ≤ root.symbols.length → ∀ b ∈ root.symbols, root.follow (t.enc.code b) = some b) ∧
      (∀ b, root.symbols = [b] → t.enc.code b = [false] ∧ t.enc.codePat.get b = 0 ∧ t.enc.codeLen.get b = 1)

/-- 40_encoder.md R129: after a successful ENC_BUILD no present symbol's code begins another's. -/
def Obligations.CodesArePrefixFree : Prop :=
  ∀ (s t : State), s.enc.phase = .count → s.enc.encLen ≠ 0 → exec .encBuild s = .next t → t.enc.phase = .encode →
    ∀ a b : Byte, a ≠ b → s.enc.freq.get a ≠ 0 → s.enc.freq.get b ≠ 0 → ¬ t.enc.code a <+: t.enc.code b

/-- 10_state.md R38: after a successful ENC_BUILD exactly the present symbols have a code, each at most 32 bits and below
`2^code_len`; at reset no symbol has one. -/
def Obligations.ExactlyPresentSymbolsAreCoded : Prop :=
  (∀ s t : State, s.enc.Inv → s.enc.phase = .count → exec .encBuild s = .next t → t.enc.phase = .encode →
    ∀ b, (1 ≤ t.enc.codeLen.get b ↔ s.enc.freq.get b ≠ 0) ∧ t.enc.codeLen.get b ≤ 32 ∧
      (t.enc.codePat.get b).toNat < 2 ^ t.enc.codeLen.get b) ∧
  ∀ b, Enc.reset.codePat.get b = 0 ∧ Enc.reset.codeLen.get b = 0

/-- 40_encoder.md R124: Pack(p, n) appends the code's bits to the live ones, emits the highest live bits a byte at a time, and
only while the code would push the live count above 32 and 8 bits are live. -/
def Obligations.PackAppendsTheCode : Prop :=
  (∀ (p : Packer) (code : Word) (n : Nat), p.Inv → 1 ≤ n → n ≤ 32 → code.toNat < 2 ^ n →
    payloadBits (p.pack code n).2 ++ (p.pack code n).1.bits = p.bits ++ bitsOf code.toNat n ∧
    (p.pack code n).1.Inv ∧
    (p.pack code n).2.length ≤ 4 ∧
    ((p.pack code n).1.live ≤ 32 ∨ (p.pack code n).1.live < n + 8) ∧
    ((p.pack code n).2 ≠ [] → 32 < (p.pack code n).1.live + 8)) ∧
  Packer.pack 1#32 32 ⟨0x1F#64, 5⟩ = (⟨0x1F00000001#64, 37⟩, [])

/-- 40_encoder.md R126: Flush emits every live bit, left-justified, with 0 bits to fill the last byte, and empties the
packer. -/
def Obligations.FlushEmitsTheRemainingBits : Prop :=
  ∀ p : Packer, p.Inv →
    p.flush.1 = ⟨0, 0⟩ ∧ payloadBits p.flush.2 = p.bits ++ padding p.live ∧
    p.flush.2.length = (p.live + 7) / 8 ∧ p.flush.2.length ≤ 5

/-- 40_encoder.md R125: ENC_PUT b, in every phase. -/
def Obligations.EncPutPacksTheCode : Prop :=
  ∀ (s : State) (b : Byte),
    encode (.encPut b) = 0x13000000#32 ||| b.setWidth 32 ∧
    (s.enc.phase = .encode → s.enc.codeLen.get b ≠ 0 → s.enc.putCnt ≠ s.enc.encLen →
      exec (.encPut b) s = .next { s with enc := { s.enc with
        acc := (Packer.pack (s.enc.codePat.get b) (s.enc.codeLen.get b) ⟨s.enc.acc, s.enc.live⟩).1.acc,
        live := (Packer.pack (s.enc.codePat.get b) (s.enc.codeLen.get b) ⟨s.enc.acc, s.enc.live⟩).1.live,
        out := s.enc.out ++ (Packer.pack (s.enc.codePat.get b) (s.enc.codeLen.get b) ⟨s.enc.acc, s.enc.live⟩).2,
        putCnt := s.enc.putCnt + 1 } }) ∧
    (s.enc.phase = .encode → s.enc.codeLen.get b = 0 ∨ s.enc.putCnt = s.enc.encLen →
      exec (.encPut b) s = .next { s with enc := { s.enc with err := .passMismatch, phase := .error } }) ∧
    (s.enc.phase = .count ∨ s.enc.phase = .done →
      exec (.encPut b) s = .next { s with enc := { s.enc with err := .seq, phase := .error } }) ∧
    (s.enc.phase = .error → exec (.encPut b) s = .next s)

/-- 40_encoder.md R127: ENC_FINISH, in every phase. -/
def Obligations.EncFinishFlushesAndEnds : Prop :=
  ∀ s : State,
    encode .encFinish = 0x14000000#32 ∧
    (s.enc.phase = .encode → s.enc.putCnt = s.enc.encLen →
      exec .encFinish s = .next { s with enc := { s.enc with
        acc := 0, live := 0, out := s.enc.out ++ (Packer.flush ⟨s.enc.acc, s.enc.live⟩).2, phase := .done } }) ∧
    (s.enc.phase = .encode → s.enc.putCnt ≠ s.enc.encLen →
      exec .encFinish s = .next { s with enc := { s.enc with err := .passMismatch, phase := .error } }) ∧
    (s.enc.phase = .count ∨ s.enc.phase = .done →
      exec .encFinish s = .next { s with enc := { s.enc with err := .seq, phase := .error } }) ∧
    (s.enc.phase = .error → exec .encFinish s = .next s)

/-- 40_encoder.md R128: the bytes pass 2 appends are the concatenated codes, filled up with 0 bits. -/
def Obligations.PackedOutputIsTheConcatenatedCodes : Prop :=
  ∀ (s : State) (xs : List Byte), s.enc.phase = .encode → s.enc.putCnt = 0 → s.enc.acc = 0 → s.enc.live = 0 →
    xs.length = s.enc.encLen.toNat →
    (∀ x ∈ xs, 1 ≤ s.enc.codeLen.get x ∧ s.enc.codeLen.get x ≤ 32 ∧
      (s.enc.codePat.get x).toNat < 2 ^ s.enc.codeLen.get x) →
    ∃ bytes, execAll (encPuts xs ++ [.encFinish]) s = .next { s with enc := { s.enc with
        putCnt := s.enc.encLen, acc := 0, live := 0, out := s.enc.out ++ bytes, phase := .done } } ∧
      payloadBits bytes = xs.flatMap s.enc.code ++ padding (xs.flatMap s.enc.code).length

/-! ### The decoder -/

/-- 41_decoder.md R161: DEC_INIT, in every phase, gives every element of the decoder its reset value and changes nothing
else. -/
def Obligations.DecInitResetsTheDecoder : Prop :=
  encode .decInit = 0x20000000#32 ∧ (∀ s : State, exec .decInit s = .next { s with dec := Dec.reset }) ∧
  (∀ i, Dec.reset.store.node i = ⟨.empty, none, none, 0⟩) ∧ Dec.reset.store.next = 1 ∧
  Dec.reset.dpos = 0 ∧ Dec.reset.len = 0 ∧ Dec.reset.tcount = 0 ∧ Dec.reset.entDone = 0 ∧ Dec.reset.eSym = 0 ∧
  Dec.reset.ePat = 0 ∧ Dec.reset.eLen = 0 ∧ Dec.reset.win = 0 ∧ Dec.reset.vbits = 0 ∧ Dec.reset.cur = 0 ∧
  Dec.reset.rem = 0 ∧ Dec.reset.needIn = false ∧ Dec.reset.inEnd = false ∧ Dec.reset.out = [] ∧
  Dec.reset.phase = .hdr ∧ Dec.reset.err = .none

/-- 41_decoder.md R160: the SEQ, TRUNCATED and "ignored" entries of the phase table. -/
def Obligations.DecoderPhaseTable : Prop :=
  ∀ s : State,
    (s.dec.phase = .hdr ∨ s.dec.phase = .table ∨ s.dec.phase = .done →
      exec .decNext s = .next { s with dec := { s.dec with err := .seq, phase := .error } }) ∧
    (s.dec.phase = .hdr ∨ s.dec.phase = .table →
      exec .decEnd s = .next { s with dec := { s.dec with err := .truncated, phase := .error } }) ∧
    (s.dec.phase = .error → exec .decNext s = .next s ∧ exec .decEnd s = .next s ∧ ∀ b, exec (.decPut b) s = .next s)

/-- 41_decoder.md R163, R164: a header byte that is not the twelfth, and the twelve bytes of a header with its checks in
order. -/
def Obligations.HeaderIsAssembledAndChecked : Prop :=
  (∀ (s : State) (b : Byte), s.dec.phase = .hdr → s.dec.dpos < 11 →
    ∃ t, exec (.decPut b) s = .next t ∧
      (s.dec.dpos < 8 → t = { s with dec := { s.dec with
        len := s.dec.len ||| b.setWidth 64 <<< (8 * s.dec.dpos), dpos := s.dec.dpos + 1 } }) ∧
      (8 ≤ s.dec.dpos → t = { s with dec := { s.dec with
        tcount := s.dec.tcount ||| b.setWidth 32 <<< (8 * (s.dec.dpos - 8)), dpos := s.dec.dpos + 1 } })) ∧
  ∀ (s : State) (bs : List Byte), s.dec.phase = .hdr → s.dec.dpos = 0 → s.dec.len = 0 → s.dec.tcount = 0 →
    bs.length = 12 →
    ∃ t len tcount, execAll (decPuts bs) s = .next t ∧
      len = BitVec.ofNat 64 (fromLE (bs.take 8)) ∧ tcount = BitVec.ofNat 32 (fromLE (bs.drop 8)) ∧
      (s64 len < 0 → t = { s with dec := { s.dec with
        len := len, tcount := tcount, dpos := 0, err := .badLength, phase := .error } }) ∧
      (0 ≤ s64 len → 256 < tcount.toNat → t = { s with dec := { s.dec with
        len := len, tcount := tcount, dpos := 0, err := .badCount, phase := .error } }) ∧
      (tcount.toNat = 0 → len = 0 → t = { s with dec := { s.dec with
        len := len, tcount := tcount, dpos := 0, phase := .done } }) ∧
      (0 < s64 len → tcount.toNat = 0 → t = { s with dec := { s.dec with
        len := len, tcount := tcount, dpos := 0, err := .emptyTable, phase := .error } }) ∧
      (0 ≤ s64 len → 1 ≤ tcount.toNat → tcount.toNat ≤ 256 → t = { s with dec := { s.dec with
        len := len, tcount := tcount, dpos := 0, entDone := 0, phase := .table } })

/-- 41_decoder.md R165, R171, R172: the six bytes of a table entry, InsertEntry on the entry they make, and what follows the last
entry. -/
def Obligations.TableEntryIsAssembledAndInserted : Prop :=
  ∀ (s : State) (sym b1 b2 b3 b4 n : Byte), s.dec.phase = .table → s.dec.dpos = 0 → s.dec.ePat = 0 →
    ∀ pat, pat = BitVec.ofNat 32 (fromLE [b1, b2, b3, b4]) →
    (∀ st, insertEntry sym pat n.toNat s.dec.store = .inserted st →
      (s.dec.entDone + 1 ≠ s.dec.tcount.toNat →
        execAll (decPuts [sym, b1, b2, b3, b4, n]) s = .next { s with dec := { s.dec with
          store := st, eSym := 0, ePat := 0, eLen := 0, entDone := s.dec.entDone + 1 } }) ∧
      (s.dec.entDone + 1 = s.dec.tcount.toNat → s.dec.len = 0 →
        execAll (decPuts [sym, b1, b2, b3, b4, n]) s = .next { s with dec := { s.dec with
          store := st, eSym := 0, ePat := 0, eLen := 0, entDone := s.dec.entDone + 1, phase := .done } }) ∧
      (s.dec.entDone + 1 = s.dec.tcount.toNat → s.dec.len ≠ 0 →
        execAll (decPuts [sym, b1, b2, b3, b4, n]) s = .next { s with dec := { s.dec with
          store := st, eSym := 0, ePat := 0, eLen := 0, entDone := s.dec.entDone + 1,
          rem := s.dec.len, cur := 0, win := 0, vbits := 0, needIn := false, phase := .payload } })) ∧
    (∀ code st, insertEntry sym pat n.toNat s.dec.store = .failed code st →
      execAll (decPuts [sym, b1, b2, b3, b4, n]) s = .next { s with dec := { s.dec with
        store := st, eSym := sym, ePat := pat, eLen := n, err := code, phase := .error } })

/-- 41_decoder.md R166: a length above 32 raises CODE_LEN before the tree changes; pattern bits above the length are
ignored. -/
def Obligations.OverlongEntryIsRejectedFirst : Prop :=
  (∀ (s : State) (n : Byte), s.dec.phase = .table → s.dec.dpos = 5 → 32 < n.toNat →
    exec (.decPut n) s = .next { s with dec := { s.dec with
      eLen := n, dpos := 0, err := .codeLen, phase := .error } }) ∧
  (∀ (sym : Byte) (pat pat' : Word) (n : Nat) (st : NodeStore), n ≤ 32 → pat.toNat % 2 ^ n = pat'.toNat % 2 ^ n →
    insertEntry sym pat n st = insertEntry sym pat' n st)

/-- 41_decoder.md R168: InsertEntry of a code of at most 32 bits fails in exactly the four cases, always with
TREE_CONFLICT. -/
def Obligations.TreeConflictsAreTheFourCases : Prop :=
  ∀ (sym : Byte) (pat : Word) (n : Nat) (st : NodeStore), st.Inv → n ≤ 32 → st.next + n ≤ 8193 →
    ((∃ st', insertEntry sym pat n st = .failed .treeConflict st') ↔
      (n = 0 ∧ (st.node 0).kind ≠ .empty) ∨
      (1 ≤ n ∧ (st.node 0).kind = .leaf) ∨
      (∃ k i, 1 ≤ k ∧ k < n ∧ st.descend 0 ((bitsOf pat.toNat n).take k) = some i ∧ (st.node i).kind = .leaf) ∨
      (1 ≤ n ∧ ∃ i, st.descend 0 (bitsOf pat.toNat n) = some i)) ∧
    ∀ code st', insertEntry sym pat n st = .failed code st' → code = .treeConflict

/-- 41_decoder.md R167: after a successful InsertEntry the code's bits lead from the root to the entry's leaf, every other bit
string leads to what it led to before, and the tree is still one. -/
def Obligations.InsertedCodeLeadsToItsLeaf : Prop :=
  ∀ (sym : Byte) (pat : Word) (n : Nat) (st st' : NodeStore), st.Inv → insertEntry sym pat n st = .inserted st' →
    n ≤ 32 ∧ st'.symbolAt (bitsOf pat.toNat n) = some sym ∧
    (∀ bits, bits ≠ bitsOf pat.toNat n → st'.symbolAt bits = st.symbolAt bits) ∧ st'.Inv

/-- 41_decoder.md R169: Alloc takes the next slot; an entry takes at most as many slots as its length; and in phase TABLE, under
the invariant, an entry always finds the slots it needs. -/
def Obligations.AllocTakesTheNextSlot : Prop :=
  (∀ (st : NodeStore) (kind : NodeKind) (sym : Byte), st.next < 8193 →
    ∃ i st', st.alloc kind sym = some (i, st') ∧ i.val = st.next ∧ st'.next = st.next + 1 ∧
      st'.node i = ⟨kind, none, none, sym⟩ ∧ ∀ j, j ≠ i → st'.node j = st.node j) ∧
  (∀ (sym : Byte) (pat : Word) (n : Nat) (st st' : NodeStore), st.Inv → insertEntry sym pat n st = .inserted st' →
    st'.next ≤ st.next + n) ∧
  ∀ d : Dec, d.Inv → d.phase = .table → d.store.next + 32 ≤ 8193

/-- 41_decoder.md R173, R174: DEC_PUT in PAYLOAD loads the byte just below the unconsumed bits; in DONE it is discarded; after
DEC_END both raise SEQ. -/
def Obligations.DecPutAfterTheTable : Prop :=
  ∀ (s : State) (b : Byte),
    (s.dec.phase = .payload → s.dec.inEnd = false → s.dec.vbits ≤ 24 →
      exec (.decPut b) s = .next { s with dec := { s.dec with
        win := s.dec.win ||| b.setWidth 32 <<< (24 - s.dec.vbits), vbits := s.dec.vbits + 8, needIn := false } }) ∧
    (s.dec.phase = .payload → s.dec.inEnd = false → 24 < s.dec.vbits →
      exec (.decPut b) s = .next { s with dec := { s.dec with err := .inOverrun, phase := .error } }) ∧
    (s.dec.phase = .done → s.dec.inEnd = false → exec (.decPut b) s = .next s) ∧
    (s.dec.phase = .payload ∨ s.dec.phase = .done → s.dec.inEnd = true →
      exec (.decPut b) s = .next { s with dec := { s.dec with err := .seq, phase := .error } })

/-- No node on the way from `cur` along the first `k` window bits, the last one included, is a leaf. -/
def noLeafWithin (d : Dec) (k : Nat) : Prop :=
  ∀ j i, j ≤ k → d.store.descend d.cur (windowBits d.win j) = some i → (d.store.node i).kind ≠ .leaf

/-- 41_decoder.md R176: DEC_NEXT in PAYLOAD, in its four ways: a leaf after `k` bits, out of bits before or after DEC_END, or
a branch that does not exist; in the other phases SEQ, or ignored. -/
def Obligations.DecNextDecodesOneSymbol : Prop :=
  ∀ s : State,
    encode .decNext = 0x22000000#32 ∧
    (s.dec.phase = .payload → s.dec.vbits ≤ 32 →
      (∀ k i, k ≤ s.dec.vbits → (∀ j < k, noLeafWithin s.dec j) →
        s.dec.store.descend s.dec.cur (windowBits s.dec.win k) = some i → (s.dec.store.node i).kind = .leaf →
        exec .decNext s = .next { s with dec := { s.dec with
          out := s.dec.out ++ [(s.dec.store.node i).sym], rem := s.dec.rem - 1, cur := 0, needIn := false,
          win := s.dec.win <<< k, vbits := s.dec.vbits - k,
          phase := if s.dec.rem - 1 = 0 then .done else .payload } }) ∧
      (∀ i, noLeafWithin s.dec s.dec.vbits →
        s.dec.store.descend s.dec.cur (windowBits s.dec.win s.dec.vbits) = some i →
        (s.dec.inEnd = false → exec .decNext s = .next { s with dec := { s.dec with
          win := s.dec.win <<< s.dec.vbits, vbits := 0, cur := i, needIn := true } }) ∧
        (s.dec.inEnd = true → exec .decNext s = .next { s with dec := { s.dec with
          win := s.dec.win <<< s.dec.vbits, vbits := 0, cur := i, err := .truncated, phase := .error } })) ∧
      (∀ k i, k < s.dec.vbits → noLeafWithin s.dec k →
        s.dec.store.descend s.dec.cur (windowBits s.dec.win k) = some i →
        (s.dec.store.node i).child (s.dec.win.getLsbD (31 - k)) = none →
        exec .decNext s = .next { s with dec := { s.dec with
          win := s.dec.win <<< (k + 1), vbits := s.dec.vbits - (k + 1), cur := i,
          err := .invalidPath, phase := .error } })) ∧
    (s.dec.phase = .hdr ∨ s.dec.phase = .table ∨ s.dec.phase = .done →
      exec .decNext s = .next { s with dec := { s.dec with err := .seq, phase := .error } }) ∧
    (s.dec.phase = .error → exec .decNext s = .next s)

/-- 41_decoder.md R178: DEC_END, in every phase. -/
def Obligations.DecEndEndsTheInputOnce : Prop :=
  ∀ s : State,
    encode .decEnd = 0x23000000#32 ∧
    (s.dec.phase = .payload ∨ s.dec.phase = .done → s.dec.inEnd = false →
      exec .decEnd s = .next { s with dec := { s.dec with inEnd := true } }) ∧
    (s.dec.phase = .payload ∨ s.dec.phase = .done → s.dec.inEnd = true →
      exec .decEnd s = .next { s with dec := { s.dec with err := .seq, phase := .error } }) ∧
    (s.dec.phase = .hdr ∨ s.dec.phase = .table →
      exec .decEnd s = .next { s with dec := { s.dec with err := .truncated, phase := .error } }) ∧
    (s.dec.phase = .error → exec .decEnd s = .next s)

/-- 41_decoder.md R182: one zero-length entry makes the root a leaf, and every DEC_NEXT then emits its symbol and consumes no
bit. -/
def Obligations.ZeroLengthEntryEmitsWithoutBits : Prop :=
  (∀ (sym : Byte) (pat : Word), ∃ st, insertEntry sym pat 0 ⟨[], 1⟩ = .inserted st ∧
    st.node 0 = ⟨.leaf, none, none, sym⟩ ∧ st.next = 1) ∧
  ∀ s : State, s.dec.phase = .payload → s.dec.cur = 0 → (s.dec.store.node 0).kind = .leaf →
    exec .decNext s = .next { s with dec := { s.dec with
      out := s.dec.out ++ [(s.dec.store.node 0).sym], rem := s.dec.rem - 1, needIn := false,
      phase := if s.dec.rem - 1 = 0 then .done else .payload } }

/-- 41_decoder.md R177, 20_memory.md R64: a load puts the byte's eight bits, MSB first, after the window's bits; and the first
window bit is the top bit. -/
def Obligations.WindowKeepsStreamOrder : Prop :=
  (∀ (d : Dec) (b : Byte), d.Inv → d.phase = .payload → d.inEnd = false → d.vbits ≤ 24 →
    ∃ d', d.put b = .ok d' ∧ d'.vbits = d.vbits + 8 ∧
      windowBits d'.win d'.vbits = windowBits d.win d.vbits ++ bitsOf b.toNat 8) ∧
  ∀ (win : Word) (k : Nat), k < 32 → windowBits win (k + 1) = win.getLsbD 31 :: windowBits (win <<< 1) k

/-! ### The whole machine -/

/-- 10_state.md R36 to R50: the invariants hold right after reset. -/
def Obligations.InvariantHoldsAtReset : Prop :=
  State.reset.Inv

/-- 10_state.md R50: every step keeps the invariants, from every state that has them. -/
def Obligations.EveryStepKeepsTheInvariant : Prop :=
  ∀ s t : State, s.Inv → step s = .next t → t.Inv

/-- 40_encoder.md R118 and 41_decoder.md R169: under the invariants the tree builder always has a symbol and the arena never
overflows, so no step faults. -/
def Obligations.InvariantRulesOutFaults : Prop :=
  ∀ s : State, s.Inv → s.NoFault

/-- 60_exceptions.md R235, 00_scope.md R11: each engine's state after a command sequence is what its own commands alone give it,
however the other engine's commands and the block's are interleaved with them. -/
def Obligations.EnginesAreIndependent : Prop :=
  ∀ (is : List Instr) (s t : State), execAll is s = .next t →
    (∃ u, execAll (is.filter isEncCommand) s = .next u ∧ u.enc = t.enc ∧ u.dec = s.dec) ∧
    (∃ u, execAll (is.filter isDecCommand) s = .next u ∧ u.dec = t.dec ∧ u.enc = s.enc)

/-- 60_exceptions.md R229, R230, R232: an engine in ERROR keeps its phase, its first code and all its state but the bytes the
host reads, until its INIT or reset; `cmd_err` and its cause stay until CLRERR or reset. -/
def Obligations.ErrorsStayUntilCleared : Prop :=
  ∀ s t : State, step s = .next t → s.pending.head? ≠ some .reset →
    (s.enc.phase = .error → (∀ w, s.pending.head? = some (.write 0 4 w) → decode w ≠ .ok .encInit) →
      t.enc = { s.enc with out := t.enc.out } ∧ t.enc.out <:+ s.enc.out) ∧
    (s.dec.phase = .error → (∀ w, s.pending.head? = some (.write 0 4 w) → decode w ≠ .ok .decInit) →
      t.dec = { s.dec with out := t.dec.out } ∧ t.dec.out <:+ s.dec.out) ∧
    (s.cmdErr = true → (∀ w, s.pending.head? = some (.write 0 4 w) → decode w ≠ .ok .clrerr) →
      t.cmdErr = true ∧ t.cmdCause = s.cmdCause)

/-- 60_exceptions.md R225, R228: an encoder command that raises an error has changed nothing but the phase and the code; a
decoder command that raises one has touched neither the encoder, the FIFOs nor the command error. -/
def Obligations.ErrorEntryChangesOnlyTheEngine : Prop :=
  ∀ (i : Instr) (s t : State), exec i s = .next t →
    (s.enc.phase ≠ .error → t.enc.phase = .error →
      t.enc.err ≠ .none ∧ t = { s with enc := { s.enc with err := t.enc.err, phase := .error } }) ∧
    (s.dec.phase ≠ .error → t.dec.phase = .error →
      (s.dec.Inv → t.dec.err ≠ .none) ∧ t.dec.out = s.dec.out ∧ t = { s with dec := t.dec })

/-- 10_state.md R47: engines only append to their FIFOs; a command other than an INIT removes no byte. -/
def Obligations.EnginesOnlyAppendOutput : Prop :=
  ∀ (i : Instr) (s t : State), exec i s = .next t →
    (i ≠ .encInit → s.enc.out <+: t.enc.out) ∧ (i ≠ .decInit → s.dec.out <+: t.dec.out)

/-- 41_decoder.md R181: for every input whose codes fit 32 bits, COMPRESS succeeds, DECOMPRESS of its output succeeds, and gives
the input back. The loop of DECOMPRESS has a bound on its rounds here, and some bound is enough (log 15). -/
def Obligations.DecompressReturnsWhatCompressTook : Prop :=
  ∀ (x : List Byte) (s : State), s.busy = false → x.length ≤ 2 ^ 63 - 1 →
    (∀ t, execAll (.encInit :: encCounts x ++ [.encBuild]) s = .next t → t.enc.err ≠ .codeTooLong) →
    ∃ f s', compress x s = .next (.success f, s') ∧
      ∃ fuel s'', decompress fuel f s' = .next (some (.success x), s'')
end

