-- ==== Sys2Proof/Laws/Arena.lean ====
section
/-! SUPPORT. The laws of the node arena: a read after a write, the canonical form kept by every write, and what Alloc
does. -/

namespace Sys2Proof.Machine

theorem Arena.get_insert_self (a : Arena) (i : NodeIdx) (n : Node) (h : ∀ e ∈ a, e.1 ≠ i) :
    (Arena.insert i n a).get i = n := by
  induction a with
  | nil => simp [Arena.insert, Arena.get]
  | cons e rest ih =>
    obtain ⟨j, m⟩ := e
    have hj : j ≠ i := h (j, m) (by simp)
    unfold Arena.insert
    split
    · simp [Arena.get]
    · simp only [Arena.get, hj, if_false]
      exact ih fun e he => h e (by simp [he])

theorem Arena.get_insert_of_ne (a : Arena) {i j : NodeIdx} (n : Node) (h : i ≠ j) :
    (Arena.insert i n a).get j = a.get j := by
  induction a with
  | nil => simp [Arena.insert, Arena.get, h]
  | cons e rest ih =>
    obtain ⟨k, m⟩ := e
    unfold Arena.insert
    split
    · simp [Arena.get, h]
    · simp only [Arena.get, ih]

theorem Arena.get_filter_of_ne (a : Arena) {i j : NodeIdx} (h : i ≠ j) :
    Arena.get (a.filter fun e => e.1 != i) j = a.get j := by
  induction a with
  | nil => rfl
  | cons e rest ih =>
    obtain ⟨k, m⟩ := e
    by_cases hk : k = i
    · subst hk
      simpa [Arena.get, h] using ih
    · simp [hk, Arena.get, ih]

theorem Arena.get_of_not_listed (a : Arena) (i : NodeIdx) (h : ∀ e ∈ a, e.1 ≠ i) : a.get i = Node.blank := by
  induction a with
  | nil => rfl
  | cons e rest ih =>
    obtain ⟨k, m⟩ := e
    have hk : k ≠ i := h (k, m) (by simp)
    simp only [Arena.get, hk, if_false]
    exact ih fun e he => h e (by simp [he])

/-- A read after a write: the written node at its index, every other node as before. -/
theorem Arena.get_set (a : Arena) (i j : NodeIdx) (n : Node) :
    (a.set i n).get j = if i = j then n else a.get j := by
  have hf : ∀ e ∈ a.filter (fun e => e.1 != i), e.1 ≠ i := by simp
  unfold Arena.set
  by_cases hij : i = j
  · subst hij
    by_cases hn : n = Node.blank
    · simp [hn, Arena.get_of_not_listed _ _ hf]
    · simp [hn, Arena.get_insert_self _ _ _ hf]
  · by_cases hn : n = Node.blank
    · simp [hn, hij, Arena.get_filter_of_ne]
    · simp [hn, hij, Arena.get_insert_of_ne, Arena.get_filter_of_ne]

/-- The canonical form as a proposition. -/
def Arena.Canonical (a : Arena) : Prop :=
  a.Pairwise (fun e f => e.1 < f.1) ∧ ∀ e ∈ a, e.2 ≠ Node.blank

theorem Arena.wf_cons (e : NodeIdx × Node) (a : Arena) :
    Arena.wf (e :: a) = ((a.head?.all fun f => decide (e.1 < f.1)) && (e.2 != Node.blank) && Arena.wf a) := by
  cases a with
  | nil => simp [Arena.wf]
  | cons f rest =>
    simp only [Arena.wf, List.tail_cons, List.zip_cons_cons, List.all_cons, List.head?_cons, Option.all_some]
    ac_rfl

theorem Arena.wf_iff (a : Arena) : a.wf = true ↔ a.Canonical := by
  induction a with
  | nil => simp [Arena.wf, Arena.Canonical]
  | cons e rest ih =>
    rw [Arena.wf_cons, Bool.and_eq_true, Bool.and_eq_true, ih]
    constructor
    · rintro ⟨⟨hhead, hne⟩, hp, hall⟩
      refine ⟨List.pairwise_cons.2 ⟨?_, hp⟩, ?_⟩
      · cases rest with
        | nil => simp
        | cons f rest =>
          have hef : e.1 < f.1 := by simpa using hhead
          intro g hg
          rcases List.mem_cons.1 hg with rfl | hg
          · exact hef
          · exact lt_trans hef ((List.pairwise_cons.1 hp).1 g hg)
      · intro f hf
        rcases List.mem_cons.1 hf with rfl | hf
        · simpa using hne
        · exact hall f hf
    · rintro ⟨hp, hall⟩
      obtain ⟨hlt, hp⟩ := List.pairwise_cons.1 hp
      refine ⟨⟨?_, by simpa using hall e (by simp)⟩, hp, fun f hf => hall f (by simp [hf])⟩
      cases rest with
      | nil => rfl
      | cons f rest => simpa using hlt f (by simp)

theorem Arena.mem_insert {a : Arena} {i : NodeIdx} {n : Node} {e : NodeIdx × Node} :
    e ∈ Arena.insert i n a ↔ e = (i, n) ∨ e ∈ a := by
  induction a with
  | nil => simp [Arena.insert]
  | cons f rest ih =>
    obtain ⟨j, m⟩ := f
    unfold Arena.insert
    split
    · simp
    · simp only [List.mem_cons, ih]
      tauto

theorem Arena.canonical_insert {a : Arena} {i : NodeIdx} {n : Node} (ha : a.Canonical) (hn : n ≠ Node.blank)
    (hi : ∀ e ∈ a, e.1 ≠ i) : (Arena.insert i n a).Canonical := by
  obtain ⟨hp, hall⟩ := ha
  refine ⟨?_, fun e he => ?_⟩
  · clear hall
    induction a with
    | nil => simp [Arena.insert]
    | cons f rest ih =>
      obtain ⟨j, m⟩ := f
      obtain ⟨hlt, hp'⟩ := List.pairwise_cons.1 hp
      have hji : j ≠ i := hi (j, m) (by simp)
      unfold Arena.insert
      split
      · rename_i hij
        refine List.pairwise_cons.2 ⟨fun g hg => ?_, hp⟩
        rcases List.mem_cons.1 hg with rfl | hg
        · exact hij
        · exact lt_trans hij (hlt g hg)
      · rename_i hij
        refine List.pairwise_cons.2 ⟨fun g hg => ?_, ih (fun e he => hi e (by simp [he])) hp'⟩
        rcases Arena.mem_insert.1 hg with rfl | hg
        · exact lt_of_le_of_ne (not_lt.1 hij) hji
        · exact hlt g hg
  · rcases Arena.mem_insert.1 he with rfl | he
    · exact hn
    · exact hall e he

/-- Every write keeps the canonical form. -/
theorem Arena.wf_set (a : Arena) (i : NodeIdx) (n : Node) (ha : a.wf = true) : (a.set i n).wf = true := by
  rw [Arena.wf_iff] at ha ⊢
  have hc : Arena.Canonical (a.filter fun e => e.1 != i) :=
    ⟨ha.1.sublist List.filter_sublist, fun e he => ha.2 e (List.mem_filter.1 he).1⟩
  unfold Arena.set
  by_cases hn : n = Node.blank
  · simpa [hn] using hc
  · simpa [hn] using Arena.canonical_insert hc hn (by simp)

/-- What a write lists: nothing but the written index and what was listed before. -/
theorem Arena.mem_set {a : Arena} {i : NodeIdx} {n : Node} {e : NodeIdx × Node} (h : e ∈ a.set i n) :
    e = (i, n) ∨ e ∈ a := by
  unfold Arena.set at h
  by_cases hn : n = Node.blank
  · simp only [hn, if_true] at h
    exact .inr (List.mem_filter.1 h).1
  · simp only [hn, if_false] at h
    rcases Arena.mem_insert.1 h with h | h
    · exact .inl h
    · exact .inr (List.mem_filter.1 h).1

theorem NodeStore.node_setNode (st : NodeStore) (i j : NodeIdx) (n : Node) :
    (st.setNode i n).node j = if i = j then n else st.node j :=
  Arena.get_set _ _ _ _

theorem NodeStore.setNode_nodes (st : NodeStore) (i : NodeIdx) (n : Node) :
    (st.setNode i n).nodes = Arena.set st.nodes i n := rfl

@[simp] theorem NodeStore.setNode_next (st : NodeStore) (i : NodeIdx) (n : Node) : (st.setNode i n).next = st.next := rfl

/-- Everything Alloc can do (41_decoder.md R169). -/
theorem NodeStore.alloc_some {st st' : NodeStore} {kind : NodeKind} {sym : Byte} {c : NodeIdx}
    (h : st.alloc kind sym = some (c, st')) :
    c.val = st.next ∧ st'.next = st.next + 1 ∧ st' = ⟨st.nodes.set c ⟨kind, none, none, sym⟩, st.next + 1⟩ := by
  unfold NodeStore.alloc at h
  split at h
  · simp only [Option.some.injEq, Prod.mk.injEq] at h
    obtain ⟨rfl, rfl⟩ := h
    exact ⟨rfl, rfl, rfl⟩
  · cases h

/-- Alloc fails only past the arena's end. -/
theorem NodeStore.alloc_none {st : NodeStore} {kind : NodeKind} {sym : Byte} (h : st.alloc kind sym = none) :
    Config.decNodes ≤ st.next := by
  unfold NodeStore.alloc at h
  split at h
  · cases h
  · rename_i hn
    exact not_lt.1 hn

@[simp] theorem Node.child_withChild (n : Node) (b b' : Bool) (c : NodeIdx) :
    (n.withChild b c).child b' = if b = b' then some c else n.child b' := by
  cases b <;> cases b' <;> simp [Node.withChild, Node.child]

@[simp] theorem Node.withChild_kind (n : Node) (b : Bool) (c : NodeIdx) : (n.withChild b c).kind = n.kind := by
  cases b <;> rfl

@[simp] theorem Node.withChild_sym (n : Node) (b : Bool) (c : NodeIdx) : (n.withChild b c).sym = n.sym := by
  cases b <;> rfl

@[simp] theorem Node.blank_child (b : Bool) : Node.blank.child b = none := by
  cases b <;> rfl

@[simp] theorem Node.blank_kind : Node.blank.kind = .empty := rfl

end Sys2Proof.Machine
end

