-- ==== Sys2Proof/Laws/Encoder.lean ====
section
/-! SUPPORT. ENC_BUILD cut into its parts (40_encoder.md R114), so that no proof unfolds the whole command. -/

namespace Sys2Proof.Machine

theorem exec_encBuild_of_ok {s : State} {e : Enc} (h : s.enc.build = .ok e) : exec .encBuild s = .next (s.withEnc e) := by
  simp only [exec, execEncBuild, h]

/-- With a tree, ENC_BUILD in phase COUNT goes on to the codes. -/
theorem Enc.build_of_tree {e : Enc} {root : HTree} (hp : e.phase = .count) (h0 : e.encLen ≠ 0)
    (ht : buildTree e.freq = some root) : e.build = .ok (e.buildFrom root) := by
  simp only [Enc.build, hp, Enc.buildTable, h0, if_false, ht]

/-- With codes of at most 32 bits, the table and the header are written and pass 2 begins. -/
theorem Enc.buildFrom_of_fits {e : Enc} {root : HTree} (h : ∀ c ∈ genCodes root, c.len ≤ Config.maxCodeLen) :
    e.buildFrom root = ((e.withCodes (genCodes root)).emit (headerBytes (e.withCodes (genCodes root)))).enterEncode := by
  have hany : ((genCodes root).any fun c => decide (Config.maxCodeLen < c.len)) = false := by
    rw [List.any_eq_false]
    intro c hc
    simpa using h c hc
  simp only [Enc.buildFrom, hany]
  rfl

/-- With a longer code, CODE_TOO_LONG and nothing else (40_encoder.md R122). -/
theorem Enc.buildFrom_of_long {e : Enc} {root : HTree} (h : ∃ c ∈ genCodes root, Config.maxCodeLen < c.len) :
    e.buildFrom root = e.raise .codeTooLong := by
  have hany : ((genCodes root).any fun c => decide (Config.maxCodeLen < c.len)) = true := by
    rw [List.any_eq_true]
    obtain ⟨c, hc, hl⟩ := h
    exact ⟨c, hc, by simpa using hl⟩
  simp only [Enc.buildFrom, hany]
  rfl

end Sys2Proof.Machine
end

