-- ==== Sys2Proof/Laws/Packer.lean ====
section
/-! SUPPORT. Bit strings of numbers, and everything the packer's drain loop can do (40_encoder.md R124, R126). -/

namespace Sys2Proof.Machine

@[simp] theorem length_bitsOf (v n : Nat) : (bitsOf v n).length = n := by
  simp [bitsOf]

@[simp] theorem bitsOf_zero (v : Nat) : bitsOf v 0 = [] := rfl

theorem getElem_bitsOf (v n i : Nat) (h : i < (bitsOf v n).length) : (bitsOf v n)[i] = v.testBit (n - 1 - i) := by
  simp [bitsOf]

/-- The high `m` bits, then the low `n` bits. -/
theorem bitsOf_add (v m n : Nat) : bitsOf v (m + n) = bitsOf (v >>> n) m ++ bitsOf v n := by
  apply List.ext_getElem
  · simp
  · intro i h1 h2
    rw [getElem_bitsOf]
    by_cases him : i < m
    · rw [List.getElem_append_left (by simpa using him), getElem_bitsOf, Nat.testBit_shiftRight]
      congr 1
      omega
    · rw [List.getElem_append_right (by simpa using him), getElem_bitsOf]
      have hi : i < m + n := by simpa using h1
      congr 1
      simp only [length_bitsOf]
      omega

theorem bitsOf_congr {v w n : Nat} (h : ∀ i < n, v.testBit i = w.testBit i) : bitsOf v n = bitsOf w n := by
  apply List.ext_getElem
  · simp
  · intro i h1 h2
    have hi : i < n := by simpa using h1
    rw [getElem_bitsOf, getElem_bitsOf]
    exact h _ (by omega)

theorem bitsOf_mod (v n : Nat) : bitsOf (v % 2 ^ n) n = bitsOf v n :=
  bitsOf_congr fun i hi => by simp [Nat.testBit_mod_two_pow, hi]

@[simp] theorem payloadBits_nil : payloadBits [] = [] := rfl

@[simp] theorem payloadBits_cons (b : Byte) (bs : List Byte) : payloadBits (b :: bs) = bitsOf b.toNat 8 ++ payloadBits bs := rfl

theorem payloadBits_append (as bs : List Byte) : payloadBits (as ++ bs) = payloadBits as ++ payloadBits bs := by
  simp [payloadBits]

@[simp] theorem length_payloadBits (bs : List Byte) : (payloadBits bs).length = 8 * bs.length := by
  induction bs with
  | nil => rfl
  | cons b bs ih =>
    simp only [payloadBits_cons, List.length_append, length_bitsOf, ih, List.length_cons]
    omega

theorem Packer.dropByte_acc (p : Packer) : p.dropByte.acc.toNat = p.acc.toNat % 2 ^ (p.live - 8) := by
  have h : p.acc.toNat % 2 ^ (p.live - 8) ≤ p.acc.toNat := Nat.mod_le _ _
  have hlt := p.acc.isLt
  simp only [Packer.dropByte, BitVec.toNat_ofNat]
  exact Nat.mod_eq_of_lt (by omega)

/-- One round of the loop: the emitted byte, then the bits that stay, are the live bits. -/
theorem Packer.bits_dropByte (p : Packer) (h : 8 ≤ p.live) :
    bitsOf p.topByte.toNat 8 ++ p.dropByte.bits = p.bits := by
  have hlive : p.live = 8 + (p.live - 8) := by omega
  have htop : bitsOf p.topByte.toNat 8 = bitsOf (p.acc.toNat >>> (p.live - 8)) 8 := by
    rw [Packer.topByte, BitVec.toNat_setWidth, BitVec.toNat_ushiftRight]
    exact bitsOf_mod _ _
  have hdrop : p.dropByte.bits = bitsOf p.acc.toNat (p.live - 8) := by
    rw [Packer.bits, Packer.dropByte_acc]
    exact bitsOf_mod _ _
  rw [htop, hdrop, ← bitsOf_add, ← hlive]
  rfl

/-- Everything the drain loop can do, given enough rounds: the bytes emitted followed by the bits left are the live bits there
were; each byte takes 8 of them; and the loop stops where its test fails. -/
theorem Packer.drain_spec (more : Nat → Bool) (fuel : Nat) (p : Packer) (hacc : p.acc.toNat < 2 ^ p.live)
    (hfuel : p.live ≤ 8 * fuel + 7) :
    payloadBits (Packer.drain more fuel p).2 ++ (Packer.drain more fuel p).1.bits = p.bits ∧
    (Packer.drain more fuel p).1.acc.toNat < 2 ^ (Packer.drain more fuel p).1.live ∧
    (Packer.drain more fuel p).1.live + 8 * (Packer.drain more fuel p).2.length = p.live ∧
    (more (Packer.drain more fuel p).1.live = false ∨ (Packer.drain more fuel p).1.live < 8) := by
  induction fuel generalizing p with
  | zero => exact ⟨rfl, hacc, rfl, .inr (by simpa [Packer.drain] using by omega)⟩
  | succ fuel ih =>
    unfold Packer.drain
    by_cases h : (more p.live && decide (8 ≤ p.live)) = true
    · rw [if_pos h]
      rw [Bool.and_eq_true, decide_eq_true_eq] at h
      obtain ⟨-, h8⟩ := h
      have hlive : p.dropByte.live = p.live - 8 := rfl
      obtain ⟨h1, h2, h3, h4⟩ := ih p.dropByte
        (by rw [Packer.dropByte_acc, hlive]; exact Nat.mod_lt _ (by positivity)) (by omega)
      refine ⟨?_, h2, ?_, h4⟩
      · rw [payloadBits_cons, List.append_assoc, h1, Packer.bits_dropByte p h8]
      · simp only [List.length_cons]
        omega
    · rw [if_neg h]
      refine ⟨rfl, hacc, rfl, ?_⟩
      simp only [Bool.and_eq_true, decide_eq_true_eq, not_and, not_le] at h
      by_cases hm : more p.live = true
      · exact .inr (h hm)
      · exact .inl (by simpa using hm)

/-- Appending a code to the live bits (40_encoder.md R124). -/
theorem Packer.append_spec (code : Word) (n : Nat) (p : Packer) (hacc : p.acc.toNat < 2 ^ p.live)
    (hcode : code.toNat < 2 ^ n) (hfit : p.live + n ≤ 64) :
    (p.append code n).bits = p.bits ++ bitsOf code.toNat n ∧
    (p.append code n).acc.toNat < 2 ^ (p.append code n).live ∧ (p.append code n).live = p.live + n := by
  have hval : (p.append code n).acc.toNat = p.acc.toNat <<< n ||| code.toNat := by
    have hlt : p.acc.toNat <<< n < 2 ^ 64 := by
      rw [Nat.shiftLeft_eq]
      calc p.acc.toNat * 2 ^ n < 2 ^ p.live * 2 ^ n := Nat.mul_lt_mul_of_pos_right hacc (by positivity)
        _ = 2 ^ (p.live + n) := (Nat.pow_add _ _ _).symm
        _ ≤ 2 ^ 64 := Nat.pow_le_pow_right (by omega) hfit
    have hc := code.isLt
    simp only [Packer.append, BitVec.toNat_or, BitVec.toNat_shiftLeft, BitVec.toNat_setWidth]
    rw [Nat.mod_eq_of_lt hlt, Nat.mod_eq_of_lt (by omega)]
  refine ⟨?_, ?_, rfl⟩
  · rw [Packer.bits, hval]
    show bitsOf _ (p.live + n) = _
    rw [bitsOf_add]
    congr 1
    · refine bitsOf_congr fun i _ => ?_
      simp only [Nat.testBit_shiftRight, Nat.testBit_or, Nat.testBit_shiftLeft]
      have hz : code.toNat.testBit (n + i) = false :=
        Nat.testBit_lt_two_pow (lt_of_lt_of_le hcode (Nat.pow_le_pow_right (by omega) (by omega)))
      simp [hz]
    · refine bitsOf_congr fun i hi => ?_
      simp only [Nat.testBit_or, Nat.testBit_shiftLeft]
      have : ¬ n ≤ i := by omega
      simp [this]
  · rw [hval]
    show _ < 2 ^ (p.live + n)
    apply Nat.or_lt_two_pow
    · rw [Nat.shiftLeft_eq, Nat.pow_add]
      exact Nat.mul_lt_mul_of_pos_right hacc (by positivity)
    · exact lt_of_lt_of_le hcode (Nat.pow_le_pow_right (by omega) (by omega))

end Sys2Proof.Machine
end

