-- ==== Sys2Proof/Laws/PerInstr.lean ====
section
/-! SUPPORT. What holds of every command as syntax, one lemma per constructor: its format-C fields are legal (30_encoding.md
R82) and its word's reserved bits are 0 (R80). -/

namespace Sys2Proof.Laws

/-- The family LegalFields: the command is well-formed and its word carries its fields. -/
def LegalFields.Statement (i : Instr) : Prop :=
  i.wellFormed = true ∧ fieldsOf (encode i) = i.fields

theorem fieldsOf_toWord (f : CmdFields) : fieldsOf f.toWord = f := by
  obtain ⟨op, rsv, data⟩ := f
  simp only [fieldsOf, CmdFields.toWord, CmdFields.mk.injEq]
  refine ⟨?_, ?_, ?_⟩ <;>
  · apply BitVec.eq_of_getLsbD_eq
    intro i hi
    have h1 : ¬ 24 + i < 8 := by omega
    have h3 : 24 + i - 8 - 16 = i := by omega
    have h4 : ¬ 24 + i - 8 < 16 := by omega
    simp only [BitVec.getLsbD_extractLsb', BitVec.getLsbD_append]
    simp [hi, h1, h3, h4]

/-- The three checks pass on a command that takes a byte, whatever the byte. -/
theorem legal_of_takesByte (op : BitVec 8) (b : Byte) (hop : op = 0x11 ∨ op = 0x13 ∨ op = 0x21) :
    CmdFields.legal ⟨op, 0, b⟩ = true := by
  rcases hop with rfl | rfl | rfl <;>
    simp [CmdFields.legal, CmdFields.opListed, CmdFields.rsvZero, CmdFields.dataAllowed, opcodeMap]

theorem LegalFields.nop : LegalFields.Statement .nop := ⟨by decide, fieldsOf_toWord _⟩
theorem LegalFields.clrerr : LegalFields.Statement .clrerr := ⟨by decide, fieldsOf_toWord _⟩
theorem LegalFields.encInit : LegalFields.Statement .encInit := ⟨by decide, fieldsOf_toWord _⟩
theorem LegalFields.encCount (b : Byte) : LegalFields.Statement (.encCount b) := ⟨legal_of_takesByte _ b (by simp), fieldsOf_toWord _⟩
theorem LegalFields.encBuild : LegalFields.Statement .encBuild := ⟨by decide, fieldsOf_toWord _⟩
theorem LegalFields.encPut (b : Byte) : LegalFields.Statement (.encPut b) := ⟨legal_of_takesByte _ b (by simp), fieldsOf_toWord _⟩
theorem LegalFields.encFinish : LegalFields.Statement .encFinish := ⟨by decide, fieldsOf_toWord _⟩
theorem LegalFields.decInit : LegalFields.Statement .decInit := ⟨by decide, fieldsOf_toWord _⟩
theorem LegalFields.decPut (b : Byte) : LegalFields.Statement (.decPut b) := ⟨legal_of_takesByte _ b (by simp), fieldsOf_toWord _⟩
theorem LegalFields.decNext : LegalFields.Statement .decNext := ⟨by decide, fieldsOf_toWord _⟩
theorem LegalFields.decEnd : LegalFields.Statement .decEnd := ⟨by decide, fieldsOf_toWord _⟩

end Sys2Proof.Laws
end

