-- ==== Sys2Proof/Laws/Reconstructor.lean ====
section
/-! SUPPORT. What the tree reconstructor can do (41_decoder.md R167 to R169): one lemma for a linked new node, one for the
walk, one for InsertEntry. -/

namespace Sys2Proof.Machine

/-- The store after a new node is linked below `p` on the branch `bit`. -/
def NodeStore.linked (st : NodeStore) (p : NodeIdx) (bit : Bool) (c : NodeIdx) : NodeStore :=
  st.setNode p ((st.node p).withChild bit c)

theorem Arena.listed_of_get_ne_blank {a : Arena} {i : NodeIdx} (h : a.get i ≠ Node.blank) : ∃ e ∈ a, e.1 = i := by
  by_contra hn
  exact h (Arena.get_of_not_listed a i fun e he hi => hn ⟨e, he, hi⟩)

theorem NodeStore.Inv.lt_next {st : NodeStore} (hst : st.Inv) {i : NodeIdx} (h : (st.node i).kind ≠ .empty) :
    i.val < st.next := by
  obtain ⟨e, he, rfl⟩ := Arena.listed_of_get_ne_blank (a := st.nodes) (i := i) fun hb => h (by
    show (st.nodes.get i).kind = .empty
    rw [hb]
    rfl)
  exact hst.listed_lt e he

/-- The nodes after Alloc and the link. -/
theorem NodeStore.node_linked {st st' : NodeStore} {kind : NodeKind} {sym : Byte} {c p : NodeIdx} {bit : Bool}
    (ha : st.alloc kind sym = some (c, st')) (hp : p.val < st.next) (j : NodeIdx) :
    (st'.linked p bit c).node j =
      if p = j then (st.node p).withChild bit c else if c = j then ⟨kind, none, none, sym⟩ else st.node j := by
  obtain ⟨hc, -, rfl⟩ := NodeStore.alloc_some ha
  have hcp : c ≠ p := fun h => by subst h; omega
  have hnode : ∀ k, NodeStore.node ⟨st.nodes.set c ⟨kind, none, none, sym⟩, st.next + 1⟩ k =
      if c = k then ⟨kind, none, none, sym⟩ else st.node k := fun k => Arena.get_set _ _ _ _
  rw [NodeStore.linked, NodeStore.node_setNode, hnode, hnode, if_neg hcp]

@[simp] theorem NodeStore.linked_next (st : NodeStore) (p : NodeIdx) (bit : Bool) (c : NodeIdx) :
    (st.linked p bit c).next = st.next := rfl

/-- The arena of DEC_INIT (41_decoder.md R161) has the invariant. -/
theorem NodeStore.Inv.empty : NodeStore.Inv ⟨[], 1⟩ := by
  have hnode : ∀ i, NodeStore.node ⟨[], 1⟩ i = Node.blank := fun _ => rfl
  refine ⟨rfl, le_refl _, by simp [Config.decNodes], by simp, ?_, ?_, ?_, ?_⟩ <;> intros <;> simp_all

/-- A new node, linked below an internal node on a free branch, keeps the store's invariant. -/
theorem NodeStore.Inv.linked {st st' : NodeStore} (hst : st.Inv) {kind : NodeKind} {sym : Byte} {c p : NodeIdx} {bit : Bool}
    (ha : st.alloc kind sym = some (c, st')) (hp : (st.node p).kind = .internal) (hk : kind ≠ .empty) :
    (st'.linked p bit c).Inv := by
  have hpl : p.val < st.next := hst.lt_next (by simp [hp])
  have hnode := NodeStore.node_linked (bit := bit) ha hpl
  obtain ⟨hc, hnext, hst'⟩ := NodeStore.alloc_some ha
  have hcp : c ≠ p := fun h => by subst h; omega
  have hc0 := hst.next_pos
  refine ⟨?_, ?_, ?_, ?_, ?_, ?_, ?_, ?_⟩
  · subst hst'
    exact Arena.wf_set _ _ _ (Arena.wf_set _ _ _ hst.canonical)
  · simp [hnext]
  · have := c.isLt
    simp only [NodeStore.linked_next, hnext, Config.decNodes]
    omega
  · intro e he
    rw [NodeStore.linked_next, hnext]
    rcases Arena.mem_set he with rfl | he
    · exact Nat.lt_succ_of_lt hpl
    · subst hst'
      rcases Arena.mem_set he with rfl | he
      · show c.val < _
        omega
      · exact Nat.lt_succ_of_lt (hst.listed_lt e he)
  · intro i b d hd
    rw [NodeStore.linked_next, hnext]
    rw [hnode] at hd
    split at hd
    · rw [Node.child_withChild] at hd
      split at hd
      · cases hd
        rename_i hpi _
        subst hpi
        omega
      · rename_i hpi _
        subst hpi
        have := hst.child_lt _ _ _ hd
        omega
    · split at hd
      · cases b <;> simp [Node.child] at hd
      · have := hst.child_lt _ _ _ hd
        omega
  · have hchild : ∀ i b d, ((st'.linked p bit c).node i).child b = some d →
        (d = c ∧ i = p ∧ b = bit) ∨ (d ≠ c ∧ (st.node i).child b = some d) := by
      intro i b d hd
      have hold : ∀ i, (st.node i).child b = some d → d ≠ c := by
        intro i hd hdc
        have := hst.child_lt _ _ _ hd
        subst hdc
        omega
      rw [hnode] at hd
      split at hd
      · rename_i hpi
        subst hpi
        rw [Node.child_withChild] at hd
        split at hd
        · rename_i hb
          cases hd
          exact .inl ⟨rfl, rfl, hb.symm⟩
        · exact .inr ⟨hold _ hd, hd⟩
      · split at hd
        · cases b <;> simp [Node.child] at hd
        · exact .inr ⟨hold _ hd, hd⟩
    intro i j b b' d hi hj
    rcases hchild i b d hi with ⟨h1, h2, h3⟩ | ⟨h1, h2⟩ <;> rcases hchild j b' d hj with ⟨h1', h2', h3'⟩ | ⟨h1', h2'⟩
    · exact ⟨h2.trans h2'.symm, h3.trans h3'.symm⟩
    · exact absurd h1 h1'
    · exact absurd h1' h1
    · exact hst.one_parent _ _ _ _ _ h2 h2'
  · intro i b d hd
    rw [hnode] at hd
    have hold : ∀ j b, (st.node j).child b = some d → ((st'.linked p bit c).node d).kind ≠ .empty := by
      intro j b hd
      have hu := hst.child_used _ _ _ hd
      rw [hnode]
      split
      · simp [hp]
      · split
        · exact hk
        · exact hu
    split at hd
    · rw [Node.child_withChild] at hd
      split at hd
      · cases hd
        rw [hnode, if_neg hcp.symm, if_pos rfl]
        exact hk
      · exact hold _ _ hd
    · split at hd
      · cases b <;> simp [Node.child] at hd
      · exact hold _ _ hd
  · intro i b hi
    rw [hnode] at hi ⊢
    split
    · rename_i h
      simp [h] at hi
      simp [h ▸ hp] at hi
    · rename_i h
      rw [if_neg h] at hi
      split
      · cases b <;> rfl
      · rename_i h'
        rw [if_neg h'] at hi
        exact hst.only_internal _ _ hi

/-- From a node without children the walk meets no conflict. -/
theorem insertWalk_fresh (sym : Byte) (pat : Word) (i : Nat) (p : NodeIdx) (st : NodeStore)
    (hp : p.val < st.next) (hfree : ∀ b, (st.node p).child b = none) (code : DecErr) (st' : NodeStore) :
    insertWalk sym pat i p st ≠ .failed code st' := by
  induction i generalizing p st with
  | zero =>
    simp only [insertWalk, attachLeaf, hfree]
    split <;> simp
  | succ i ih =>
    simp only [insertWalk, hfree]
    split
    · simp
    · rename_i c st1 ha
      have hnode := NodeStore.node_linked (bit := patternBit pat (i + 1)) ha hp
      obtain ⟨hc, hnext, -⟩ := NodeStore.alloc_some ha
      have hpc : p ≠ c := fun h => by subst h; omega
      refine ih c (st1.linked p _ c) ?_ ?_
      · rw [NodeStore.linked_next]
        omega
      · intro b
        rw [hnode, if_neg hpc, if_pos rfl]
        cases b <;> rfl

/-- Everything the walk can do, from an internal node: the entry is in, and the store keeps its invariant and grows by at most
one node a bit; or TREE_CONFLICT with the store untouched; or the arena has too few free nodes. -/
theorem insertWalk_cases (sym : Byte) (pat : Word) (i : Nat) (p : NodeIdx) (st : NodeStore) (hst : st.Inv)
    (hp : (st.node p).kind = .internal) :
    (∃ st', insertWalk sym pat i p st = .inserted st' ∧ st'.Inv ∧ st.next ≤ st'.next ∧ st'.next ≤ st.next + i + 1 ∧
      ∀ j, (st.node j).kind ≠ .empty → (st'.node j).kind = (st.node j).kind) ∨
    insertWalk sym pat i p st = .failed .treeConflict st ∨
    (insertWalk sym pat i p st = .noSlot ∧ Config.decNodes < st.next + i + 1) := by
  induction i generalizing p st with
  | zero =>
    simp only [insertWalk, attachLeaf]
    split
    · exact .inr (.inl rfl)
    · split
      · rename_i ha
        exact .inr (.inr ⟨rfl, by have := NodeStore.alloc_none ha; omega⟩)
      · rename_i c st1 ha
        obtain ⟨hc, hnext, -⟩ := NodeStore.alloc_some ha
        have hpl := hst.lt_next (i := p) (by simp [hp])
        refine .inl ⟨_, rfl, hst.linked ha hp (by simp), ?_, ?_, fun j hj => ?_⟩
        · show st.next ≤ st1.next
          omega
        · show st1.next ≤ _
          omega
        · have hjl := hst.lt_next hj
          have hcj : c ≠ j := fun h => by subst h; omega
          refine (congrArg Node.kind (NodeStore.node_linked ha hpl j)).trans ?_
          split
          · rename_i h
            simp [h]
          · rfl
  | succ i ih =>
    simp only [insertWalk]
    split
    · split
      · rename_i ha
        exact .inr (.inr ⟨rfl, by have := NodeStore.alloc_none ha; omega⟩)
      · rename_i c st1 ha
        obtain ⟨hc, hnext, -⟩ := NodeStore.alloc_some ha
        have hpl := hst.lt_next (i := p) (by simp [hp])
        have hnode := NodeStore.node_linked (bit := patternBit pat (i + 1)) ha hpl
        have hpc : p ≠ c := fun h => by subst h; omega
        have hc2 : ((st1.linked p (patternBit pat (i + 1)) c).node c) = ⟨.internal, none, none, 0⟩ := by
          rw [hnode, if_neg hpc, if_pos rfl]
        have hinv := hst.linked (bit := patternBit pat (i + 1)) ha hp (by simp)
        have hcc : c.val < (st1.linked p (patternBit pat (i + 1)) c).next := by
          rw [NodeStore.linked_next]
          omega
        rcases ih c _ hinv (by rw [hc2]) with ⟨st', h1, h2, h3, h4, h5⟩ | h | ⟨h1, h2⟩
        · refine .inl ⟨st', h1, h2, ?_, ?_, fun j hj => ?_⟩
          · rw [NodeStore.linked_next] at h3
            omega
          · rw [NodeStore.linked_next] at h4
            omega
          · have hjl := hst.lt_next hj
            have hcj : c ≠ j := fun h => by subst h; omega
            have hk : ((st1.linked p (patternBit pat (i + 1)) c).node j).kind = (st.node j).kind := by
              rw [hnode]
              split
              · rename_i h
                simp [h]
              · rfl
            rw [h5 j (by rw [hk]; exact hj), hk]
        · exact absurd h (insertWalk_fresh sym pat i c _ hcc (fun b => by rw [hc2]; cases b <;> rfl) _ _)
        · refine .inr (.inr ⟨h1, ?_⟩)
          rw [NodeStore.linked_next] at h2
          omega
    · rename_i c hc
      split
      · exact .inr (.inl rfl)
      · rename_i hl
        have hu := hst.child_used _ _ _ hc
        have hk : (st.node c).kind = .internal := by
          cases h : (st.node c).kind <;> simp_all
        rcases ih c st hst hk with ⟨st', h1, h2, h3, h4, h5⟩ | h | ⟨h1, h2⟩
        · exact .inl ⟨st', h1, h2, h3, by omega, h5⟩
        · exact .inr (.inl h)
        · exact .inr (.inr ⟨h1, by omega⟩)

theorem NodeStore.Inv.setRootLeaf {st : NodeStore} (hst : st.Inv) (sym : Byte) :
    (st.setNode 0 ⟨.leaf, none, none, sym⟩).Inv := by
  have hnode := NodeStore.node_setNode st 0 (n := ⟨.leaf, none, none, sym⟩)
  refine ⟨?_, hst.next_pos, hst.next_le, ?_, ?_, ?_, ?_, ?_⟩
  · rw [NodeStore.setNode_nodes]
    exact Arena.wf_set _ _ _ hst.canonical
  · intro e he
    rw [NodeStore.setNode_nodes] at he
    rcases Arena.mem_set he with rfl | he
    · exact hst.next_pos
    · exact hst.listed_lt e he
  · intro i b c hc
    rw [hnode] at hc
    split at hc
    · cases b <;> simp [Node.child] at hc
    · exact hst.child_lt _ _ _ hc
  · intro i j b b' c hi hj
    rw [hnode] at hi hj
    split at hi
    · cases b <;> simp [Node.child] at hi
    · split at hj
      · cases b' <;> simp [Node.child] at hj
      · exact hst.one_parent _ _ _ _ _ hi hj
  · intro i b c hc
    rw [hnode] at hc ⊢
    split at hc
    · cases b <;> simp [Node.child] at hc
    · have := hst.child_used _ _ _ hc
      split
      · simp
      · exact this
  · intro i b hi
    rw [hnode] at hi ⊢
    split
    · cases b <;> rfl
    · rename_i h
      rw [if_neg h] at hi
      exact hst.only_internal _ _ hi

theorem NodeStore.Inv.setRootInternal {st : NodeStore} (hst : st.Inv) :
    (st.setNode 0 { st.node 0 with kind := .internal }).Inv := by
  have hnode := NodeStore.node_setNode st 0 (n := { st.node 0 with kind := .internal })
  have hchild : ∀ b, ({ st.node 0 with kind := NodeKind.internal } : Node).child b = (st.node 0).child b := by
    intro b
    cases b <;> rfl
  refine ⟨?_, hst.next_pos, hst.next_le, ?_, ?_, ?_, ?_, ?_⟩
  · rw [NodeStore.setNode_nodes]
    exact Arena.wf_set _ _ _ hst.canonical
  · intro e he
    rw [NodeStore.setNode_nodes] at he
    rcases Arena.mem_set he with rfl | he
    · exact hst.next_pos
    · exact hst.listed_lt e he
  · intro i b c hc
    rw [hnode] at hc
    split at hc
    · rename_i h
      subst h
      rw [hchild] at hc
      exact hst.child_lt _ _ _ hc
    · exact hst.child_lt _ _ _ hc
  · have hsame : ∀ i b, ((st.setNode 0 { st.node 0 with kind := .internal }).node i).child b = (st.node i).child b := by
      intro i b
      rw [hnode]
      split
      · rename_i h
        subst h
        exact hchild b
      · rfl
    intro i j b b' c hi hj
    rw [hsame] at hi hj
    exact hst.one_parent _ _ _ _ _ hi hj
  · intro i b c hc
    have hold : ∀ j b, (st.node j).child b = some c →
        ((st.setNode 0 { st.node 0 with kind := .internal }).node c).kind ≠ .empty := by
      intro j b hd
      rw [hnode]
      split
      · simp
      · exact hst.child_used _ _ _ hd
    rw [hnode] at hc
    split at hc
    · rw [hchild] at hc
      exact hold _ _ hc
    · exact hold _ _ hc
  · intro i b hi
    rw [hnode] at hi ⊢
    split
    · rename_i h
      simp [h] at hi
    · rename_i h
      rw [if_neg h] at hi
      exact hst.only_internal _ _ hi

/-- Everything InsertEntry can do (41_decoder.md R166 to R169): the entry is in, the root is used, and the store keeps its
invariant and grows by at most 32 nodes; or CODE_LEN or TREE_CONFLICT, with no node allocated and the invariant kept; or, for
want of free nodes only, no slot. -/
theorem insertEntry_cases (sym : Byte) (pat : Word) (n : Nat) (st : NodeStore) (hst : st.Inv) :
    (∃ st', insertEntry sym pat n st = .inserted st' ∧ st'.Inv ∧ st'.next ≤ st.next + 32 ∧ (st'.node 0).kind ≠ .empty) ∨
    (∃ code st', insertEntry sym pat n st = .failed code st' ∧ code ≠ .none ∧ st'.Inv ∧ st'.next = st.next ∧
      ((st.node 0).kind ≠ .empty → (st'.node 0).kind ≠ .empty)) ∨
    (insertEntry sym pat n st = .noSlot ∧ Config.decNodes < st.next + 32) := by
  unfold insertEntry
  split
  · exact .inr (.inl ⟨_, _, rfl, by simp, hst, rfl, id⟩)
  · rename_i hn
    have hn : n ≤ 32 := not_lt.1 hn
    split
    · unfold insertRootLeaf
      split
      · refine .inl ⟨_, rfl, hst.setRootLeaf sym, by simp, ?_⟩
        simp [NodeStore.node_setNode]
      · exact .inr (.inl ⟨_, _, rfl, by simp, hst, rfl, id⟩)
    · unfold insertCode
      split
      · exact .inr (.inl ⟨_, _, rfl, by simp, hst, rfl, id⟩)
      · have hinv := hst.setRootInternal
        have hk : ((st.setNode 0 { st.node 0 with kind := .internal }).node 0).kind = .internal := by
          simp [NodeStore.node_setNode]
        rcases insertWalk_cases sym pat (n - 1) 0 _ hinv hk with ⟨st', h1, h2, -, h4, h5⟩ | h | ⟨h1, h2⟩
        · refine .inl ⟨st', h1, h2, ?_, ?_⟩
          · rw [NodeStore.setNode_next] at h4
            omega
          · rw [h5 0 (by simp [hk]), hk]
            simp
        · exact .inr (.inl ⟨_, _, h, by simp, hinv, rfl, fun _ => by simp [hk]⟩)
        · refine .inr (.inr ⟨h1, ?_⟩)
          rw [NodeStore.setNode_next] at h2
          omega

end Sys2Proof.Machine
end

