-- ==== Sys2Proof/Laws/State.lean ====
section
/-! SUPPORT. One lemma per field per update of the state records, each true by rfl, so that no proof unfolds a record
update. -/

namespace Sys2Proof.Machine

section
variable (s : State) (e : Enc) (d : Dec)

@[simp] theorem State.withEnc_enc : (s.withEnc e).enc = e := rfl
@[simp] theorem State.withEnc_dec : (s.withEnc e).dec = s.dec := rfl
@[simp] theorem State.withEnc_busy : (s.withEnc e).busy = s.busy := rfl
@[simp] theorem State.withEnc_cmdErr : (s.withEnc e).cmdErr = s.cmdErr := rfl
@[simp] theorem State.withEnc_cmdCause : (s.withEnc e).cmdCause = s.cmdCause := rfl
@[simp] theorem State.withEnc_pending : (s.withEnc e).pending = s.pending := rfl
@[simp] theorem State.withEnc_hostReads : (s.withEnc e).hostReads = s.hostReads := rfl
@[simp] theorem State.withEnc_draws : (s.withEnc e).draws = s.draws := rfl
@[simp] theorem State.withEnc_self : s.withEnc s.enc = s := rfl

@[simp] theorem State.withDec_enc : (s.withDec d).enc = s.enc := rfl
@[simp] theorem State.withDec_dec : (s.withDec d).dec = d := rfl
@[simp] theorem State.withDec_busy : (s.withDec d).busy = s.busy := rfl
@[simp] theorem State.withDec_cmdErr : (s.withDec d).cmdErr = s.cmdErr := rfl
@[simp] theorem State.withDec_cmdCause : (s.withDec d).cmdCause = s.cmdCause := rfl
@[simp] theorem State.withDec_pending : (s.withDec d).pending = s.pending := rfl
@[simp] theorem State.withDec_hostReads : (s.withDec d).hostReads = s.hostReads := rfl
@[simp] theorem State.withDec_draws : (s.withDec d).draws = s.draws := rfl
@[simp] theorem State.withDec_self : s.withDec s.dec = s := rfl

@[simp] theorem State.clearCmd_enc : s.clearCmd.enc = s.enc := rfl
@[simp] theorem State.clearCmd_dec : s.clearCmd.dec = s.dec := rfl
@[simp] theorem State.clearCmd_busy : s.clearCmd.busy = s.busy := rfl
@[simp] theorem State.clearCmd_cmdErr : s.clearCmd.cmdErr = false := rfl
@[simp] theorem State.clearCmd_cmdCause : s.clearCmd.cmdCause = .none := rfl
@[simp] theorem State.clearCmd_pending : s.clearCmd.pending = s.pending := rfl
@[simp] theorem State.clearCmd_hostReads : s.clearCmd.hostReads = s.hostReads := rfl
@[simp] theorem State.clearCmd_draws : s.clearCmd.draws = s.draws := rfl
end

section
variable (c : CmdCause) (s : State)

@[simp] theorem State.raiseCmd_enc : (s.raiseCmd c).enc = s.enc := by unfold State.raiseCmd; split <;> rfl
@[simp] theorem State.raiseCmd_dec : (s.raiseCmd c).dec = s.dec := by unfold State.raiseCmd; split <;> rfl
@[simp] theorem State.raiseCmd_busy : (s.raiseCmd c).busy = s.busy := by unfold State.raiseCmd; split <;> rfl
@[simp] theorem State.raiseCmd_pending : (s.raiseCmd c).pending = s.pending := by unfold State.raiseCmd; split <;> rfl
@[simp] theorem State.raiseCmd_hostReads : (s.raiseCmd c).hostReads = s.hostReads := by unfold State.raiseCmd; split <;> rfl
@[simp] theorem State.raiseCmd_draws : (s.raiseCmd c).draws = s.draws := by unfold State.raiseCmd; split <;> rfl

@[simp] theorem State.raiseCmd_cmdErr : (s.raiseCmd c).cmdErr = true := by
  unfold State.raiseCmd
  split
  · assumption
  · rfl

@[simp] theorem State.raiseCmd_cmdCause : (s.raiseCmd c).cmdCause = if s.cmdErr then s.cmdCause else c := by
  unfold State.raiseCmd
  split <;> rfl
end

section
variable (c : EncErr) (bs : List Byte) (e : Enc)

@[simp] theorem Enc.raise_phase : (e.raise c).phase = .error := rfl
@[simp] theorem Enc.raise_err : (e.raise c).err = c := rfl
@[simp] theorem Enc.raise_freq : (e.raise c).freq = e.freq := rfl
@[simp] theorem Enc.raise_encLen : (e.raise c).encLen = e.encLen := rfl
@[simp] theorem Enc.raise_putCnt : (e.raise c).putCnt = e.putCnt := rfl
@[simp] theorem Enc.raise_codePat : (e.raise c).codePat = e.codePat := rfl
@[simp] theorem Enc.raise_codeLen : (e.raise c).codeLen = e.codeLen := rfl
@[simp] theorem Enc.raise_acc : (e.raise c).acc = e.acc := rfl
@[simp] theorem Enc.raise_live : (e.raise c).live = e.live := rfl
@[simp] theorem Enc.raise_out : (e.raise c).out = e.out := rfl

@[simp] theorem Enc.emit_out : (e.emit bs).out = e.out ++ bs := rfl
@[simp] theorem Enc.emit_freq : (e.emit bs).freq = e.freq := rfl
@[simp] theorem Enc.emit_encLen : (e.emit bs).encLen = e.encLen := rfl
@[simp] theorem Enc.emit_putCnt : (e.emit bs).putCnt = e.putCnt := rfl
@[simp] theorem Enc.emit_codePat : (e.emit bs).codePat = e.codePat := rfl
@[simp] theorem Enc.emit_codeLen : (e.emit bs).codeLen = e.codeLen := rfl
@[simp] theorem Enc.emit_acc : (e.emit bs).acc = e.acc := rfl
@[simp] theorem Enc.emit_live : (e.emit bs).live = e.live := rfl
@[simp] theorem Enc.emit_phase : (e.emit bs).phase = e.phase := rfl
@[simp] theorem Enc.emit_err : (e.emit bs).err = e.err := rfl

/-- ENC_INIT writes every element of the encoder, each with its reset value (40_encoder.md R111). -/
@[simp] theorem Enc.init_eq_reset : e.init = Enc.reset := rfl
end

section
variable (c : DecErr) (b : Byte) (d : Dec)

@[simp] theorem Dec.raise_phase : (d.raise c).phase = .error := rfl
@[simp] theorem Dec.raise_err : (d.raise c).err = c := rfl
@[simp] theorem Dec.raise_dpos : (d.raise c).dpos = d.dpos := rfl
@[simp] theorem Dec.raise_len : (d.raise c).len = d.len := rfl
@[simp] theorem Dec.raise_tcount : (d.raise c).tcount = d.tcount := rfl
@[simp] theorem Dec.raise_entDone : (d.raise c).entDone = d.entDone := rfl
@[simp] theorem Dec.raise_eSym : (d.raise c).eSym = d.eSym := rfl
@[simp] theorem Dec.raise_ePat : (d.raise c).ePat = d.ePat := rfl
@[simp] theorem Dec.raise_eLen : (d.raise c).eLen = d.eLen := rfl
@[simp] theorem Dec.raise_store : (d.raise c).store = d.store := rfl
@[simp] theorem Dec.raise_win : (d.raise c).win = d.win := rfl
@[simp] theorem Dec.raise_vbits : (d.raise c).vbits = d.vbits := rfl
@[simp] theorem Dec.raise_cur : (d.raise c).cur = d.cur := rfl
@[simp] theorem Dec.raise_rem : (d.raise c).rem = d.rem := rfl
@[simp] theorem Dec.raise_needIn : (d.raise c).needIn = d.needIn := rfl
@[simp] theorem Dec.raise_inEnd : (d.raise c).inEnd = d.inEnd := rfl
@[simp] theorem Dec.raise_out : (d.raise c).out = d.out := rfl

@[simp] theorem Dec.emit_out : (d.emit b).out = d.out ++ [b] := rfl
@[simp] theorem Dec.emit_dpos : (d.emit b).dpos = d.dpos := rfl
@[simp] theorem Dec.emit_len : (d.emit b).len = d.len := rfl
@[simp] theorem Dec.emit_tcount : (d.emit b).tcount = d.tcount := rfl
@[simp] theorem Dec.emit_entDone : (d.emit b).entDone = d.entDone := rfl
@[simp] theorem Dec.emit_eSym : (d.emit b).eSym = d.eSym := rfl
@[simp] theorem Dec.emit_ePat : (d.emit b).ePat = d.ePat := rfl
@[simp] theorem Dec.emit_eLen : (d.emit b).eLen = d.eLen := rfl
@[simp] theorem Dec.emit_store : (d.emit b).store = d.store := rfl
@[simp] theorem Dec.emit_win : (d.emit b).win = d.win := rfl
@[simp] theorem Dec.emit_vbits : (d.emit b).vbits = d.vbits := rfl
@[simp] theorem Dec.emit_cur : (d.emit b).cur = d.cur := rfl
@[simp] theorem Dec.emit_rem : (d.emit b).rem = d.rem := rfl
@[simp] theorem Dec.emit_needIn : (d.emit b).needIn = d.needIn := rfl
@[simp] theorem Dec.emit_inEnd : (d.emit b).inEnd = d.inEnd := rfl
@[simp] theorem Dec.emit_phase : (d.emit b).phase = d.phase := rfl
@[simp] theorem Dec.emit_err : (d.emit b).err = d.err := rfl

/-- DEC_INIT writes every element of the decoder, each with its reset value (41_decoder.md R161). -/
@[simp] theorem Dec.init_eq_reset : d.init = Dec.reset := rfl
end

end Sys2Proof.Machine
end

