-- ==== Sys2Proof/Laws/Step.lean ====
section
/-! SUPPORT. Everything a step can do, the register an access names, and what each engine command may change, each said
once. -/

namespace Sys2Proof.Machine

/-- A step: nothing pending; a command run; an operation done by the bus alone; or an access refused. -/
theorem step_cases (s : State) :
    (s.pending = [] ∧ step s = .next s) ∨
    ∃ op rest, s.pending = op :: rest ∧
      ((∃ i, State.busAction { s with pending := rest } op = .run i ∧ step s = exec i { s with pending := rest }) ∨
       (∃ t, State.busAction { s with pending := rest } op = .done t ∧ step s = .next t) ∨
       (∃ r, State.busAction { s with pending := rest } op = .refuse r ∧ step s = .refused r)) := by
  cases hp : s.pending with
  | nil => exact .inl ⟨rfl, by simp [step, hp]⟩
  | cons op rest =>
    refine .inr ⟨op, rest, rfl, ?_⟩
    simp only [step, hp]
    cases h : State.busAction { s with pending := rest } op with
    | run i => exact .inl ⟨i, rfl, rfl⟩
    | done t => exact .inr (.inl ⟨t, rfl, rfl⟩)
    | refuse r => exact .inr (.inr ⟨r, rfl, rfl⟩)

/-- The accesses with a meaning (20_memory.md R62), and the register each names. -/
theorem Reg.select_ok {off : Int} {size : Nat} {r : Reg} (h : Reg.select off size = .ok r) :
    size = 4 ∧ 0 ≤ off ∧ off < 64 ∧ off % 4 = 0 ∧ r = Reg.atIndex (off.toNat / 4) := by
  unfold Reg.select at h
  split at h
  · cases h
  · split at h
    · cases h
    · split at h
      · cases h
      · cases h
        rename_i h1 h2 h3
        simp only [Config.windowBytes] at h2
        refine ⟨by omega, by omega, by omega, by omega, rfl⟩

/-- A command addressed to ENC changes the encoder only; a command addressed to DEC the decoder only (42_control.md R210). -/
theorem exec_next_cases {i : Instr} {s t : State} (h : exec i s = .next t) :
    t = s ∨ t = s.clearCmd ∨ (∃ e, t = s.withEnc e) ∨ ∃ d, t = s.withDec d := by
  cases i with
  | nop => cases h; exact .inl rfl
  | clrerr => cases h; exact .inr (.inl rfl)
  | encInit => cases h; exact .inr (.inr (.inl ⟨_, rfl⟩))
  | encCount b => cases h; exact .inr (.inr (.inl ⟨_, rfl⟩))
  | encBuild =>
    simp only [exec, execEncBuild] at h
    split at h
    · cases h; exact .inr (.inr (.inl ⟨_, rfl⟩))
    · cases h
  | encPut b => cases h; exact .inr (.inr (.inl ⟨_, rfl⟩))
  | encFinish => cases h; exact .inr (.inr (.inl ⟨_, rfl⟩))
  | decInit => cases h; exact .inr (.inr (.inr ⟨_, rfl⟩))
  | decPut b =>
    simp only [exec, execDecPut] at h
    split at h
    · cases h; exact .inr (.inr (.inr ⟨_, rfl⟩))
    · cases h
  | decNext => cases h; exact .inr (.inr (.inr ⟨_, rfl⟩))
  | decEnd => cases h; exact .inr (.inr (.inr ⟨_, rfl⟩))

/-- No command is refused. -/
theorem exec_not_refused (i : Instr) (s : State) (r : Refusal) : exec i s ≠ .refused r := by
  cases i with
  | encBuild => simp only [exec, execEncBuild]; split <;> simp
  | decPut b => simp only [exec, execDecPut]; split <;> simp
  | _ => simp [exec, execNop, execClrerr, execEncInit, execEncCount, execEncPut, execEncFinish, execDecInit, execDecNext, execDecEnd]

end Sys2Proof.Machine
end

