-- ==== Sys2Proof/Laws/Tables.lean ====
section
/-! SUPPORT. The laws of the symbol tables and of the little-endian fields: a read after a write, a constant table, the list
of all symbols. -/

namespace Sys2Proof.Machine

variable {α : Type}

theorem SymTab.get_set (t : SymTab α) (a b : Byte) (v : α) :
    SymTab.get (SymTab.set t a v) b = if a = b then v else SymTab.get t b := by
  have hb : Vector.get t b.toFin = t[b.toNat] := rfl
  have hs : Vector.get (Vector.set t a.toNat v a.isLt) b.toFin = (Vector.set t a.toNat v a.isLt)[b.toNat] := rfl
  unfold SymTab.get SymTab.set
  rw [hs, hb, Vector.getElem_set]
  simp only [BitVec.toNat_inj]

@[simp] theorem SymTab.get_set_self (t : SymTab α) (a : Byte) (v : α) : SymTab.get (SymTab.set t a v) a = v := by
  simp [SymTab.get_set]

theorem SymTab.get_set_of_ne {a b : Byte} (t : SymTab α) (v : α) (h : a ≠ b) :
    SymTab.get (SymTab.set t a v) b = SymTab.get t b := by
  simp [SymTab.get_set, h]

@[simp] theorem SymTab.get_const (v : α) (b : Byte) : SymTab.get (SymTab.const v) b = v := by
  have : Vector.get (Vector.replicate 256 v) b.toFin = (Vector.replicate 256 v)[b.toNat] := rfl
  unfold SymTab.get SymTab.const
  rw [this, Vector.getElem_replicate]

@[simp] theorem SymTab.get_replicate (v : α) (b : Byte) : SymTab.get (Vector.replicate 256 v) b = v :=
  SymTab.get_const v b

/-- Two tables are equal when they agree at every symbol. -/
theorem SymTab.ext {t u : SymTab α} (h : ∀ b, SymTab.get t b = SymTab.get u b) : t = u := by
  apply Vector.ext
  intro i hi
  have := h (BitVec.ofFin ⟨i, hi⟩)
  simpa [SymTab.get, Vector.get] using this

@[simp] theorem mem_allSymbols (b : Byte) : b ∈ allSymbols := by
  refine List.mem_map.2 ⟨b.toNat, List.mem_range.2 b.isLt, ?_⟩
  simp

@[simp] theorem length_allSymbols : allSymbols.length = 256 := by
  simp [allSymbols]

theorem allSymbols_sorted : allSymbols.Pairwise fun a b => a.toNat < b.toNat := by
  refine List.pairwise_map.2 ?_
  refine List.Pairwise.imp_of_mem ?_ List.pairwise_lt_range
  intro a b ha hb h
  have ha := List.mem_range.1 ha
  have hb := List.mem_range.1 hb
  simp only [BitVec.toNat_ofNat]
  omega

theorem nodup_allSymbols : allSymbols.Nodup :=
  allSymbols_sorted.imp fun h he => by subst he; omega

/-- A test on all symbols keeps, in ascending order, exactly the symbols that pass it. -/
theorem filter_allSymbols {p : Byte → Bool} {l : List Byte} (hl : l.Pairwise fun a b => a.toNat < b.toNat)
    (h : ∀ b, p b = true ↔ b ∈ l) : allSymbols.filter p = l := by
  have hf := allSymbols_sorted.filter p
  have hnd : ∀ {l : List Byte}, (l.Pairwise fun a b => a.toNat < b.toNat) → l.Nodup := fun hl =>
    hl.imp fun h he => by subst he; omega
  refine List.Perm.eq_of_pairwise (fun a b _ _ h1 h2 => by omega) hf hl ?_
  refine (List.perm_ext_iff_of_nodup (hnd hf) (hnd hl)).2 fun b => ?_
  rw [List.mem_filter, h b]
  simp

@[simp] theorem length_leBytes (k v : Nat) : (leBytes k v).length = k := by
  simp [leBytes]

theorem leBytes_succ (k v : Nat) : leBytes (k + 1) v = BitVec.ofNat 8 v :: leBytes k (v >>> 8) := by
  simp only [leBytes, List.range_succ_eq_map, List.map_cons, List.map_map]
  congr 1
  apply List.map_congr_left
  intro i _
  simp only [Function.comp, Nat.succ_eq_add_one]
  rw [← Nat.shiftRight_add]
  congr 2
  omega

/-- `fromLE(LE_k(v)) = v mod 2^(8k)` (00_scope.md R8). -/
theorem fromLE_leBytes (k v : Nat) : fromLE (leBytes k v) = v % 2 ^ (8 * k) := by
  induction k generalizing v with
  | zero => simp [leBytes, fromLE, Nat.mod_one]
  | succ k ih =>
    rw [leBytes_succ, fromLE, ih, Nat.shiftRight_eq_div_pow, BitVec.toNat_ofNat, show 8 * (k + 1) = 8 + 8 * k by omega,
      Nat.pow_add, Nat.mod_mul]

end Sys2Proof.Machine
end

