-- ==== Sys2Proof/Laws/Tree.lean ====
section
/-! SUPPORT. What the tree builder's shared operations can do: the insertion, the initial list, the merge loop (40_encoder.md
R115 to R118), and the code tables written from a list of entries (R114). -/

namespace Sys2Proof.Machine

/-- The insertion splits the list: nothing before the new node is heavier, and what follows it, if anything, is. -/
theorem insertAfterEqual_split (t : HTree) (l : List HTree) :
    ∃ pre post, l = pre ++ post ∧ insertAfterEqual t l = pre ++ t :: post ∧
      (∀ u ∈ pre, u.weight ≤ t.weight) ∧ ∀ u ∈ post.head?, t.weight < u.weight := by
  induction l with
  | nil => exact ⟨[], [], rfl, rfl, by simp, by simp⟩
  | cons u rest ih =>
    unfold insertAfterEqual
    split
    · exact ⟨[], u :: rest, rfl, rfl, by simp, by simpa⟩
    · rename_i hlt
      obtain ⟨pre, post, h1, h2, h3, h4⟩ := ih
      refine ⟨u :: pre, post, by simp [h1], by simp [h2], ?_, h4⟩
      intro v hv
      rcases List.mem_cons.1 hv with rfl | hv
      · exact not_lt.1 hlt
      · exact h3 v hv

theorem insertAfterEqual_perm (t : HTree) (l : List HTree) : (insertAfterEqual t l).Perm (t :: l) := by
  obtain ⟨pre, post, h1, h2, -, -⟩ := insertAfterEqual_split t l
  rw [h2, h1]
  exact List.perm_middle

@[simp] theorem length_insertAfterEqual (t : HTree) (l : List HTree) : (insertAfterEqual t l).length = l.length + 1 :=
  (insertAfterEqual_perm t l).length_eq

theorem foldl_insert_perm (ts l : List HTree) :
    (ts.foldl (fun l t => insertAfterEqual t l) l).Perm (ts ++ l) := by
  induction ts generalizing l with
  | nil => exact List.Perm.refl _
  | cons t ts ih =>
    refine (ih _).trans ?_
    refine ((insertAfterEqual_perm t l).append_left ts).trans ?_
    exact List.perm_middle

/-- The initial list holds exactly the present symbols' leaves. -/
theorem initialList_perm (freq : SymTab DWord) :
    (initialList freq).Perm (allSymbols.filterMap (presentLeaf freq)) := by
  have h := foldl_insert_perm (allSymbols.filterMap (presentLeaf freq)) []
  rw [List.append_nil] at h
  exact h

/-- The leaves of step 1 are the present symbols, ascending. -/
theorem filterMap_presentLeaf (freq : SymTab DWord) :
    allSymbols.filterMap (presentLeaf freq) = (presentSymbols freq).map fun b => HTree.leaf b (freq.get b).toNat := by
  unfold presentSymbols
  induction allSymbols with
  | nil => rfl
  | cons b l ih =>
    by_cases hb : freq.get b = 0
    · rw [List.filterMap_cons_none (by simp [presentLeaf, hb]), List.filter_cons_of_neg (by simp [hb]), ih]
    · rw [List.filterMap_cons_some (by simp only [presentLeaf, hb, if_false]; rfl), List.filter_cons_of_pos (by simp only [hb, ne_eq, not_false_eq_true, decide_true]),
        ih, List.map_cons]

/-- Only present symbols add to the sum of all counts. -/
theorem totalCount_eq_present (freq : SymTab DWord) :
    totalCount freq = ((presentSymbols freq).map fun b => (freq.get b).toNat).sum := by
  unfold totalCount presentSymbols
  induction allSymbols with
  | nil => rfl
  | cons b l ih =>
    rw [List.map_cons, List.sum_cons, ih]
    by_cases hb : freq.get b = 0
    · rw [List.filter_cons_of_neg (by simp [hb]), hb]
      simp
    · rw [List.filter_cons_of_pos (by simp only [hb, ne_eq, not_false_eq_true, decide_true]), List.map_cons, List.sum_cons]

/-- A property of lists of trees that every merge keeps, and that holds of the initial list, holds of the root. -/
theorem mergeLoop_induct (P : List HTree → Prop)
    (hmerge : ∀ a b rest, P (a :: b :: rest) → P (insertAfterEqual (mergeNodes a b) rest))
    (fuel : Nat) (l : List HTree) (hl : P l) (root : HTree) (hroot : mergeLoop fuel l = some root) : P [root] := by
  induction fuel generalizing l with
  | zero =>
    match l, hl, hroot with
    | [t], hl, hroot => cases hroot; exact hl
  | succ fuel ih =>
    match l, hl, hroot with
    | [t], hl, hroot => cases hroot; exact hl
    | a :: b :: rest, hl, hroot => exact ih _ (hmerge a b rest hl) hroot

/-- Enough rounds always end with one tree. -/
theorem mergeLoop_isSome (fuel : Nat) (l : List HTree) (hne : l ≠ []) (hfuel : l.length ≤ fuel + 1) :
    (mergeLoop fuel l).isSome := by
  induction fuel generalizing l with
  | zero =>
    match l, hne, hfuel with
    | [t], _, _ => rfl
    | _ :: _ :: _, _, h =>
      simp only [List.length_cons] at h
      omega
  | succ fuel ih =>
    match l, hne, hfuel with
    | [t], _, _ => rfl
    | a :: b :: rest, _, h =>
      refine ih _ ?_ ?_
      · intro h0
        have := congrArg List.length h0
        simp at this
      · simp only [List.length_cons, length_insertAfterEqual] at h ⊢
        omega

/-- What the two code tables hold at a symbol: zero in both, or one entry's pattern and length. -/
theorem codeTables_get (codes : List CodeEntry) (s : Byte) :
    ((patTable codes).get s = 0 ∧ (lenTable codes).get s = 0 ∧ ∀ c ∈ codes, c.sym ≠ s) ∨
    ∃ c ∈ codes, c.sym = s ∧ (patTable codes).get s = BitVec.ofNat 32 c.pat ∧ (lenTable codes).get s = c.len := by
  induction codes using List.reverseRecOn with
  | nil => exact .inl ⟨by simp [patTable], by simp [lenTable], by simp⟩
  | append_singleton cs c ih =>
    have hp : patTable (cs ++ [c]) = (patTable cs).set c.sym (BitVec.ofNat 32 c.pat) := by simp [patTable]
    have hl : lenTable (cs ++ [c]) = (lenTable cs).set c.sym c.len := by simp [lenTable]
    by_cases hc : c.sym = s
    · refine .inr ⟨c, by simp, hc, ?_, ?_⟩
      · rw [hp, SymTab.get_set, if_pos hc]
      · rw [hl, SymTab.get_set, if_pos hc]
    · rcases ih with ⟨h1, h2, h3⟩ | ⟨d, hd, h1, h2, h3⟩
      · refine .inl ⟨?_, ?_, ?_⟩
        · rw [hp, SymTab.get_set, if_neg hc, h1]
        · rw [hl, SymTab.get_set, if_neg hc, h2]
        · intro e he
          rcases List.mem_append.1 he with he | he
          · exact h3 e he
          · rw [List.mem_singleton.1 he]
            exact hc
      · refine .inr ⟨d, by simp [hd], h1, ?_, ?_⟩
        · rw [hp, SymTab.get_set, if_neg hc, h2]
        · rw [hl, SymTab.get_set, if_neg hc, h3]

/-- A walk from pattern `p` at depth `d` reaches only patterns that extend `p`, at no smaller depth. -/
theorem HTree.walk_bounds (t : HTree) (p d : Nat) (hp : p < 2 ^ d) : ∀ c ∈ t.walk p d, c.pat < 2 ^ c.len ∧ d ≤ c.len := by
  induction t generalizing p d with
  | leaf s w =>
    intro c hc
    rw [HTree.walk, List.mem_singleton] at hc
    subst hc
    exact ⟨hp, le_refl _⟩
  | internal w one zero ih1 ih2 =>
    intro c hc
    rw [HTree.walk, List.mem_append] at hc
    rw [← Nat.mul_lt_mul_left (show 0 < 2 by omega)] at hp
    rcases hc with hc | hc
    · obtain ⟨h1, h2⟩ := ih1 (2 * p + 1) (d + 1) (by rw [Nat.pow_succ]; omega) c hc
      exact ⟨h1, by omega⟩
    · obtain ⟨h1, h2⟩ := ih2 (2 * p) (d + 1) (by rw [Nat.pow_succ]; omega) c hc
      exact ⟨h1, by omega⟩

/-- Every code fits its length, and no code is empty (40_encoder.md R120, R121). -/
theorem genCodes_bounds (t : HTree) : ∀ c ∈ genCodes t, c.pat < 2 ^ c.len ∧ 1 ≤ c.len := by
  cases t with
  | leaf s w =>
    intro c hc
    rw [genCodes, List.mem_singleton] at hc
    subst hc
    exact ⟨by simp, le_refl _⟩
  | internal w one zero =>
    intro c hc
    rw [genCodes, HTree.walk, List.mem_append] at hc
    rcases hc with hc | hc
    · exact HTree.walk_bounds one 1 1 (by omega) c hc
    · exact HTree.walk_bounds zero 0 1 (by omega) c hc

/-- The walk reaches each leaf once, in the tree's order. -/
theorem HTree.walk_symbols (t : HTree) (p d : Nat) : (t.walk p d).map CodeEntry.sym = t.symbols := by
  induction t generalizing p d with
  | leaf s w => rfl
  | internal w one zero ih1 ih2 => simp [HTree.walk, HTree.symbols, ih1, ih2]

theorem genCodes_symbols (t : HTree) : (genCodes t).map CodeEntry.sym = t.symbols := by
  cases t with
  | leaf s w => rfl
  | internal w one zero => exact HTree.walk_symbols _ _ _

end Sys2Proof.Machine
end

