-- ==== Sys2Proof/Laws/Unpacker.lean ====
section
/-! SUPPORT. Everything the loop of DEC_NEXT can do (41_decoder.md R176), said once. -/

namespace Sys2Proof.Machine

/-- The loop ends at a leaf after `k` bits, or out of bits, or at a missing child after `k` more bits and the one that selects it.
A property of nodes that holds where the loop starts, and that children inherit, holds where it ends. -/
theorem walkBits_cases (st : NodeStore) (P : NodeIdx → Prop)
    (hchild : ∀ i bit c, P i → (st.node i).child bit = some c → P c) (v : Nat) (win : Word) (cur : NodeIdx) (hcur : P cur) :
    (∃ k i, k ≤ v ∧ P i ∧ (st.node i).kind = .leaf ∧
      walkBits st v win cur = .symbol (st.node i).sym (win <<< k) (v - k)) ∨
    (∃ i, P i ∧ (st.node i).kind ≠ .leaf ∧ walkBits st v win cur = .starved (win <<< v) i) ∨
    (∃ k i bit, k < v ∧ P i ∧ (st.node i).kind ≠ .leaf ∧ (st.node i).child bit = none ∧
      walkBits st v win cur = .noPath (win <<< (k + 1)) (v - (k + 1)) i) := by
  induction v generalizing win cur with
  | zero =>
    by_cases hl : (st.node cur).kind = .leaf
    · exact .inl ⟨0, cur, le_refl _, hcur, hl, by simp [walkBits, hl]⟩
    · exact .inr (.inl ⟨cur, hcur, hl, by simp [walkBits, hl]⟩)
  | succ v ih =>
    have hshift : ∀ k, (win <<< 1) <<< k = win <<< (k + 1) := fun k => by rw [← BitVec.shiftLeft_add, Nat.add_comm]
    by_cases hl : (st.node cur).kind = .leaf
    · exact .inl ⟨0, cur, by omega, hcur, hl, by simp [walkBits, hl]⟩
    · cases hc : (st.node cur).child (win.getLsbD 31) with
      | none => exact .inr (.inr ⟨0, cur, _, by omega, hcur, hl, hc, by simp only [walkBits, hl, if_false, hc]; simp⟩)
      | some c =>
        have hstep : walkBits st (v + 1) win cur = walkBits st v (win <<< 1) c := by
          simp only [walkBits, hl, if_false, hc]
        rw [hstep]
        rcases ih (win <<< 1) c (hchild _ _ _ hcur hc) with ⟨k, i, h1, h2, h3, h4⟩ | ⟨i, h2, h3, h4⟩ | ⟨k, i, b, h1, h2, h3, h5, h4⟩
        · refine .inl ⟨k + 1, i, by omega, h2, h3, ?_⟩
          rw [h4, hshift, show v + 1 - (k + 1) = v - k by omega]
        · refine .inr (.inl ⟨i, h2, h3, ?_⟩)
          rw [h4, hshift]
        · refine .inr (.inr ⟨k + 1, i, b, by omega, h2, h3, h5, ?_⟩)
          rw [h4, hshift, show v + 1 - (k + 1 + 1) = v - (k + 1) by omega]

end Sys2Proof.Machine
end

