-- ==== Sys2Proof/Tests/Slice0.lean ====
section
/-! SUPPORT. Tests. Section 1 refuses ill-formed command fields; section 2 decodes words written out from the spec's encodings
(30_encoding.md R80, R84); section 3 runs one command or one operation on a small state and compares with 95_test_vectors.md (V
and P numbers); section 4 shows, for each statement of Certificates/Slice0/Obligations.lean that has hypotheses, a state and
operands that meet them. -/

namespace Sys2Proof.Tests

open Sys2Proof Sys2Proof.Machine

/-! ### 1. Well-formedness -/

theorem test_wf_unlisted_opcode : CmdFields.opListed ⟨0x02, 0, 0⟩ = false ∧ CmdFields.legal ⟨0x02, 0, 0⟩ = false := by decide

theorem test_wf_reserved_bits : CmdFields.rsvZero ⟨0x11, 0x0100, 0⟩ = false ∧ CmdFields.legal ⟨0x11, 0x0100, 0⟩ = false := by
  decide

theorem test_wf_data_not_zero : CmdFields.dataAllowed ⟨0x10, 0, 1⟩ = false ∧ CmdFields.legal ⟨0x10, 0, 1⟩ = false := by decide

theorem test_wf_legal : CmdFields.legal ⟨0x11, 0, 0xFF⟩ = true ∧ CmdFields.legal ⟨0x23, 0, 0⟩ = true := by decide

/-! ### 2. Decoding: OP, RSV, DATA written out bit by bit -/

theorem test_decode_nop : decode (0b00000000#8 ++ 0b0000000000000000#16 ++ 0b00000000#8) = .ok .nop := rfl

theorem test_decode_clrerr : decode (0b00000001#8 ++ 0b0000000000000000#16 ++ 0b00000000#8) = .ok .clrerr := rfl

theorem test_decode_encInit : decode (0b00010000#8 ++ 0b0000000000000000#16 ++ 0b00000000#8) = .ok .encInit := rfl

theorem test_decode_encCount : decode (0b00010001#8 ++ 0b0000000000000000#16 ++ 0b01100001#8) = .ok (.encCount 0x61) := rfl

theorem test_decode_encBuild : decode (0b00010010#8 ++ 0b0000000000000000#16 ++ 0b00000000#8) = .ok .encBuild := rfl

theorem test_decode_encPut : decode (0b00010011#8 ++ 0b0000000000000000#16 ++ 0b01000001#8) = .ok (.encPut 0x41) := rfl

theorem test_decode_encFinish : decode (0b00010100#8 ++ 0b0000000000000000#16 ++ 0b00000000#8) = .ok .encFinish := rfl

theorem test_decode_decInit : decode (0b00100000#8 ++ 0b0000000000000000#16 ++ 0b00000000#8) = .ok .decInit := rfl

theorem test_decode_decPut : decode (0b00100001#8 ++ 0b0000000000000000#16 ++ 0b00001110#8) = .ok (.decPut 0x0E) := rfl

theorem test_decode_decNext : decode (0b00100010#8 ++ 0b0000000000000000#16 ++ 0b00000000#8) = .ok .decNext := rfl

theorem test_decode_decEnd : decode (0b00100011#8 ++ 0b0000000000000000#16 ++ 0b00000000#8) = .ok .decEnd := rfl

/-- V3, V5, V6: the rejections, by name. -/
theorem test_decode_rejects :
    decode 0x02000000#32 = .error .unlistedOpcode ∧ decode 0x15000000#32 = .error .unlistedOpcode ∧
    decode 0x24000000#32 = .error .unlistedOpcode ∧ decode 0x11010000#32 = .error .reservedBitsSet ∧
    decode 0x01000001#32 = .error .dataNotZero ∧ decodeBytes [0x00, 0x00, 0x00] = .error .notOneWord := ⟨rfl, rfl, rfl, rfl, rfl, rfl⟩

/-- 20_memory.md R61: lane 0 is the DATA byte. -/
theorem test_decode_lanes : decodeBytes [0x61, 0x00, 0x00, 0x11] = .ok (.encCount 0x61) := rfl

theorem test_decode_table_word :
    decodeTableWord 32 0x21000005 = some (.decPut 5) ∧ decodeTableWord 32 0x21000105 = none := ⟨rfl, rfl⟩

/-- 30_encoding.md R86: the operand forms. -/
theorem test_assemble :
    assemble "ENC_COUNT 97".toList = .ok 0x11000061#32 ∧ assemble "ENC_COUNT 0x61".toList = .ok 0x11000061#32 ∧
    assemble "ENC_COUNT 'a'".toList = .ok 0x11000061#32 ∧ assemble "DEC_PUT 0x0E".toList = .ok 0x2100000E#32 ∧ assemble "NOP 1".toList = .error .operandNotAllowed ∧
    assemble "DEC_PUT".toList = .error .operandMissing ∧ assemble "DEC_PUT 256".toList = .error .badOperand := by
  decide

/-! ### 3. One step -/

/-- The step answers a next state with the property. -/
def nextHas (r : Host.Outcome State Fault Refusal) (p : State → Bool) : Bool :=
  match r with
  | .next t => p t
  | .fault _ => false
  | .refused _ => false

/-- The counts of "AB". -/
def freqAB : SymTab DWord := SymTab.set (SymTab.set (SymTab.const 0) 0x41 1) 0x42 1

/-- The code patterns of "AB" (V41): A = 1, B = 0. -/
def patAB : SymTab Word := SymTab.set (SymTab.set (SymTab.const 0) 0x41 1) 0x42 0

/-- The code lengths of "AB" (V41). -/
def lenAB : SymTab Nat := SymTab.set (SymTab.set (SymTab.const 0) 0x41 1) 0x42 1

/-- The tree of "AB" (40_encoder.md R116): the first leaf is the one-branch. -/
def rootAB : HTree := .internal 2 (.leaf 0x41 1) (.leaf 0x42 1)

/-- The header and the table of "AB" (V41). -/
def headerAB : List Byte := [2, 0, 0, 0, 0, 0, 0, 0, 2, 0, 0, 0, 0x41, 1, 0, 0, 0, 1, 0x42, 0, 0, 0, 0, 1]

/-- Reset, with "AB" counted. -/
def countedAB : State := { State.reset with enc := { Enc.reset with freq := freqAB, encLen := 2 } }

/-- The encoder after ENC_BUILD on "AB". -/
def encAB : Enc := { countedAB.enc with codePat := patAB, codeLen := lenAB, phase := .encode, out := headerAB }

/-- Reset, with an encoder in phase ENCODE that has the codes of "AB", `len` symbols in all, and the given packer. -/
def encoding (len : DWord) (acc : DWord) (live : Nat) : State :=
  { State.reset with enc := { Enc.reset with
    freq := freqAB, codePat := patAB, codeLen := lenAB, encLen := len, acc := acc, live := live, phase := .encode } }

/-- The arena of one entry, or the empty one. -/
def storeOf (sym : Byte) (pat : Word) (n : Nat) : NodeStore :=
  match insertEntry sym pat n ⟨[], 1⟩ with
  | .inserted st => st
  | .failed _ st => st
  | .noSlot => ⟨[], 1⟩

/-- Reset, with a decoder in phase PAYLOAD with the given tree, window and symbols still to decode. -/
def unpacking (st : NodeStore) (win : Word) (vbits : Nat) (rem : DWord) : State :=
  { State.reset with dec := { Dec.reset with
    len := rem, tcount := 1, entDone := 1, store := st, win := win, vbits := vbits, rem := rem, phase := .payload } }

/-- Reset, with a decoder in phase TABLE that has read five bytes of an entry with symbol B. -/
def inTable (pat : Word) (st : NodeStore) : State :=
  { State.reset with dec := { Dec.reset with
    len := 2, tcount := 2, entDone := 1, store := st, dpos := 5, eSym := 0x42, ePat := pat, phase := .table } }

/-- Reset, with an encoder in the given phase. -/
def encIn (p : EncPhase) : State := { State.reset with enc := { Enc.reset with phase := p } }

/-- Reset, with a decoder in the given phase. -/
def decIn (p : DecPhase) : State := { State.reset with dec := { Dec.reset with phase := p } }

/-- Reset, with one host operation pending. -/
def withOp (op : BusOp) : State := { State.reset with pending := [op] }

/-- V1. -/
theorem test_nop : step (withOp (.write 0 4 0x00000000#32)) = .next State.reset := rfl

/-- V10. -/
theorem test_clrerr : exec .clrerr { State.reset with cmdErr := true, cmdCause := .illegal } = .next State.reset := rfl

/-- V11: CLRERR clears no engine error. -/
theorem test_clrerr_keeps_engine_errors :
    nextHas (exec .clrerr { State.reset with enc := Enc.reset.raise .seq }) (fun t => t.statusWord == 0x00200130#32) = true := by
  decide

/-- V30. -/
theorem test_encInit :
    exec .encInit { State.reset with enc := (Enc.reset.emit [1, 2]).raise .passMismatch } = .next State.reset := rfl

/-- V19. -/
theorem test_encCount : nextHas (exec (.encCount 0x61) State.reset)
    (fun t => t.enc.encLen == 1 && t.enc.freq.get 0x61 == 1 && t.enc.freq.get 0x62 == 0) = true := by decide

/-- V25. -/
theorem test_encCount_overflow :
    nextHas (exec (.encCount 0x41) { State.reset with enc := { Enc.reset with encLen := 0x7FFFFFFFFFFFFFFF#64 } })
    (fun t => t.statusWord == 0x00200430#32 && t.enc.encLen == 0x7FFFFFFFFFFFFFFF#64) = true := by decide

/-- V32 "abcd", from the leaves in symbol order: the vector that tells the two readings of the tie-break apart. -/
theorem test_encBuild_ties :
    (mergeLoop 4 ([.leaf 0x61 1, .leaf 0x62 1, .leaf 0x63 1, .leaf 0x64 1].foldl (fun l t => insertAfterEqual t l) [])).map genCodes =
      some [⟨0x61, 3, 2⟩, ⟨0x62, 2, 2⟩, ⟨0x63, 1, 2⟩, ⟨0x64, 0, 2⟩] := by decide

theorem freqAB_get (b : Byte) : freqAB.get b = if b = 0x42 ∨ b = 0x41 then 1 else 0 := by
  simp only [freqAB, SymTab.get_set, SymTab.get_const, eq_comm (a := (0x42 : Byte)), eq_comm (a := (0x41 : Byte))]
  split <;> split <;> simp_all

theorem lenAB_get (b : Byte) : lenAB.get b = if b = 0x42 ∨ b = 0x41 then 1 else 0 := by
  simp only [lenAB, SymTab.get_set, SymTab.get_const, eq_comm (a := (0x42 : Byte)), eq_comm (a := (0x41 : Byte))]
  split <;> split <;> simp_all

theorem presentSymbols_AB : presentSymbols freqAB = [0x41, 0x42] :=
  filter_allSymbols (by decide) fun b => by
    rw [freqAB_get]
    simp
    tauto

theorem buildTree_AB : buildTree freqAB = some rootAB := by
  have h : initialList freqAB = [.leaf 0x41 1, .leaf 0x42 1] := by
    rw [initialList, filterMap_presentLeaf, presentSymbols_AB]
    simp only [List.map_cons, List.map_nil, freqAB_get]
    rfl
  rw [buildTree, h]
  rfl

theorem codedSymbols_AB (e : Enc) (h : e.codeLen = lenAB) : codedSymbols e = [0x41, 0x42] :=
  filter_allSymbols (by decide) fun b => by
    rw [h, lenAB_get]
    split <;> simp_all
    tauto

theorem headerBytes_AB (e : Enc) (h1 : e.encLen = 2) (h2 : e.codePat = patAB) (h3 : e.codeLen = lenAB) :
    headerBytes e = headerAB := by
  simp only [headerBytes, codedSymbols_AB e h3, h1, entryBytes, List.flatMap_cons, List.flatMap_nil, h2, h3, lenAB_get]
  simp only [patAB, SymTab.get_set, SymTab.get_const]
  decide

theorem codeTables_AB : patTable (genCodes rootAB) = patAB ∧ lenTable (genCodes rootAB) = lenAB := by
  simp [patTable, lenTable, genCodes, rootAB, HTree.walk, patAB, lenAB]

theorem buildTree_countedAB : buildTree countedAB.enc.freq = some rootAB := buildTree_AB

theorem withCodes_AB :
    countedAB.enc.withCodes (genCodes rootAB) = { countedAB.enc with codePat := patAB, codeLen := lenAB } := by
  rw [Enc.withCodes, codeTables_AB.1, codeTables_AB.2]

/-- V41 "AB": the codes, the header and the table. -/
theorem test_encBuild : exec .encBuild countedAB = .next (countedAB.withEnc encAB) := by
  have h0 : countedAB.enc.encLen ≠ 0 := by decide
  refine exec_encBuild_of_ok ((Enc.build_of_tree rfl h0 buildTree_countedAB).trans (congrArg _ ?_))
  have hfits : ∀ c ∈ genCodes rootAB, c.len ≤ Config.maxCodeLen := by decide
  have hbytes : headerBytes { countedAB.enc with codePat := patAB, codeLen := lenAB } = headerAB := headerBytes_AB _ rfl rfl rfl
  rw [Enc.buildFrom_of_fits hfits, withCodes_AB, hbytes]
  rfl

/-- V49: a code that does not fit pushes the highest eight bits out. -/
theorem test_encPut : nextHas (exec (.encPut 0x41) (encoding 2 0x1F00000001#64 37))
    (fun t => t.enc.out == [0xF8] && t.enc.live == 30 && t.enc.acc == 3 && t.enc.putCnt == 1) = true := by decide

/-- V26. -/
theorem test_encPut_uncoded : nextHas (exec (.encPut 0x43) (encoding 2 0 0))
    (fun t => t.statusWord == 0x00200230#32 && t.enc.putCnt == 0) = true := by decide

/-- V56: the longest flush. -/
theorem test_encFinish : nextHas (exec .encFinish (encoding 0 0x7FFFFFFFFF#64 39))
    (fun t => t.enc.out == [0xFF, 0xFF, 0xFF, 0xFF, 0xFE] && t.enc.live == 0 && t.enc.phase == .done) = true := by decide

/-- V28. -/
theorem test_encFinish_short : nextHas (exec .encFinish (encoding 2 1 1))
    (fun t => t.statusWord == 0x00200230#32 && t.enc.live == 1 && t.enc.acc == 1) = true := by decide

/-- V98. -/
theorem test_decInit : exec .decInit { State.reset with dec := { Dec.reset with len := 5, err := .emptyTable, phase := .error } } =
    .next State.reset := rfl

/-- V70: the path runs through a leaf. -/
theorem test_decPut_conflict : nextHas (exec (.decPut 2) (inTable 1 (storeOf 0x41 0 1)))
    (fun t => t.statusWord == 0x00054000#32) = true := by decide

/-- P2: the second payload byte goes below the first. -/
theorem test_decPut_window : nextHas (exec (.decPut 0x40) (unpacking (storeOf 0x41 0 1) 0x0E000000#32 8 5))
    (fun t => t.dec.win == 0x0E400000#32 && t.dec.vbits == 16) = true := by decide

/-- V84: the first bit selects a child the table never created. -/
theorem test_decNext_no_path : nextHas (exec .decNext (unpacking (storeOf 0x41 1 1) 0 8 1))
    (fun t => t.statusWord == 0x00084000#32 && t.dec.vbits == 7 && t.dec.rem == 1) = true := by decide

/-- V85, first DEC_NEXT: 'A' for its code 1, one bit consumed. -/
theorem test_decNext_symbol : nextHas (exec .decNext (unpacking (storeOf 0x41 1 1) 0x80000000#32 8 2))
    (fun t => t.dec.out == [0x41] && t.dec.vbits == 7 && t.dec.win == 0 && t.dec.rem == 1 && t.dec.phase == .payload) = true := by
  decide

/-- V88. -/
theorem test_decEnd_in_header : nextHas (exec .decEnd State.reset) (fun t => t.statusWord == 0x00074000#32) = true := by
  decide

/-- V89: the second DEC_END. -/
theorem test_decEnd_twice : nextHas (exec .decEnd { State.reset with dec := { Dec.reset with inEnd := true, phase := .payload } })
    (fun t => t.statusWord == 0x00414000#32) = true := by decide

/-- V2: a rejected word changes no engine. -/
theorem test_illegal_word :
    step (withOp (.write 0 4 0xFF000000#32)) = .next { State.reset with cmdErr := true, cmdCause := .illegal } := rfl

/-- V16: a read of ENC_OUT pops the oldest byte. -/
theorem test_read_encOut : nextHas (step { State.reset with enc := Enc.reset.emit [0x05, 0x00], pending := [.read 0x28 4] })
    (fun t => t.hostReads == [0x105#32] && t.enc.out == [0x00]) = true := by decide

/-- V18. -/
theorem test_read_encLen : nextHas (step { State.reset with
    enc := { Enc.reset with encLen := 0x0000000100000002#64 }, pending := [.read 0x0C 4] })
    (fun t => t.hostReads == [1#32]) = true := by decide

/-- V17. -/
theorem test_write_status_ignored : step (withOp (.write 0x04 4 0xFFFFFFFF#32)) = .next State.reset := rfl

/-- V99. -/
theorem test_reset : step { encIn .error with pending := [.reset] } = .next State.reset := rfl

/-! ### 4. Witnesses: for each statement with hypotheses, a state and operands that meet them -/

/-- A list of host operations pending after reset, with the block in the given state. -/
def withPending (s : State) (ops : List BusOp) : State := { s with pending := ops }

/-! #### The command word, the step and the register window -/

theorem test_witness_AssemblerTakesTheThreeOperandForms :
    ("ENC_COUNT", Instr.encCount) ∈ [("ENC_COUNT", Instr.encCount), ("ENC_PUT", Instr.encPut), ("DEC_PUT", Instr.decPut)] ∧
    'F' ∈ hexDigitSpellings ((0xFF#8).toNat / 16) ∧ 'f' ∈ hexDigitSpellings ((0xFF#8).toNat % 16) ∧
    '0' ∈ hexDigitSpellings ((0x00#8).toNat / 16) ∧ 'a'.toNat < 128 ∧ (Char.ofNat 127).toNat < 128 ∧ (Char.ofNat 0).toNat < 128 ∧
    ("DEC_END", Instr.decEnd) ∈ [("NOP", Instr.nop), ("CLRERR", Instr.clrerr), ("ENC_INIT", Instr.encInit),
      ("ENC_BUILD", Instr.encBuild), ("ENC_FINISH", Instr.encFinish), ("DEC_INIT", Instr.decInit),
      ("DEC_NEXT", Instr.decNext), ("DEC_END", Instr.decEnd)] := by
  refine ⟨by simp, by decide, by decide, by decide, by decide, by decide, by decide, by simp⟩

theorem test_witness_StepRunsTheDecodedCommand :
    (withOp (.write 0 4 0x11000061#32)).busy = false ∧
    (withOp (.write 0 4 0x11000061#32)).pending = .write 0 4 0x11000061#32 :: [] ∧
    decode 0x11000061#32 = .ok (.encCount 0x61) ∧ decodeTableWord 32 0x11000061 = some (.encCount 0x61) ∧
    decodeTableWord 32 0x23000000 = some .decEnd ∧ State.reset.pending = [] := ⟨rfl, rfl, rfl, rfl, rfl, rfl⟩

/-- Words that break each condition of R82, the first and last reserved opcode of each range among them. -/
theorem test_witness_illegal_words :
    ¬ legalByR82 0x02000000#32 ∧ ¬ legalByR82 0x0F000000#32 ∧ ¬ legalByR82 0x15000000#32 ∧ ¬ legalByR82 0x1F000000#32 ∧
    ¬ legalByR82 0x24000000#32 ∧ ¬ legalByR82 0xFF000000#32 ∧ ¬ legalByR82 0x11000100#32 ∧ ¬ legalByR82 0x10000001#32 ∧
    legalByR82 0x110000FF#32 := by
  unfold legalByR82
  refine ⟨?_, ?_, ?_, ?_, ?_, ?_, ?_, ?_, ?_⟩ <;> decide

theorem test_witness_RejectedWordKeepsTheFirstCause :
    ({ withOp (.write 0 4 0x00000000#32) with busy := true }).busy = true ∧
    ({ withOp (.write 0 4 0x00000000#32) with busy := true }).pending = .write 0 4 0x00000000#32 :: [] ∧
    (withOp (.write 0 4 0xFF000000#32)).busy = false ∧
    (withOp (.write 0 4 0xFF000000#32)).pending = .write 0 4 0xFF000000#32 :: [] ∧ ¬ legalByR82 0xFF000000#32 :=
  ⟨rfl, rfl, rfl, rfl, test_witness_illegal_words.2.2.2.2.2.1⟩

theorem test_witness_IllegalWordIsRejectedWhole :
    (withOp (.write 0 4 0x24000000#32)).busy = false ∧
    (withOp (.write 0 4 0x24000000#32)).pending = .write 0 4 0x24000000#32 :: [] ∧ ¬ legalByR82 0x24000000#32 ∧
    (withOp (.write 0 4 0x24000000#32)).cmdErr = false ∧
    ((0x02000000#32 : Word).extractLsb' 24 8).toNat = 0x02 ∧ ((0x0F000000#32 : Word).extractLsb' 24 8).toNat = 0x0F ∧
    ((0x15000000#32 : Word).extractLsb' 24 8).toNat = 0x15 ∧ ((0x1F000000#32 : Word).extractLsb' 24 8).toNat = 0x1F ∧
    ((0x24000000#32 : Word).extractLsb' 24 8).toNat = 0x24 ∧ ((0xFF000000#32 : Word).extractLsb' 24 8).toNat = 0xFF :=
  ⟨rfl, rfl, test_witness_illegal_words.2.2.2.2.1, rfl, rfl, rfl, rfl, rfl, rfl, rfl⟩

theorem test_witness_CountRegistersReadTheCounters :
    (withOp (.read 0x08 4)).busy = false ∧ (withOp (.read 0x08 4)).pending = .read 0x08 4 :: [] ∧
    (withOp (.read 0x24 4)).busy = false ∧ (withOp (.read 0x24 4)).pending = .read 0x24 4 :: [] := ⟨rfl, rfl, rfl, rfl⟩

theorem test_witness_FifoReadPopsTheOldestByte :
    ({ withOp (.read 0x28 4) with enc := Enc.reset.emit [5] }).pending = .read 0x28 4 :: [] ∧
    ({ withOp (.read 0x28 4) with enc := Enc.reset.emit [5] }).enc.out = 5 :: [] ∧
    (withOp (.read 0x28 4)).pending = .read 0x28 4 :: [] ∧ (withOp (.read 0x28 4)).enc.out = [] ∧
    ({ withOp (.read 0x2C 4) with dec := Dec.reset.emit 5 }).pending = .read 0x2C 4 :: [] ∧
    ({ withOp (.read 0x2C 4) with dec := Dec.reset.emit 5 }).dec.out = 5 :: [] ∧
    (withOp (.read 0x2C 4)).pending = .read 0x2C 4 :: [] ∧ (withOp (.read 0x2C 4)).dec.out = [] ∧
    (withOp (.write 0x28 4 1)).pending = .write 0x28 4 1 :: [] ∧ (withOp (.write 0x2C 4 1)).pending = .write 0x2C 4 1 :: [] :=
  ⟨rfl, rfl, rfl, rfl, rfl, rfl, rfl, rfl, rfl, rfl⟩

theorem test_witness_IgnoredWritesAndConstantReads :
    ((0 : Int) < 0x04 ∧ (0x04 : Int) < 0x40 ∧ (0x04 : Int) % 4 = 0) ∧ ((0 : Int) < 0x3C ∧ (0x3C : Int) < 0x40 ∧ (0x3C : Int) % 4 = 0) ∧
    (withOp (.write 0x3C 4 1)).pending = .write 0x3C 4 1 :: [] ∧ (withOp (.read 0x30 4)).pending = .read 0x30 4 :: [] :=
  ⟨by decide, by decide, rfl, rfl⟩

theorem test_witness_StatusShowsTheFields :
    (withOp (.read 0x04 4)).busy = false ∧ (withOp (.read 0x04 4)).pending = .read 0x04 4 :: [] := ⟨rfl, rfl⟩

theorem test_witness_OnlyAlignedWordAccessesHaveMeaning :
    (withOp (.read 0 2)).pending = .read 0 2 :: [] ∧ (2 : Nat) ≠ 4 ∧
    (withOp (.read (-1) 4)).pending = .read (-1) 4 :: [] ∧ (-1 : Int) < 0 ∧ (withOp (.write 0x40 4 0)).pending = .write 0x40 4 0 :: [] ∧
    (withOp (.read 0x3F 4)).pending = .read 0x3F 4 :: [] ∧ (0x3F : Int) < 0x40 ∧ (0x3F : Int) % 4 ≠ 0 ∧
    (withOp (.write 0x3C 4 0)).pending = .write 0x3C 4 0 :: [] ∧ (0x3C : Int) < 0x40 ∧ (0x3C : Int) % 4 = 0 :=
  ⟨rfl, by decide, rfl, by decide, rfl, rfl, by decide, by decide, rfl, by decide, by decide⟩

theorem test_witness_ReadsWhileBusyShowBusy :
    ({ withOp (.read 0x04 4) with busy := true }).busy = true ∧
    ({ withOp (.read 0x04 4) with busy := true }).pending = .read 0x04 4 :: [] ∧
    ({ withOp (.read 0x28 4) with busy := true, enc := Enc.reset.emit [7] }).enc.out = 7 :: [] ∧
    ({ withOp (.read 0x28 4) with busy := true, enc := Enc.reset.emit [7] }).pending = .read 0x28 4 :: [] := ⟨rfl, rfl, rfl, rfl⟩

theorem test_witness_ResetEqualsTheInitCommands :
    ({ encIn .error with pending := [.reset] }).pending = .reset :: [] ∧ ({ encIn .error with pending := [.reset] }).busy = false :=
  ⟨rfl, rfl⟩

theorem test_witness_BusyIsZeroBetweenSteps :
    (withOp (.write 0 4 0x11000061#32)).busy = false ∧ ∃ t, step (withOp (.write 0 4 0x11000061#32)) = .next t := ⟨rfl, _, rfl⟩

/-! #### The encoder -/

theorem packerInv_empty : Packer.Inv ⟨0, 0⟩ := ⟨by decide, by decide⟩

/-- An encoder in phase COUNT with the given counts has the invariants. -/
theorem encInv_counting (freq : SymTab DWord) (len : DWord) (hsum : len.toNat = totalCount freq) (hle : len.toNat ≤ Config.lenMax) :
    Enc.Inv { Enc.reset with freq := freq, encLen := len } := by
  refine ⟨hsum, hle, ?_, packerInv_empty, ?_, ?_, ?_, ?_, ?_⟩ <;> simp [Enc.reset]

theorem encInv_reset : Enc.Inv Enc.reset := by
  have hp : presentSymbols (SymTab.const 0) = [] := by simp [presentSymbols]
  refine encInv_counting (SymTab.const 0) 0 ?_ (by decide)
  rw [totalCount_eq_present, hp]
  rfl

theorem encInv_AB : countedAB.enc.Inv := by
  refine encInv_counting freqAB 2 ?_ (by decide)
  rw [totalCount_eq_present, presentSymbols_AB]
  simp [freqAB_get]

/-- One symbol, counted as often as a count below the limit allows. -/
def freqFull : SymTab DWord := SymTab.set (SymTab.const 0) 0x41 0x7FFFFFFFFFFFFFFE#64

theorem freqFull_get (b : Byte) : freqFull.get b = if b = 0x41 then 0x7FFFFFFFFFFFFFFE#64 else 0 := by
  simp only [freqFull, SymTab.get_set, SymTab.get_const, eq_comm (a := (0x41 : Byte))]

theorem encInv_full : Enc.Inv { Enc.reset with freq := freqFull, encLen := 0x7FFFFFFFFFFFFFFE#64 } := by
  have hp : presentSymbols freqFull = [0x41] := filter_allSymbols (by decide) fun b => by
    rw [freqFull_get]
    split <;> simp_all
  refine encInv_counting freqFull _ ?_ (by decide)
  rw [totalCount_eq_present, hp]
  simp [freqFull_get]

/-- The clauses of R112: one below the limit, with the invariant; at the limit; and each other phase. -/
theorem test_witness_EncCountCountsOneSymbol :
    (Enc.phase { Enc.reset with freq := freqFull, encLen := 0x7FFFFFFFFFFFFFFE#64 } = .count ∧
      (0x7FFFFFFFFFFFFFFE#64).toNat ≠ 2 ^ 63 - 1 ∧
      Enc.Inv { Enc.reset with freq := freqFull, encLen := 0x7FFFFFFFFFFFFFFE#64 }) ∧
    (Enc.phase { Enc.reset with encLen := 0x7FFFFFFFFFFFFFFF#64 } = .count ∧ (0x7FFFFFFFFFFFFFFF#64).toNat = 2 ^ 63 - 1) ∧
    (encIn .encode).enc.phase = .encode ∧ (encIn .done).enc.phase = .done ∧ (encIn .error).enc.phase = .error :=
  ⟨⟨rfl, by decide, encInv_full⟩, ⟨rfl, by decide⟩, rfl, rfl, rfl⟩

theorem test_witness_EncoderPhaseTable :
    (encIn .count).enc.phase = .count ∧ (encIn .encode).enc.phase = .encode ∧ (encIn .done).enc.phase = .done ∧
    (encIn .error).enc.phase = .error := ⟨rfl, rfl, rfl, rfl⟩

theorem test_witness_CountingGivesOccurrences :
    ([0x41, 0x42] : List Byte).length ≤ 2 ^ 63 - 1 ∧ State.reset.enc = Enc.reset := ⟨by decide, rfl⟩

theorem test_witness_EmptyInputGivesTwelveZeroBytes : State.reset.enc.phase = .count ∧ State.reset.enc.encLen = 0 := ⟨rfl, rfl⟩

/-- The Fibonacci numbers `F(1), F(2), …` (V39, V40). -/
def fibPair : Nat → Nat × Nat
  | 0 => (1, 1)
  | n + 1 => ((fibPair n).2, (fibPair n).1 + (fibPair n).2)

/-- The counts of V40: 34 symbols, whose longest code has 33 bits. -/
def freqFib : SymTab DWord := Vector.ofFn fun i => if i.val < 34 then BitVec.ofNat 64 (fibPair i.val).1 else 0

theorem freqFib_get (b : Byte) : freqFib.get b = if b.toNat < 34 then BitVec.ofNat 64 (fibPair b.toNat).1 else 0 := by
  have h : freqFib.get b = freqFib[b.toNat] := rfl
  rw [h]
  simp [freqFib]

theorem presentSymbols_fib : presentSymbols freqFib = (List.range 34).map (BitVec.ofNat 8) := by
  refine filter_allSymbols (by decide) fun b => ?_
  have hpos : ∀ n < 34, BitVec.ofNat 64 (fibPair n).1 ≠ 0 := by decide
  rw [freqFib_get, List.mem_map]
  constructor
  · intro h
    by_cases hb : b.toNat < 34
    · exact ⟨b.toNat, List.mem_range.2 hb, by simp⟩
    · simp [hb] at h
  · rintro ⟨n, hn, rfl⟩
    have hn := List.mem_range.1 hn
    have hmod : (BitVec.ofNat 8 n).toNat = n := by simp; omega
    rw [hmod, if_pos hn]
    simpa using hpos n hn

/-- V40: the tree of those counts gives a code of 33 bits, so the CODE_TOO_LONG clause has a state; and V41 for the other. -/
theorem test_witness_EncBuildWritesCodesAndHeader :
    (countedAB.enc.phase = .count ∧ countedAB.enc.encLen ≠ 0 ∧ (∃ b, countedAB.enc.freq.get b ≠ 0) ∧
      ∀ c ∈ genCodes rootAB, c.len ≤ 32) ∧
    ∃ root, buildTree freqFib = some root ∧ ∃ c ∈ genCodes root, 32 < c.len := by
  refine ⟨⟨rfl, by decide, ⟨0x41, ?_⟩, by decide⟩, ?_⟩
  · have h : countedAB.enc.freq.get 0x41 = freqAB.get 0x41 := rfl
    rw [h, freqAB_get]
    decide
  · have hl : allSymbols.filterMap (presentLeaf freqFib) =
        (List.range 34).map fun n => HTree.leaf (BitVec.ofNat 8 n) (fibPair n).1 := by
      rw [filterMap_presentLeaf, presentSymbols_fib, List.map_map]
      refine List.map_congr_left fun n hn => ?_
      have hn := List.mem_range.1 hn
      have hmod : (BitVec.ofNat 8 n).toNat = n := by simp; omega
      have hfib : ∀ n < 34, (BitVec.ofNat 64 (fibPair n).1).toNat = (fibPair n).1 := by decide
      simp only [Function.comp, freqFib_get, hmod, if_pos hn, hfib n hn]
    have hlist : initialList freqFib = (List.range 34).map fun n => HTree.leaf (BitVec.ofNat 8 n) (fibPair n).1 := by
      rw [initialList, hl]
      decide
    have hany : ((buildTree freqFib).any fun root => (genCodes root).any fun c => decide (32 < c.len)) = true := by
      rw [buildTree, hlist]
      decide
    cases hr : buildTree freqFib with
    | none => rw [hr] at hany; cases hany
    | some root =>
      rw [hr] at hany
      obtain ⟨c, hc, h⟩ := List.any_eq_true.1 hany
      exact ⟨root, rfl, c, hc, by simpa using h⟩

/-- The table of lengths with one code of the greatest length, 32; and the second entry of the table of "AB". -/
theorem test_witness_HeaderAndTableLayout :
    (∀ b, (SymTab.set (SymTab.const 0) 0x41 32).get b ≤ 32) ∧ (∀ b, encAB.codeLen.get b ≤ 32) ∧
    (codedSymbols encAB)[1]? = some 0x42 := by
  refine ⟨fun b => ?_, fun b => ?_, ?_⟩
  · rw [SymTab.get_set, SymTab.get_const]
    split <;> omega
  · have h : encAB.codeLen.get b = lenAB.get b := rfl
    rw [h, lenAB_get]
    split <;> omega
  · rw [codedSymbols_AB encAB rfl]
    rfl

theorem test_witness_TreeSizeAndDepth : buildTree freqAB = some rootAB := buildTree_AB

theorem test_witness_TreeWeightsAddUp : buildTree countedAB.enc.freq = some rootAB ∧ countedAB.enc.Inv :=
  ⟨buildTree_countedAB, encInv_AB⟩

/-- A merged node of weight 2 before nodes of weights 2 and 3. -/
theorem test_witness_MergedNodeGoesAfterEqualWeights :
    [HTree.leaf 0x43 2, HTree.leaf 0x44 3].Pairwise (fun u v => u.weight ≤ v.weight) := by simp [HTree.weight]

/-- The counts of "AAA" (V42). -/
def freqA : SymTab DWord := SymTab.set (SymTab.const 0) 0x41 3

/-- Reset, with "AAA" counted. -/
def countedA : State := { State.reset with enc := { Enc.reset with freq := freqA, encLen := 3 } }

theorem freqA_get (b : Byte) : freqA.get b = if b = 0x41 then 3 else 0 := by
  simp only [freqA, SymTab.get_set, SymTab.get_const, eq_comm (a := (0x41 : Byte))]

theorem buildTree_A : buildTree freqA = some (.leaf 0x41 3) := by
  have hp : presentSymbols freqA = [0x41] := filter_allSymbols (by decide) fun b => by
    rw [freqA_get]
    split <;> simp_all
  have h : initialList freqA = [.leaf 0x41 3] := by
    rw [initialList, filterMap_presentLeaf, hp]
    simp only [List.map_cons, List.map_nil, freqA_get]
    rfl
  rw [buildTree, h]
  rfl

theorem buildTree_countedA : buildTree countedA.enc.freq = some (.leaf 0x41 3) := buildTree_A

/-- Two symbols, and a sole symbol. -/
theorem test_witness_CodesAreRootToLeafPaths :
    (countedAB.enc.phase = .count ∧ countedAB.enc.encLen ≠ 0 ∧ buildTree countedAB.enc.freq = some rootAB ∧
      (∃ t, exec .encBuild countedAB = .next t ∧ t.enc.phase = .encode) ∧ 2 ≤ rootAB.symbols.length ∧ 0x41 ∈ rootAB.symbols) ∧
    (countedA.enc.phase = .count ∧ countedA.enc.encLen ≠ 0 ∧ buildTree countedA.enc.freq = some (.leaf 0x41 3) ∧
      (∃ t, exec .encBuild countedA = .next t ∧ t.enc.phase = .encode) ∧ (HTree.leaf 0x41 3).symbols = [0x41]) := by
  have h0 : countedA.enc.encLen ≠ 0 := by decide
  refine ⟨⟨rfl, by decide, buildTree_countedAB, ⟨_, test_encBuild, rfl⟩, by decide, by decide⟩, rfl, h0, buildTree_countedA, ?_, rfl⟩
  refine ⟨_, exec_encBuild_of_ok (Enc.build_of_tree rfl h0 buildTree_countedA), ?_⟩
  have hfits : ∀ c ∈ genCodes (.leaf 0x41 3), c.len ≤ Config.maxCodeLen := by decide
  rw [Enc.buildFrom_of_fits hfits]
  rfl

theorem test_witness_CodesArePrefixFree :
    countedAB.enc.phase = .count ∧ countedAB.enc.encLen ≠ 0 ∧
    (∃ t, exec .encBuild countedAB = .next t ∧ t.enc.phase = .encode) ∧ (0x41 : Byte) ≠ 0x42 ∧
    freqAB.get 0x41 ≠ 0 ∧ freqAB.get 0x42 ≠ 0 ∧ countedAB.enc.freq = freqAB := by
  refine ⟨rfl, by decide, ⟨_, test_encBuild, rfl⟩, by decide, ?_, ?_, rfl⟩ <;> rw [freqAB_get] <;> decide

theorem test_witness_ExactlyPresentSymbolsAreCoded :
    countedAB.enc.Inv ∧ countedAB.enc.phase = .count ∧ ∃ t, exec .encBuild countedAB = .next t ∧ t.enc.phase = .encode :=
  ⟨encInv_AB, rfl, _, test_encBuild, rfl⟩

/-- The fullest packer (V56) and the longest code; and the empty packer and the shortest. -/
theorem test_witness_PackAppendsTheCode :
    (Packer.Inv ⟨0x7FFFFFFFFF#64, 39⟩ ∧ 1 ≤ 32 ∧ 32 ≤ 32 ∧ (0xFFFFFFFF#32).toNat < 2 ^ 32) ∧
    (Packer.Inv ⟨0, 0⟩ ∧ 1 ≤ 1 ∧ 1 ≤ 32 ∧ (1#32).toNat < 2 ^ 1) :=
  ⟨⟨⟨by decide, by decide⟩, by decide, by decide, by decide⟩, packerInv_empty, by decide, by decide, by decide⟩

theorem test_witness_FlushEmitsTheRemainingBits : Packer.Inv ⟨0x7FFFFFFFFF#64, 39⟩ ∧ Packer.Inv ⟨0, 0⟩ :=
  ⟨⟨by decide, by decide⟩, packerInv_empty⟩

theorem test_witness_EncPutPacksTheCode :
    ((encoding 2 0 0).enc.phase = .encode ∧ (encoding 2 0 0).enc.codeLen.get 0x41 ≠ 0 ∧
      (encoding 2 0 0).enc.putCnt ≠ (encoding 2 0 0).enc.encLen) ∧
    (encoding 2 0 0).enc.codeLen.get 0x43 = 0 ∧ (encoding 0 0 0).enc.putCnt = (encoding 0 0 0).enc.encLen ∧
    (encIn .count).enc.phase = .count ∧ (encIn .done).enc.phase = .done ∧ (encIn .error).enc.phase = .error := by
  have h : (encoding 2 0 0).enc.codeLen = lenAB := rfl
  refine ⟨⟨rfl, ?_, by decide⟩, ?_, rfl, rfl, rfl, rfl⟩ <;> rw [h, lenAB_get] <;> decide

theorem test_witness_EncFinishFlushesAndEnds :
    ((encoding 0 5 3).enc.phase = .encode ∧ (encoding 0 5 3).enc.putCnt = (encoding 0 5 3).enc.encLen) ∧
    (encoding 2 0 0).enc.putCnt ≠ (encoding 2 0 0).enc.encLen ∧
    (encIn .count).enc.phase = .count ∧ (encIn .done).enc.phase = .done ∧ (encIn .error).enc.phase = .error :=
  ⟨⟨rfl, rfl⟩, by decide, rfl, rfl, rfl⟩

theorem test_witness_PackedOutputIsTheConcatenatedCodes :
    (encoding 2 0 0).enc.phase = .encode ∧ (encoding 2 0 0).enc.putCnt = 0 ∧ (encoding 2 0 0).enc.acc = 0 ∧
    (encoding 2 0 0).enc.live = 0 ∧ ([0x41, 0x42] : List Byte).length = (encoding 2 0 0).enc.encLen.toNat ∧
    ∀ x ∈ ([0x41, 0x42] : List Byte), 1 ≤ lenAB.get x ∧ lenAB.get x ≤ 32 ∧ (patAB.get x).toNat < 2 ^ lenAB.get x := by
  refine ⟨rfl, rfl, rfl, rfl, by decide, ?_⟩
  intro x hx
  simp only [patAB, lenAB_get, SymTab.get_set, SymTab.get_const]
  revert x
  decide

/-! #### The decoder -/

theorem test_witness_DecoderPhaseTable :
    (decIn .hdr).dec.phase = .hdr ∧ (decIn .table).dec.phase = .table ∧ (decIn .done).dec.phase = .done ∧
    (decIn .error).dec.phase = .error := ⟨rfl, rfl, rfl, rfl⟩

/-- The last byte of each header field that is not the twelfth byte; and five headers, one for each way HeaderDone ends: V61,
V62, V59, V60 and (1, 256). -/
theorem test_witness_HeaderIsAssembledAndChecked :
    (Dec.phase { Dec.reset with dpos := 7 } = .hdr ∧ 7 < 8 ∧ Dec.phase { Dec.reset with dpos := 8 } = .hdr ∧ 8 ≤ 8 ∧
      Dec.phase { Dec.reset with dpos := 10 } = .hdr ∧ 10 < 11) ∧
    (State.reset.dec.phase = .hdr ∧ State.reset.dec.dpos = 0 ∧ State.reset.dec.len = 0 ∧ State.reset.dec.tcount = 0) ∧
    s64 (BitVec.ofNat 64 (fromLE [0xFF, 0xFF, 0xFF, 0xFF, 0xFF, 0xFF, 0xFF, 0xFF])) < 0 ∧
    (0 ≤ s64 (BitVec.ofNat 64 (fromLE [1, 0, 0, 0, 0, 0, 0, 0])) ∧ 256 < (BitVec.ofNat 32 (fromLE [1, 1, 0, 0])).toNat) ∧
    ((BitVec.ofNat 32 (fromLE [0, 0, 0, 0])).toNat = 0 ∧ BitVec.ofNat 64 (fromLE [0, 0, 0, 0, 0, 0, 0, 0]) = 0) ∧
    0 < s64 (BitVec.ofNat 64 (fromLE [5, 0, 0, 0, 0, 0, 0, 0])) ∧
    (1 ≤ (BitVec.ofNat 32 (fromLE [0, 1, 0, 0])).toNat ∧ (BitVec.ofNat 32 (fromLE [0, 1, 0, 0])).toNat ≤ 256) := by
  refine ⟨⟨rfl, ?_, rfl, ?_, rfl, ?_⟩, ⟨rfl, rfl, rfl, rfl⟩, ?_⟩ <;> decide

/-- Reset, with a decoder in phase TABLE before the first byte of an entry. -/
def atEntry (st : NodeStore) (entDone : Nat) (tcount : Word) (len : DWord) : State :=
  { State.reset with dec := { Dec.reset with len := len, tcount := tcount, entDone := entDone, store := st, phase := .table } }

theorem test_witness_TableEntryIsAssembledAndInserted :
    ((atEntry (storeOf 0x41 0 1) 1 3 2).dec.phase = .table ∧ (atEntry (storeOf 0x41 0 1) 1 3 2).dec.dpos = 0 ∧
      (atEntry (storeOf 0x41 0 1) 1 3 2).dec.ePat = 0 ∧ (1#32 : Word) = BitVec.ofNat 32 (fromLE [1, 0, 0, 0])) ∧
    (∃ st, insertEntry 0x42 1#32 (1#8).toNat (storeOf 0x41 0 1) = .inserted st) ∧
    (1 + 1 ≠ (3#32).toNat ∧ 1 + 1 = (2#32).toNat) ∧ ((atEntry (storeOf 0x41 0 1) 1 2 0).dec.len = 0 ∧ (2 : DWord) ≠ 0) ∧
    ∃ st, insertEntry 0x42 0#32 (1#8).toNat (storeOf 0x41 0 1) = .failed .treeConflict st :=
  ⟨⟨rfl, rfl, rfl, rfl⟩, ⟨_, rfl⟩, ⟨by decide, by decide⟩, ⟨rfl, by decide⟩, ⟨_, rfl⟩⟩

/-- The shortest length that is too long, and two patterns that differ only above a length (V76). -/
theorem test_witness_OverlongEntryIsRejectedFirst :
    (inTable 0 (storeOf 0x41 0 1)).dec.phase = .table ∧ (inTable 0 (storeOf 0x41 0 1)).dec.dpos = 5 ∧ 32 < (33#8).toNat ∧
    1 ≤ 32 ∧ (0xFFFFFFFE#32).toNat % 2 ^ 1 = (0#32).toNat % 2 ^ 1 := ⟨rfl, rfl, by decide, by decide, by decide⟩

theorem storeOf_inv (sym : Byte) (pat : Word) (n : Nat) : (storeOf sym pat n).Inv := by
  unfold storeOf
  rcases insertEntry_cases sym pat n _ NodeStore.Inv.empty with ⟨st, h, hi, -⟩ | ⟨_, st, h, -, hi, -⟩ | ⟨h, -⟩ <;> rw [h]
  · exact hi
  · exact hi
  · exact NodeStore.Inv.empty

/-- The fullest arena that still has 32 free nodes: the root used, and nothing linked. -/
def storeFull : NodeStore := ⟨[(0, ⟨.internal, none, none, 0⟩)], 8161⟩

theorem storeFull_inv : storeFull.Inv := by
  have hchild : ∀ i b, (storeFull.node i).child b = none := by
    intro i b
    unfold NodeStore.node storeFull Arena.get
    split <;> cases b <;> rfl
  refine ⟨rfl, by decide, by decide, ?_, ?_, ?_, ?_, fun i b _ => hchild i b⟩
  · intro e he
    rw [storeFull, List.mem_singleton] at he
    subst he
    decide
  · intro i b c h
    rw [hchild] at h
    cases h
  · intro i j b b' c h _
    rw [hchild] at h
    cases h
  · intro i b c h
    rw [hchild] at h
    cases h

/-- The four cases of R168, each in a tree with the invariant; and the fullest arena with the longest code. -/
theorem test_witness_TreeConflictsAreTheFourCases :
    ((storeOf 0x41 0 0).Inv ∧ ((storeOf 0x41 0 0).node 0).kind ≠ .empty) ∧ ((storeOf 0x41 0 0).node 0).kind = .leaf ∧
    ((storeOf 0x41 0 1).Inv ∧ ∃ i, (storeOf 0x41 0 1).descend 0 ((bitsOf (1#32).toNat 2).take 1) = some i ∧
      ((storeOf 0x41 0 1).node i).kind = .leaf) ∧
    ((storeOf 0x42 1 2).Inv ∧ ∃ i, (storeOf 0x42 1 2).descend 0 (bitsOf (0#32).toNat 1) = some i) ∧
    (storeFull.Inv ∧ 32 ≤ 32 ∧ storeFull.next + 32 ≤ 8193) :=
  ⟨⟨storeOf_inv _ _ _, by decide⟩, rfl, ⟨storeOf_inv _ _ _, _, rfl, rfl⟩, ⟨storeOf_inv _ _ _, _, rfl⟩, storeFull_inv, by decide, by decide⟩

/-- A code of length 0 and one of length 32, both into the empty tree. -/
theorem test_witness_InsertedCodeLeadsToItsLeaf :
    NodeStore.Inv ⟨[], 1⟩ ∧ (∃ st, insertEntry 0x41 0#32 0 ⟨[], 1⟩ = .inserted st) ∧
    ∃ st, insertEntry 0x41 0xFFFFFFFF#32 32 ⟨[], 1⟩ = .inserted st := ⟨NodeStore.Inv.empty, ⟨_, rfl⟩, ⟨_, rfl⟩⟩

/-- The decoder before the last of 256 entries, each of the 255 before it having taken 32 nodes. -/
def decBeforeLast : Dec :=
  { Dec.reset with len := 1, tcount := 256, entDone := 255, store := storeFull, phase := .table }

theorem decBeforeLast_inv : decBeforeLast.Inv := by
  refine ⟨storeFull_inv, by decide, ?_, ?_, ?_, ?_, ?_, ?_, ?_, ?_, ?_, ?_, ?_, ?_, ?_, ?_, ?_⟩ <;>
    simp [decBeforeLast, Dec.reset, storeFull, NodeStore.node, Arena.get, s64]

theorem test_witness_AllocTakesTheNextSlot :
    (⟨[], 8192⟩ : NodeStore).next < 8193 ∧ (NodeStore.Inv ⟨[], 1⟩ ∧ ∃ st, insertEntry 0x41 0#32 32 ⟨[], 1⟩ = .inserted st) ∧
    decBeforeLast.Inv ∧ decBeforeLast.phase = .table := ⟨by decide, ⟨NodeStore.Inv.empty, _, rfl⟩, decBeforeLast_inv, rfl⟩

theorem test_witness_DecPutAfterTheTable :
    ((unpacking (storeOf 0x41 0 1) 0 24 1).dec.phase = .payload ∧ (unpacking (storeOf 0x41 0 1) 0 24 1).dec.inEnd = false ∧
      (unpacking (storeOf 0x41 0 1) 0 24 1).dec.vbits ≤ 24 ∧ 24 < (unpacking (storeOf 0x41 0 1) 0 25 1).dec.vbits) ∧
    ((decIn .done).dec.phase = .done ∧ (decIn .done).dec.inEnd = false) ∧
    (Dec.phase { Dec.reset with phase := .payload, inEnd := true } = .payload ∧
      Dec.inEnd { Dec.reset with phase := .payload, inEnd := true } = true) := by
  refine ⟨⟨rfl, rfl, ?_, ?_⟩, ⟨rfl, rfl⟩, rfl, rfl⟩ <;> decide

theorem noLeafWithin_zero (d : Dec) (h : (d.store.node d.cur).kind ≠ .leaf) : noLeafWithin d 0 := by
  intro j i hj hi
  have hj : j = 0 := Nat.le_zero.1 hj
  subst hj
  cases hi
  exact h

/-- The four ways of R176: a leaf after one bit (V85); no bit left, before and after DEC_END; a missing child (V84). -/
theorem test_witness_DecNextDecodesOneSymbol :
    ((unpacking (storeOf 0x41 1 1) 0x80000000#32 8 2).dec.phase = .payload ∧
      (unpacking (storeOf 0x41 1 1) 0x80000000#32 8 2).dec.vbits ≤ 32) ∧
    ((∀ j < 1, noLeafWithin (unpacking (storeOf 0x41 1 1) 0x80000000#32 8 2).dec j) ∧
      ∃ i, (storeOf 0x41 1 1).descend 0 (windowBits 0x80000000#32 1) = some i ∧ ((storeOf 0x41 1 1).node i).kind = .leaf) ∧
    (noLeafWithin (unpacking (storeOf 0x41 1 1) 0 0 2).dec 0 ∧ (storeOf 0x41 1 1).descend 0 (windowBits 0 0) = some 0) ∧
    (noLeafWithin (unpacking (storeOf 0x41 1 1) 0 8 1).dec 0 ∧ ((storeOf 0x41 1 1).node 0).child ((0 : Word).getLsbD (31 - 0)) = none) ∧
    (decIn .done).dec.phase = .done ∧ (decIn .error).dec.phase = .error := by
  have hroot : ((storeOf 0x41 1 1).node 0).kind ≠ .leaf := by decide
  have h0 : ∀ win v rem, noLeafWithin (unpacking (storeOf 0x41 1 1) win v rem).dec 0 := fun win v rem =>
    noLeafWithin_zero _ hroot
  refine ⟨⟨rfl, by decide⟩, ⟨fun j hj => ?_, _, rfl, rfl⟩, ⟨h0 _ _ _, rfl⟩, ⟨h0 _ _ _, rfl⟩, rfl, rfl⟩
  have hj : j = 0 := by omega
  subst hj
  exact h0 _ _ _

theorem test_witness_DecEndEndsTheInputOnce :
    ((decIn .payload).dec.phase = .payload ∧ (decIn .done).dec.phase = .done ∧ (decIn .payload).dec.inEnd = false) ∧
    Dec.inEnd { Dec.reset with phase := .payload, inEnd := true } = true ∧
    (decIn .hdr).dec.phase = .hdr ∧ (decIn .table).dec.phase = .table ∧ (decIn .error).dec.phase = .error :=
  ⟨⟨rfl, rfl, rfl⟩, rfl, rfl, rfl, rfl⟩

theorem test_witness_ZeroLengthEntryEmitsWithoutBits :
    (unpacking (storeOf 0x41 0 0) 0 0 3).dec.phase = .payload ∧ (unpacking (storeOf 0x41 0 0) 0 0 3).dec.cur = 0 ∧
    ((storeOf 0x41 0 0).node 0).kind = .leaf := ⟨rfl, rfl, rfl⟩

/-- A decoder in phase PAYLOAD with 24 window bits and the code 'A' = 0. -/
theorem unpacking_inv : (unpacking (storeOf 0x41 0 1) 0xABCDEF00#32 24 1).dec.Inv := by
  have hkind : ((storeOf 65#8 0#32 1).node 0).kind = .internal := rfl
  have hnext : (storeOf 65#8 0#32 1).next = 2 := rfl
  refine ⟨storeOf_inv 0x41 0 1, ?_, ?_, ?_, ?_, ?_, ?_, ?_, ?_, ?_, ?_, ?_, ?_, ?_, ?_, ?_, ?_⟩ <;>
    simp [unpacking, State.reset, Dec.reset, hkind, hnext, s64, Config.lenMax]

theorem test_witness_WindowKeepsStreamOrder :
    (unpacking (storeOf 0x41 0 1) 0xABCDEF00#32 24 1).dec.Inv ∧
    (unpacking (storeOf 0x41 0 1) 0xABCDEF00#32 24 1).dec.phase = .payload ∧
    (unpacking (storeOf 0x41 0 1) 0xABCDEF00#32 24 1).dec.inEnd = false ∧
    (unpacking (storeOf 0x41 0 1) 0xABCDEF00#32 24 1).dec.vbits ≤ 24 ∧ 31 < 32 := ⟨unpacking_inv, rfl, rfl, by decide, by decide⟩

/-- A state whose decoder has the invariants, on either side of the limit of R26. -/
theorem test_witness_InRoomForetellsDecPut :
    (unpacking (storeOf 0x41 0 1) 0xABCDEF00#32 24 1).dec.Inv ∧ (unpacking (storeOf 0x41 0 1) 0xABCDEF00#32 24 1).dec.inRoom = true ∧
    (unpacking (storeOf 0x41 0 1) 0 25 1).dec.inRoom = false ∧ decBeforeLast.Inv ∧ decBeforeLast.inRoom = true :=
  ⟨unpacking_inv, rfl, rfl, decBeforeLast_inv, rfl⟩

/-! #### The whole machine -/

/-- A state with both engines at work and a command pending, and its next step. -/
theorem test_witness_EveryStepKeepsTheInvariant :
    State.Inv { unpacking (storeOf 0x41 0 1) 0xABCDEF00#32 24 1 with enc := countedAB.enc, pending := [.write 0 4 0x22000000#32] } ∧
    ∃ t, step { unpacking (storeOf 0x41 0 1) 0xABCDEF00#32 24 1 with
      enc := countedAB.enc, pending := [.write 0 4 0x22000000#32] } = .next t :=
  ⟨⟨encInv_AB, unpacking_inv, rfl, by decide⟩, _, rfl⟩

theorem test_witness_InvariantRulesOutFaults :
    State.Inv { State.reset with dec := decBeforeLast, pending := [.write 0 4 0x21000041#32] } :=
  ⟨encInv_reset, decBeforeLast_inv, rfl, by decide⟩

/-- ENC_COUNT, DEC_PUT and NOP interleaved. -/
theorem test_witness_EnginesAreIndependent :
    ∃ t, execAll [.encCount 0x41, .decPut 5, .nop, .encCount 0x42] State.reset = .next t := ⟨_, rfl⟩

/-- Both engines and the command error set, and a command that is none of the three that clear them. -/
theorem test_witness_ErrorsStayUntilCleared :
    ∃ s t, step s = .next t ∧ s.pending.head? ≠ some .reset ∧ s.enc.phase = .error ∧ s.dec.phase = .error ∧ s.cmdErr = true ∧
      s.pending.head? = some (.write 0 4 0x12000000#32) ∧ decode 0x12000000#32 ≠ .ok .encInit ∧
      decode 0x12000000#32 ≠ .ok .decInit ∧ decode 0x12000000#32 ≠ .ok .clrerr := by
  refine ⟨{ State.reset with
    enc := Enc.reset.raise .seq, dec := Dec.reset.raise .seq, cmdErr := true, cmdCause := .illegal,
    pending := [.write 0 4 0x12000000#32] }, _, rfl, by simp, rfl, rfl, rfl, rfl, ?_, ?_, ?_⟩ <;> decide

theorem test_witness_ErrorEntryChangesOnlyTheEngine :
    (∃ t, exec .encFinish State.reset = .next t ∧ State.reset.enc.phase ≠ .error ∧ t.enc.phase = .error) ∧
    ∃ t, exec .decNext { State.reset with dec := decBeforeLast } = .next t ∧ decBeforeLast.phase ≠ .error ∧
      t.dec.phase = .error ∧ decBeforeLast.Inv :=
  ⟨⟨_, rfl, by decide, rfl⟩, _, rfl, by decide, rfl, decBeforeLast_inv⟩

theorem test_witness_EnginesOnlyAppendOutput :
    (∃ t, exec .encFinish (encoding 0 5 3) = .next t) ∧ Instr.encFinish ≠ .encInit ∧
    (∃ t, exec .decNext (unpacking (storeOf 0x41 1 1) 0x80000000#32 8 2) = .next t) ∧ Instr.decNext ≠ .decInit :=
  ⟨⟨_, rfl⟩, by decide, ⟨_, rfl⟩, by decide⟩

/-- Counting "AB" from ENC_INIT leaves the state `countedAB`. -/
theorem count_AB : execAll (.encInit :: encCounts [0x41, 0x42]) State.reset = .next countedAB := by
  have h1 : (SymTab.const (0 : DWord)).get 0x41 + 1 = 1 := by simp
  simp only [encCounts, List.map_cons, List.map_nil, execAll, exec, execEncInit, execEncCount, Enc.count, Enc.init, Enc.countSymbol,
    State.withEnc]
  simp only [h1]
  rfl

/-- The input "AB": its codes fit 32 bits. -/
theorem test_witness_DecompressReturnsWhatCompressTook :
    State.reset.busy = false ∧ ([0x41, 0x42] : List Byte).length ≤ 2 ^ 63 - 1 ∧
    ∀ t, execAll (.encInit :: encCounts [0x41, 0x42] ++ [.encBuild]) State.reset = .next t → t.enc.err ≠ .codeTooLong := by
  refine ⟨rfl, by decide, fun t ht => ?_⟩
  have happ : ∀ (is : List Instr) (s u : State) (i : Instr), execAll is s = .next u → execAll (is ++ [i]) s = exec i u := by
    intro is
    induction is with
    | nil =>
      intro s u i h
      cases h
      simp only [List.nil_append, execAll]
      cases exec i s <;> rfl
    | cons j is ih =>
      intro s u i h
      simp only [List.cons_append, execAll] at h ⊢
      cases hj : exec j s with
      | next v =>
        rw [hj] at h
        exact ih v u i h
      | fault f => rw [hj] at h; cases h
      | refused r => rw [hj] at h; cases h
  rw [happ _ _ _ _ count_AB, test_encBuild] at ht
  cases ht
  decide

end Sys2Proof.Tests
end

/-! SUPPORT. The rules of one bus operation (10_state.md R23 to R35): reads that pop nothing, reads of the FIFOs, ignored writes;
and the fields of STATUS (R25). -/

namespace Sys2Proof.Machine

/-! ### One bus operation -/

theorem step_of_pending {s : State} {op : BusOp} {rest : List BusOp} (hp : s.pending = op :: rest) {t : State}
    (h : State.busAction { s with pending := rest } op = .done t) : step s = .next t := by
  simp only [step, hp, h]

theorem step_read {s : State} {off : Int} {rest : List BusOp} {r : Reg} (hp : s.pending = .read off 4 :: rest)
    (hr : Reg.select off 4 = .ok r) : step s = .next (State.hostRead { s with pending := rest } r) :=
  step_of_pending hp (by simp only [State.busAction, hr])

theorem step_write_ignored {s : State} {off : Int} {v : Word} {rest : List BusOp} {r : Reg}
    (hp : s.pending = .write off 4 v :: rest) (hr : Reg.select off 4 = .ok r) (hne : r ≠ .cmd) :
    step s = .next { s with pending := rest } :=
  step_of_pending hp (by simp only [State.busAction, hr, State.hostWrite, if_neg hne])

theorem Reg.select_aligned {off : Int} (h0 : 0 ≤ off) (h1 : off < 0x40) (h4 : off % 4 = 0) :
    Reg.select off 4 = .ok (Reg.atIndex (off.toNat / 4)) := by
  have hin : ¬(off < 0 ∨ (Config.windowBytes : Int) ≤ off) := by
    simp only [Config.windowBytes]
    omega
  simp only [Reg.select, if_neg hin, h4]
  rfl

theorem Reg.atIndex_eq_cmd {n : Nat} : Reg.atIndex n = .cmd ↔ n = 0 := by
  unfold Reg.atIndex
  split <;> simp_all

/-- A read that neither pops a FIFO nor meets a running command returns the register's value and changes nothing. -/
theorem State.hostRead_of_plain {s : State} {r : Reg} (hb : (s.busy && r.mayBeRunning) = false) (he : r ≠ .encOut)
    (hd : r ≠ .decOut) : s.hostRead r = { s with hostReads := s.hostReads ++ [s.regValue r] } := by
  have hafter : s.afterRead r = s := by
    unfold State.afterRead
    split
    · exact absurd rfl he
    · exact absurd rfl hd
    · simp [hb]
  have hvalue : s.readValue r = s.regValue r := by
    simp [State.readValue, hb]
  rw [State.hostRead, hafter, hvalue]

theorem step_read_plain {s : State} {off : Int} {rest : List BusOp} {r : Reg} (hp : s.pending = .read off 4 :: rest)
    (hr : Reg.select off 4 = .ok r) (hb : (s.busy && r.mayBeRunning) = false) (he : r ≠ .encOut) (hd : r ≠ .decOut) :
    step s = .next { s with pending := rest, hostReads := s.hostReads ++ [s.regValue r] } := by
  rw [step_read hp hr, State.hostRead_of_plain (s := { s with pending := rest }) hb he hd]
  cases r <;> rfl

theorem State.hostRead_encOut (s : State) : s.hostRead .encOut =
    { s with enc := { s.enc with out := s.enc.out.tail }, hostReads := s.hostReads ++ [fifoValue s.enc.out] } := by
  simp [State.hostRead, State.afterRead, State.readValue, State.regValue, Reg.mayBeRunning, State.withEnc]

theorem State.hostRead_decOut (s : State) : s.hostRead .decOut =
    { s with dec := { s.dec with out := s.dec.out.tail }, hostReads := s.hostReads ++ [fifoValue s.dec.out] } := by
  simp [State.hostRead, State.afterRead, State.readValue, State.regValue, Reg.mayBeRunning, State.withDec]

theorem State.hostRead_encOut_of_empty {s : State} (h : s.enc.out = []) :
    s.hostRead .encOut = { s with hostReads := s.hostReads ++ [0#32] } := by
  have hsame : { s.enc with out := s.enc.out.tail } = s.enc := by rw [h, List.tail_nil, ← h]
  rw [State.hostRead_encOut, hsame, h]
  rfl

theorem State.hostRead_decOut_of_empty {s : State} (h : s.dec.out = []) :
    s.hostRead .decOut = { s with hostReads := s.hostReads ++ [0#32] } := by
  have hsame : { s.dec with out := s.dec.out.tail } = s.dec := by rw [h, List.tail_nil, ← h]
  rw [State.hostRead_decOut, hsame, h]
  rfl

/-- A FIFO's value: bit 8 marks the byte in bits 7:0 (10_state.md R32, R33). -/
theorem fifoValue_cons_bits (b : Byte) (bs : List Byte) :
    (fifoValue (b :: bs)).extractLsb' 0 8 = b ∧ (fifoValue (b :: bs)).getLsbD 8 = true ∧
    (fifoValue (b :: bs)).extractLsb' 9 23 = 0#23 := by
  unfold fifoValue
  refine ⟨?_, ?_, ?_⟩
  · rw [BitVec.extractLsb'_setWidth_of_le (by decide), BitVec.extractLsb'_append_eq_of_add_le (by decide),
      BitVec.extractLsb'_eq_self]
  · rw [BitVec.getLsbD_setWidth, BitVec.getLsbD_append]
    rfl
  · rw [BitVec.extractLsb'_setWidth_of_le (by decide), BitVec.extractLsb'_append_eq_of_le (by decide)]
    rfl

/-! ### STATUS -/

/-- STATUS with its fields side by side, at the width their widths add up to. -/
def State.statusFields (s : State) :=
  (0 : BitVec 7)
    ++ flagBit s.dec.outValid ++ flagBit s.enc.outValid ++ flagBit s.dec.inEnd ++ flagBit s.dec.inRoom ++ flagBit s.dec.needIn
    ++ s.dec.err.code
    ++ (0 : BitVec 1) ++ s.dec.phase.code
    ++ s.enc.err.code
    ++ (0 : BitVec 2) ++ s.enc.phase.code
    ++ s.cmdCause.code ++ flagBit s.cmdErr ++ flagBit s.busy

theorem State.statusWord_extractLsb' (s : State) (start len : Nat) :
    s.statusWord.extractLsb' start len = s.statusFields.extractLsb' start len := rfl

theorem State.statusWord_getLsbD (s : State) (i : Nat) :
    s.statusWord.getLsbD i = s.statusFields.getLsbD i := rfl

/-- The one-bit fields of STATUS (10_state.md R25). -/
theorem State.statusWord_flags (s : State) :
    s.statusWord.getLsbD 0 = s.busy ∧ s.statusWord.getLsbD 1 = s.cmdErr ∧ s.statusWord.getLsbD 15 = false ∧
    s.statusWord.getLsbD 20 = s.dec.needIn ∧ s.statusWord.getLsbD 21 = s.dec.inRoom ∧
    s.statusWord.getLsbD 22 = s.dec.inEnd ∧ s.statusWord.getLsbD 23 = s.enc.outValid ∧
    s.statusWord.getLsbD 24 = s.dec.outValid := by
  simp only [-Nat.reduceAdd, -Nat.reduceSub, State.statusWord_getLsbD, State.statusFields, BitVec.getLsbD_append]
  simp [flagBit]

/-- The wider fields of STATUS (10_state.md R25). -/
theorem State.statusWord_codes (s : State) :
    s.statusWord.extractLsb' 2 2 = s.cmdCause.code ∧ s.statusWord.extractLsb' 4 2 = s.enc.phase.code ∧
    s.statusWord.extractLsb' 6 2 = 0#2 ∧ s.statusWord.extractLsb' 8 4 = s.enc.err.code ∧
    s.statusWord.extractLsb' 12 3 = s.dec.phase.code ∧ s.statusWord.extractLsb' 16 4 = s.dec.err.code ∧
    s.statusWord.extractLsb' 25 7 = 0#7 := by
  simp (disch := decide) only [-Nat.reduceAdd, -Nat.reduceSub, State.statusWord_extractLsb', State.statusFields,
    BitVec.extractLsb'_append_eq_of_le, BitVec.extractLsb'_append_eq_of_add_le]
  simp

end Sys2Proof.Machine

/-! SUPPORT. What each encoder command can do, said once (40_encoder.md R110 to R127), and from that: the encoder's invariants are
kept (10_state.md R36 to R41, R50), and output is only appended (R47). -/

namespace Sys2Proof.Machine

/-! ### What the encoder's commands can do -/

theorem Packer.Inv.empty : Packer.Inv ⟨0, 0⟩ :=
  ⟨by decide, by decide⟩

/-- Pack keeps the packer's bounds (10_state.md R39): the drain stops at 32 bits with the code, or below 8 without it. -/
theorem Packer.Inv.pack {p : Packer} (h : p.Inv) {code : Word} {n : Nat} (hn : n ≤ 32) (hcode : code.toNat < 2 ^ n) :
    (p.pack code n).1.Inv := by
  obtain ⟨-, hacc, -, hstop⟩ :=
    Packer.drain_spec (fun live => decide (32 < live + n)) p.live p h.acc_lt (by omega)
  have hfit : (Packer.drain (fun live => decide (32 < live + n)) p.live p).1.live + n ≤ 39 := by
    simp only [decide_eq_false_iff_not] at hstop
    omega
  obtain ⟨-, hacc', hlive'⟩ := Packer.append_spec code n _ hacc hcode (by omega)
  exact ⟨hlive'.trans_le hfit, hacc'⟩

/-- Everything ENC_COUNT can do (40_encoder.md R110, R112). -/
theorem Enc.count_cases (b : Byte) (e : Enc) :
    e.count b = e ∨ (∃ c, c ≠ .none ∧ e.count b = e.raise c) ∨
    (e.phase = .count ∧ e.encLen.toNat ≠ Config.lenMax ∧
      e.count b = { e with freq := e.freq.set b (e.freq.get b + 1), encLen := e.encLen + 1 }) := by
  unfold Enc.count
  split
  · rename_i hp
    unfold Enc.countSymbol
    split
    · exact .inr (.inl ⟨_, by decide, rfl⟩)
    · rename_i hlen
      exact .inr (.inr ⟨hp, hlen, rfl⟩)
  · exact .inr (.inl ⟨_, by decide, rfl⟩)
  · exact .inr (.inl ⟨_, by decide, rfl⟩)
  · exact .inl rfl

/-- Everything ENC_BUILD can do (40_encoder.md R110, R114, R122). -/
theorem Enc.build_cases {e e' : Enc} (h : e.build = .ok e') :
    e' = e ∨ (∃ c, c ≠ .none ∧ e' = e.raise c) ∨
    (e.phase = .count ∧ e.encLen = 0 ∧ e' = (e.emit (List.replicate Config.hdrBytes 0)).enterEncode) ∨
    (e.phase = .count ∧ ∃ root, buildTree e.freq = some root ∧ (∀ c ∈ genCodes root, c.len ≤ Config.maxCodeLen) ∧
      e' = ((e.withCodes (genCodes root)).emit (headerBytes (e.withCodes (genCodes root)))).enterEncode) := by
  unfold Enc.build at h
  split at h
  · rename_i hp
    unfold Enc.buildTable at h
    split at h
    · rename_i hlen
      cases h
      exact .inr (.inr (.inl ⟨hp, hlen, rfl⟩))
    · split at h
      · rename_i root hroot
        cases h
        by_cases hfits : ∀ c ∈ genCodes root, c.len ≤ Config.maxCodeLen
        · exact .inr (.inr (.inr ⟨hp, root, hroot, hfits, Enc.buildFrom_of_fits hfits⟩))
        · exact .inr (.inl ⟨_, by decide, Enc.buildFrom_of_long (by simpa using hfits)⟩)
      · cases h
  · cases h
    exact .inr (.inl ⟨_, by decide, rfl⟩)
  · cases h
    exact .inr (.inl ⟨_, by decide, rfl⟩)
  · cases h
    exact .inl rfl

theorem Enc.build_freq {e e' : Enc} (h : e.build = .ok e') : e'.freq = e.freq := by
  rcases Enc.build_cases h with rfl | ⟨c, -, rfl⟩ | ⟨-, -, rfl⟩ | ⟨-, root, -, -, rfl⟩ <;> rfl

/-- Everything ENC_PUT can do (40_encoder.md R110, R125). -/
theorem Enc.put_cases (b : Byte) (e : Enc) :
    e.put b = e ∨ (∃ c, c ≠ .none ∧ e.put b = e.raise c) ∨
    (e.phase = .encode ∧ e.putCnt ≠ e.encLen ∧
      e.put b = { e.withPacked (e.packer.pack (e.codePat.get b) (e.codeLen.get b)) with putCnt := e.putCnt + 1 }) := by
  unfold Enc.put
  split
  · exact .inr (.inl ⟨_, by decide, rfl⟩)
  · rename_i hp
    unfold Enc.putSymbol
    split
    · exact .inr (.inl ⟨_, by decide, rfl⟩)
    · split
      · exact .inr (.inl ⟨_, by decide, rfl⟩)
      · rename_i hcnt
        exact .inr (.inr ⟨hp, hcnt, rfl⟩)
  · exact .inr (.inl ⟨_, by decide, rfl⟩)
  · exact .inl rfl

/-- Everything ENC_FINISH can do (40_encoder.md R110, R127). -/
theorem Enc.finish_cases (e : Enc) :
    e.finish = e ∨ (∃ c, c ≠ .none ∧ e.finish = e.raise c) ∨
    (e.phase = .encode ∧ e.putCnt = e.encLen ∧ e.finish = { e.withPacked e.packer.flush with phase := .done }) := by
  unfold Enc.finish
  split
  · exact .inr (.inl ⟨_, by decide, rfl⟩)
  · rename_i hp
    unfold Enc.finishPass
    split
    · rename_i hcnt
      exact .inr (.inr ⟨hp, hcnt, rfl⟩)
    · exact .inr (.inl ⟨_, by decide, rfl⟩)
  · exact .inr (.inl ⟨_, by decide, rfl⟩)
  · exact .inl rfl

/-! ### The sum of all counts, and the codes of a built tree -/

theorem get_le_totalCount (freq : SymTab DWord) (b : Byte) : (freq.get b).toNat ≤ totalCount freq :=
  List.le_sum_of_mem (List.mem_map_of_mem (mem_allSymbols b))

theorem totalCount_const_zero : totalCount (SymTab.const 0) = 0 := by
  have hp : presentSymbols (SymTab.const 0) = [] := by simp [presentSymbols]
  rw [totalCount_eq_present, hp]
  rfl

/-- A 64-bit counter below its greatest value counts without wrapping. -/
theorem toNat_add_one {v : DWord} (h : v.toNat + 1 < 2 ^ 64) : (v + 1).toNat = v.toNat + 1 :=
  BitVec.toNat_add_of_lt h

theorem totalCount_eq_zero {freq : SymTab DWord} (h : totalCount freq = 0) (b : Byte) : freq.get b = 0 := by
  have hle := get_le_totalCount freq b
  exact BitVec.eq_of_toNat_eq (Nat.le_zero.1 (hle.trans_eq h))

theorem totalCount_set_succ (freq : SymTab DWord) (b : Byte) (h : (freq.get b).toNat + 1 < 2 ^ 64) :
    totalCount (freq.set b (freq.get b + 1)) = totalCount freq + 1 := by
  obtain ⟨pre, post, hsplit⟩ := List.append_of_mem (mem_allSymbols b)
  have hnd := nodup_allSymbols
  rw [hsplit, List.nodup_append, List.nodup_cons] at hnd
  obtain ⟨-, ⟨hpost, -⟩, hpre⟩ := hnd
  have hsame : ∀ l : List Byte, b ∉ l →
      l.map (fun s => ((freq.set b (freq.get b + 1)).get s).toNat) = l.map fun s => (freq.get s).toNat :=
    fun l hl => List.map_congr_left fun s hs => by
      rw [SymTab.get_set_of_ne freq _ (ne_of_mem_of_not_mem hs hl).symm]
  simp only [totalCount, hsplit, List.map_append, List.map_cons, List.sum_append, List.sum_cons,
    hsame pre fun hm => hpre b hm b (by simp) rfl, hsame post hpost, SymTab.get_set_self, toNat_add_one h]
  omega

/-- The merges lose no symbol and invent none (40_encoder.md R116, R118). -/
theorem buildTree_symbols {freq : SymTab DWord} {root : HTree} (h : buildTree freq = some root) :
    root.symbols.Perm (presentSymbols freq) := by
  have hinit : ((initialList freq).flatMap HTree.symbols).Perm (presentSymbols freq) := by
    refine ((initialList_perm freq).flatMap_right _).trans (List.Perm.of_eq ?_)
    rw [filterMap_presentLeaf]
    simp [List.flatMap_map, HTree.symbols]
  have hroot := mergeLoop_induct (fun l => (l.flatMap HTree.symbols).Perm (presentSymbols freq))
    (fun a b rest hl => by
      refine ((insertAfterEqual_perm (mergeNodes a b) rest).flatMap_right _).trans ?_
      simpa [mergeNodes, HTree.symbols] using hl) _ _ hinit root h
  simpa using hroot

theorem mem_presentSymbols {freq : SymTab DWord} {s : Byte} : s ∈ presentSymbols freq ↔ freq.get s ≠ 0 := by
  simp [presentSymbols]

theorem lenTable_eq_zero_iff {freq : SymTab DWord} {root : HTree} (h : buildTree freq = some root) (s : Byte) :
    (lenTable (genCodes root)).get s = 0 ↔ freq.get s = 0 := by
  have hmem : s ∈ (genCodes root).map CodeEntry.sym ↔ freq.get s ≠ 0 := by
    rw [genCodes_symbols, (buildTree_symbols h).mem_iff, mem_presentSymbols]
  rcases codeTables_get (genCodes root) s with ⟨-, hlen, hno⟩ | ⟨c, hc, rfl, -, hlen⟩
  · have habsent : s ∉ (genCodes root).map CodeEntry.sym := by simpa using hno
    exact ⟨fun _ => not_not.1 (mt hmem.2 habsent), fun _ => hlen⟩
  · have hpresent := hmem.1 (List.mem_map_of_mem hc)
    have hpos := (genCodes_bounds root c hc).2
    exact ⟨fun hzero => by omega, fun hzero => absurd hzero hpresent⟩

theorem lenTable_le {codes : List CodeEntry} {n : Nat} (h : ∀ c ∈ codes, c.len ≤ n) (s : Byte) :
    (lenTable codes).get s ≤ n := by
  rcases codeTables_get codes s with ⟨-, hlen, -⟩ | ⟨c, hc, -, -, hlen⟩
  · omega
  · exact hlen.trans_le (h c hc)

theorem patTable_lt (root : HTree) (s : Byte) :
    ((patTable (genCodes root)).get s).toNat < 2 ^ (lenTable (genCodes root)).get s := by
  rcases codeTables_get (genCodes root) s with ⟨hpat, hlen, -⟩ | ⟨c, hc, -, hpat, hlen⟩
  · simp [hpat, hlen]
  · rw [hpat, hlen, BitVec.toNat_ofNat]
    exact (Nat.mod_le _ _).trans_lt (genCodes_bounds root c hc).1

/-! ### Output -/

theorem Enc.count_out (b : Byte) (e : Enc) : (e.count b).out = e.out := by
  rcases e.count_cases b with heq | ⟨c, -, heq⟩ | ⟨-, -, heq⟩ <;> simp [heq]

theorem Enc.build_out_prefix {e e' : Enc} (h : e.build = .ok e') : e.out <+: e'.out := by
  rcases Enc.build_cases h with rfl | ⟨c, -, rfl⟩ | ⟨-, -, rfl⟩ | ⟨-, root, -, -, rfl⟩
  · exact List.prefix_refl _
  · exact List.prefix_refl _
  · exact List.prefix_append _ _
  · exact List.prefix_append _ _

theorem Enc.put_out_prefix (b : Byte) (e : Enc) : e.out <+: (e.put b).out := by
  rcases e.put_cases b with heq | ⟨c, -, heq⟩ | ⟨-, -, heq⟩ <;> simp [heq, Enc.withPacked]

theorem Enc.finish_out_prefix (e : Enc) : e.out <+: e.finish.out := by
  rcases e.finish_cases with heq | ⟨c, -, heq⟩ | ⟨-, -, heq⟩ <;> simp [heq, Enc.withPacked]

/-! ### The encoder's invariants -/

namespace Enc.Inv

theorem reset : Enc.reset.Inv := by
  refine ⟨totalCount_const_zero.symm, ?_, ?_, .empty, ?_, ?_, ?_, ?_, ?_⟩ <;> simp [Enc.reset]

variable {e : Enc} (h : e.Inv)
include h

theorem withOut (out : List Byte) : Enc.Inv { e with out := out } :=
  { h with }

theorem raise {c : EncErr} (hc : c ≠ .none) : (e.raise c).Inv :=
  { h with
    put_le := by simp
    coded_iff := by simp
    uncoded := by simp
    err_iff := by simpa using hc }

theorem count (b : Byte) : (e.count b).Inv := by
  rcases e.count_cases b with heq | ⟨c, hc, heq⟩ | ⟨hp, hlen, heq⟩ <;> rw [heq]
  · exact h
  · exact h.raise hc
  · have hlt : e.encLen.toNat + 1 ≤ Config.lenMax := by
      have := h.len_le
      omega
    have hone : (e.encLen + 1).toNat = e.encLen.toNat + 1 :=
      toNat_add_one (by simp only [Config.lenMax] at hlt; omega)
    have hfreq : (e.freq.get b).toNat + 1 < 2 ^ 64 := by
      have := get_le_totalCount e.freq b
      have := h.len_sum
      simp only [Config.lenMax] at hlt
      omega
    exact { h with
      len_sum := by rw [hone, totalCount_set_succ _ _ hfreq, h.len_sum]
      len_le := hone.trans_le hlt
      put_le := by simp [hp]
      coded_iff := by simp [hp] }

theorem build {e' : Enc} (hb : e.build = .ok e') : e'.Inv := by
  rcases Enc.build_cases hb with rfl | ⟨c, hc, rfl⟩ | ⟨hp, hlen, rfl⟩ | ⟨hp, root, hroot, hfits, rfl⟩
  · exact h
  · exact h.raise hc
  · have herr := h.err_iff.2 (by simp [hp])
    have hnone : totalCount e.freq = 0 := by rw [← h.len_sum, hlen]; rfl
    exact { h with
      put_le := by simp [Enc.enterEncode]
      packer := .empty
      coded_iff := fun _ s => by simp [Enc.enterEncode, h.uncoded hp s, totalCount_eq_zero hnone s]
      uncoded := by simp [Enc.enterEncode]
      err_iff := by simp [Enc.enterEncode, herr] }
  · have herr := h.err_iff.2 (by simp [hp])
    exact { h with
      put_le := by simp [Enc.enterEncode]
      packer := .empty
      code_len_le := lenTable_le hfits
      code_pat_lt := patTable_lt root
      coded_iff := fun _ => lenTable_eq_zero_iff hroot
      uncoded := by simp [Enc.enterEncode]
      err_iff := by simp [Enc.enterEncode, Enc.withCodes, herr] }

theorem put (b : Byte) : (e.put b).Inv := by
  rcases e.put_cases b with heq | ⟨c, hc, heq⟩ | ⟨hp, hcnt, heq⟩ <;> rw [heq]
  · exact h
  · exact h.raise hc
  · have hle := h.put_le (.inl hp)
    have hne : e.putCnt.toNat ≠ e.encLen.toNat := fun he => hcnt (BitVec.eq_of_toNat_eq he)
    have hone : (e.putCnt + 1).toNat ≤ e.encLen.toNat := by
      rw [toNat_add_one (by omega)]
      omega
    exact { h with
      put_le := fun _ => hone
      packer := h.packer.pack (h.code_len_le b) (h.code_pat_lt b) }

theorem finish : e.finish.Inv := by
  rcases e.finish_cases with heq | ⟨c, hc, heq⟩ | ⟨hp, hcnt, heq⟩ <;> rw [heq]
  · exact h
  · exact h.raise hc
  · have herr := h.err_iff.2 (by simp [hp])
    exact { h with
      put_le := fun _ => h.put_le (.inl hp)
      packer := .empty
      coded_iff := fun _ => h.coded_iff (.inl hp)
      uncoded := by simp
      err_iff := by simp [Enc.withPacked, herr] }

end Enc.Inv

end Sys2Proof.Machine

/-! SUPPORT. What each decoder command can do, said once (41_decoder.md R160 to R178), and from that: the decoder's invariants are
kept (10_state.md R42 to R45, R50), output is only appended (R47), and DEC_IN_ROOM foretells DEC_PUT (R26). -/

namespace Sys2Proof.Machine

/-! ### What the decoder's commands can do -/

theorem attachLeaf_failed {sym : Byte} {pat : Word} {p : NodeIdx} {st st' : NodeStore} {code : DecErr}
    (h : attachLeaf sym pat p st = .failed code st') : code = .treeConflict := by
  unfold attachLeaf at h
  split at h
  · cases h
    rfl
  · split at h <;> cases h

theorem insertWalk_failed {sym : Byte} {pat : Word} {i : Nat} {p : NodeIdx} {st st' : NodeStore} {code : DecErr}
    (h : insertWalk sym pat i p st = .failed code st') : code = .treeConflict := by
  induction i generalizing p st with
  | zero => exact attachLeaf_failed h
  | succ i ih =>
    unfold insertWalk at h
    split at h
    · split at h
      · cases h
      · exact ih h
    · split at h
      · cases h
        rfl
      · exact ih h

/-- The two errors InsertEntry raises (41_decoder.md R166, R168). -/
theorem insertEntry_failed_code {sym : Byte} {pat : Word} {n : Nat} {st st' : NodeStore} {code : DecErr}
    (h : insertEntry sym pat n st = .failed code st') : code = .codeLen ∨ code = .treeConflict := by
  unfold insertEntry at h
  split at h
  · cases h
    exact .inl rfl
  · refine .inr ?_
    split at h
    · unfold insertRootLeaf at h
      split at h <;> cases h
      rfl
    · unfold insertCode at h
      split at h
      · cases h
        rfl
      · exact insertWalk_failed h

theorem insertEntry_inserted {sym : Byte} {pat : Word} {n : Nat} {st st' : NodeStore} (hst : st.Inv)
    (h : insertEntry sym pat n st = .inserted st') :
    st'.Inv ∧ st'.next ≤ st.next + 32 ∧ (st'.node 0).kind ≠ .empty := by
  simpa [h] using insertEntry_cases sym pat n st hst

theorem insertEntry_failed {sym : Byte} {pat : Word} {n : Nat} {st st' : NodeStore} {code : DecErr} (hst : st.Inv)
    (h : insertEntry sym pat n st = .failed code st') :
    code ≠ .none ∧ st'.Inv ∧ st'.next = st.next ∧ ((st.node 0).kind ≠ .empty → (st'.node 0).kind ≠ .empty) := by
  simpa [h] using insertEntry_cases sym pat n st hst

/-- Everything HeaderDone can do (41_decoder.md R164). -/
theorem Dec.headerDone_cases (d : Dec) :
    (∃ c ∈ [DecErr.badLength, .badCount, .emptyTable], d.headerDone = d.raise c) ∨
    (d.len = 0 ∧ d.tcount = 0 ∧ d.headerDone = { d with phase := .done }) ∨
    (0 ≤ s64 d.len ∧ 0 < d.tcount.toNat ∧ d.tcount.toNat ≤ Config.maxEntries ∧
      d.headerDone = { d with entDone := 0, phase := .table }) := by
  unfold Dec.headerDone
  split
  · exact .inl ⟨_, by simp, rfl⟩
  · rename_i hlen
    split
    · exact .inl ⟨_, by simp, rfl⟩
    · rename_i hcount
      split
      · rename_i hzero
        split
        · rename_i hlen0
          exact .inr (.inl ⟨hlen0, hzero, rfl⟩)
        · exact .inl ⟨_, by simp, rfl⟩
      · rename_i hzero
        have hpos : d.tcount.toNat ≠ 0 := fun h => hzero (BitVec.eq_of_toNat_eq h)
        exact .inr (.inr ⟨by omega, by omega, by omega, rfl⟩)

/-- A header byte goes into one of the two header fields (41_decoder.md R163); the twelfth also ends the header. -/
theorem Dec.hdrByte_cases (b : Byte) (d : Dec) :
    ∃ len tcount,
      (d.dpos + 1 = Config.hdrBytes ∧ d.hdrByte b = Dec.headerDone { d with dpos := 0, len := len, tcount := tcount }) ∨
      (d.dpos + 1 ≠ Config.hdrBytes ∧ d.hdrByte b = { d with dpos := d.dpos + 1, len := len, tcount := tcount }) := by
  obtain ⟨len, tcount, hfield⟩ : ∃ len tcount, d.withHdrByte b = { d with len := len, tcount := tcount } := by
    unfold Dec.withHdrByte
    split
    · exact ⟨_, _, rfl⟩
    · exact ⟨_, _, rfl⟩
  refine ⟨len, tcount, ?_⟩
  unfold Dec.hdrByte
  rw [hfield]
  split
  · rename_i hlast
    exact .inl ⟨hlast, rfl⟩
  · rename_i hlast
    exact .inr ⟨hlast, rfl⟩

/-- A table byte goes into one of the three entry registers (41_decoder.md R165); the sixth also ends the entry. -/
theorem Dec.tableByte_cases (b : Byte) (d : Dec) :
    ∃ sym pat len,
      (d.dpos + 1 = Config.entryBytes ∧
        d.tableByte b = Dec.finishEntry { d with dpos := 0, eSym := sym, ePat := pat, eLen := len }) ∨
      (d.dpos + 1 ≠ Config.entryBytes ∧
        d.tableByte b = .ok { d with dpos := d.dpos + 1, eSym := sym, ePat := pat, eLen := len }) := by
  obtain ⟨sym, pat, len, hfield⟩ :
      ∃ sym pat len, d.withEntryByte b = { d with eSym := sym, ePat := pat, eLen := len } := by
    unfold Dec.withEntryByte
    split
    · exact ⟨_, _, _, rfl⟩
    · split
      · exact ⟨_, _, _, rfl⟩
      · exact ⟨_, _, _, rfl⟩
  refine ⟨sym, pat, len, ?_⟩
  unfold Dec.tableByte
  rw [hfield]
  split
  · rename_i hlast
    exact .inl ⟨hlast, rfl⟩
  · rename_i hlast
    exact .inr ⟨hlast, rfl⟩

theorem Dec.finishEntry_cases {d d' : Dec} (h : d.finishEntry = .ok d') :
    (∃ st, insertEntry d.eSym d.ePat d.eLen.toNat d.store = .inserted st ∧ d' = d.entryDone st) ∨
    ∃ code st, insertEntry d.eSym d.ePat d.eLen.toNat d.store = .failed code st ∧
      d' = Dec.raise code { d with store := st } := by
  unfold Dec.finishEntry at h
  split at h
  · rename_i st hst
    cases h
    exact .inl ⟨st, hst, rfl⟩
  · rename_i code st hst
    cases h
    exact .inr ⟨code, st, hst, rfl⟩
  · cases h

/-- The decoder with one more entry in its tree (41_decoder.md R165). -/
def Dec.withEntry (st : NodeStore) (d : Dec) : Dec :=
  { d with store := st, eSym := 0, ePat := 0, eLen := 0, entDone := d.entDone + 1 }

/-- After an entry the table goes on, or it ends the stream, or it ends with a payload to come (41_decoder.md R165, R171). -/
theorem Dec.entryDone_cases (st : NodeStore) (d : Dec) :
    (d.entDone + 1 ≠ d.tcount.toNat ∧ d.entryDone st = d.withEntry st) ∨
    (d.entDone + 1 = d.tcount.toNat ∧ d.len = 0 ∧ d.entryDone st = { d.withEntry st with phase := .done }) ∨
    (d.entDone + 1 = d.tcount.toNat ∧ d.len ≠ 0 ∧ d.entryDone st = (d.withEntry st).enterPayload) := by
  have hdone : d.entryDone st =
      if d.entDone + 1 = d.tcount.toNat then (d.withEntry st).tableDone else d.withEntry st := rfl
  have htable : (d.withEntry st).tableDone =
      if d.len = 0 then { d.withEntry st with phase := .done } else (d.withEntry st).enterPayload := rfl
  rw [hdone, htable]
  split
  · rename_i hlast
    split
    · rename_i hlen
      exact .inr (.inl ⟨hlast, hlen, rfl⟩)
    · rename_i hlen
      exact .inr (.inr ⟨hlast, hlen, rfl⟩)
  · rename_i hmore
    exact .inl ⟨hmore, rfl⟩

/-- Everything WinByte can do (41_decoder.md R173). -/
theorem Dec.winByte_cases (b : Byte) (d : Dec) :
    (d.inEnd = true ∧ d.winByte b = d.raise .seq) ∨
    (d.inEnd = false ∧ 24 < d.vbits ∧ d.winByte b = d.raise .inOverrun) ∨
    (d.inEnd = false ∧ d.vbits ≤ 24 ∧ d.winByte b =
      { d with win := d.win ||| b.setWidth 32 <<< (24 - d.vbits), vbits := d.vbits + 8, needIn := false }) := by
  unfold Dec.winByte
  split
  · rename_i hend
    exact .inl ⟨hend, rfl⟩
  · rename_i hend
    split
    · rename_i hfull
      exact .inr (.inl ⟨by simpa using hend, hfull, rfl⟩)
    · rename_i hroom
      exact .inr (.inr ⟨by simpa using hend, by omega, rfl⟩)

theorem Dec.doneByte_cases (b : Byte) (d : Dec) :
    (d.inEnd = true ∧ d.doneByte b = d.raise .seq) ∨ (d.inEnd = false ∧ d.doneByte b = d) := by
  unfold Dec.doneByte
  split
  · rename_i hend
    exact .inl ⟨hend, rfl⟩
  · rename_i hend
    exact .inr ⟨by simpa using hend, rfl⟩

/-- What DEC_PUT does in each phase (41_decoder.md R160, R162). -/
theorem Dec.put_cases {b : Byte} {d d' : Dec} (h : d.put b = .ok d') :
    (d.phase = .hdr ∧ d' = d.hdrByte b) ∨ (d.phase = .table ∧ d.tableByte b = .ok d') ∨
    (d.phase = .payload ∧ d' = d.winByte b) ∨ (d.phase = .done ∧ d' = d.doneByte b) ∨ (d.phase = .error ∧ d' = d) := by
  unfold Dec.put at h
  split at h
  case h_1 hp => cases h; exact .inl ⟨hp, rfl⟩
  case h_2 hp => exact .inr (.inl ⟨hp, h⟩)
  case h_3 hp => cases h; exact .inr (.inr (.inl ⟨hp, rfl⟩))
  case h_4 hp => cases h; exact .inr (.inr (.inr (.inl ⟨hp, rfl⟩)))
  case h_5 hp => cases h; exact .inr (.inr (.inr (.inr ⟨hp, rfl⟩)))

/-- Everything DEC_NEXT can do (41_decoder.md R160, R176). -/
theorem Dec.next_cases (d : Dec) :
    d.next = d ∨ d.next = d.raise .seq ∨ (d.phase = .payload ∧ d.next = d.nextSymbol) := by
  unfold Dec.next
  split
  case h_3 hp => exact .inr (.inr ⟨hp, rfl⟩)
  case h_5 => exact .inl rfl
  all_goals exact .inr (.inl rfl)

/-- Everything DEC_END can do (41_decoder.md R160, R178). -/
theorem Dec.finish_cases (d : Dec) :
    d.finish = d ∨ (∃ c, c ≠ .none ∧ d.finish = d.raise c) ∨ d.finish = { d with inEnd := true } := by
  have hend : (∃ c, c ≠ .none ∧ d.endInput = d.raise c) ∨ d.endInput = { d with inEnd := true } := by
    unfold Dec.endInput
    split
    · exact .inl ⟨_, by decide, rfl⟩
    · exact .inr rfl
  unfold Dec.finish
  split
  case h_1 => exact .inr (.inl ⟨_, by decide, rfl⟩)
  case h_2 => exact .inr (.inl ⟨_, by decide, rfl⟩)
  case h_3 => exact .inr hend
  case h_4 => exact .inr hend
  case h_5 => exact .inl rfl

/-- A decoded symbol is appended and counted; the last one ends the stream (41_decoder.md R176). -/
theorem Dec.emitSymbol_cases (sym : Byte) (win : Word) (vbits : Nat) (d : Dec) :
    (d.rem - 1 ≠ 0 ∧ d.emitSymbol sym win vbits =
      { d with out := d.out ++ [sym], win := win, vbits := vbits, rem := d.rem - 1, cur := 0, needIn := false }) ∨
    (d.rem - 1 = 0 ∧ d.emitSymbol sym win vbits =
      { d with
        out := d.out ++ [sym], win := win, vbits := vbits, rem := 0, cur := 0, needIn := false, phase := .done }) := by
  unfold Dec.emitSymbol
  by_cases hlast : d.rem - 1 = 0
  · rw [if_pos hlast, hlast]
    exact .inr ⟨rfl, rfl⟩
  · rw [if_neg hlast]
    exact .inl ⟨hlast, rfl⟩

/-- Out of window bits, DEC_NEXT stops where it is: TRUNCATED after DEC_END, else it asks for input (41_decoder.md R176). -/
theorem Dec.starve_cases (win : Word) (cur : NodeIdx) (d : Dec) :
    (d.inEnd = true ∧ d.starve win cur = Dec.raise .truncated { d with win := win, vbits := 0, cur := cur }) ∨
    (d.inEnd = false ∧ d.starve win cur = { d with win := win, vbits := 0, cur := cur, needIn := true }) := by
  cases hend : d.inEnd with
  | true => exact .inl ⟨rfl, by simp [Dec.starve, hend]⟩
  | false => exact .inr ⟨rfl, by simp [Dec.starve, hend]⟩

/-! ### The window's unused bits -/

/-- A consumed bit leaves the window at its high end, and a 0 comes in at its low end (10_state.md R44). -/
theorem window_shiftLeft_low (win : Word) {v k : Nat} (hk : k ≤ v) (hv : v ≤ 32) (h : win.toNat % 2 ^ (32 - v) = 0) :
    (win <<< k).toNat % 2 ^ (32 - (v - k)) = 0 := by
  rw [BitVec.toNat_shiftLeft, Nat.shiftLeft_eq, Nat.mod_mod_of_dvd _ (Nat.pow_dvd_pow 2 (by omega)),
    show 32 - (v - k) = 32 - v + k by omega, Nat.pow_add]
  exact Nat.mod_eq_zero_of_dvd (Nat.mul_dvd_mul_right (Nat.dvd_of_mod_eq_zero h) _)

/-- A byte that comes in below the `v` window bits leaves the bits below it 0 (41_decoder.md R173). -/
theorem window_or_byte_low (win : Word) (b : Byte) {v : Nat} (hv : v ≤ 24) (h : win.toNat % 2 ^ (32 - v) = 0) :
    (win ||| b.setWidth 32 <<< (24 - v)).toNat % 2 ^ (32 - (v + 8)) = 0 := by
  have hwin : win.toNat % 2 ^ (24 - v) = 0 :=
    Nat.mod_eq_zero_of_dvd ((Nat.pow_dvd_pow 2 (by omega)).trans (Nat.dvd_of_mod_eq_zero h))
  have hbyte : (b.setWidth 32 <<< (24 - v)).toNat % 2 ^ (24 - v) = 0 := by
    rw [BitVec.toNat_shiftLeft, Nat.shiftLeft_eq, Nat.mod_mod_of_dvd _ (Nat.pow_dvd_pow 2 (by omega))]
    exact Nat.mul_mod_left _ _
  rw [BitVec.toNat_or, show 32 - (v + 8) = 24 - v by omega, Nat.or_mod_two_pow, hwin, hbyte]
  rfl

/-! ### The decoder's invariants -/

namespace Dec.Inv

theorem reset : Dec.reset.Inv := by
  refine ⟨.empty, ?_, ?_, ?_, ?_, ?_, ?_, ?_, ?_, ?_, ?_, ?_, ?_, ?_, ?_, ?_, ?_⟩ <;> simp [Dec.reset]

variable {d : Dec} (h : d.Inv)
include h

/-- No invariant speaks of the two flags or of the FIFO. -/
theorem withFlags (needIn inEnd : Bool) (out : List Byte) :
    Dec.Inv { d with needIn := needIn, inEnd := inEnd, out := out } :=
  { h with }

theorem raise {c : DecErr} (hc : c ≠ .none) : (d.raise c).Inv :=
  { h with
    dpos_hdr := by simp
    dpos_table := by simp
    fresh_hdr := by simp
    entries := by simp
    entries_left := by simp
    cur_used := by simp
    rem_payload := by simp
    rem_done := by simp
    len_nonneg := by simp
    rem_before := by simp
    err_iff := by simpa using hc }

/-- In HDR the header fields are free. -/
theorem withHeader (hp : d.phase = .hdr) {k : Nat} (hk : k < Config.hdrBytes) (len : DWord) (tcount : Word) :
    Dec.Inv { d with dpos := k, len := len, tcount := tcount } :=
  { h with
    dpos_hdr := fun _ => hk
    dpos_table := by simp [hp]
    entries := by simp [hp]
    entries_left := by simp [hp]
    rem_payload := by simp [hp]
    len_nonneg := by simp [hp] }

theorem headerDone (hp : d.phase = .hdr) (hk : d.dpos = 0) : d.headerDone.Inv := by
  have herr := h.err_iff.2 (by simp [hp])
  have hrem := h.rem_before (.inl hp)
  obtain ⟨hent, hstore⟩ := h.fresh_hdr hp
  rcases d.headerDone_cases with ⟨c, hc, heq⟩ | ⟨hlen, htc, heq⟩ | ⟨hlen, hpos, hle, heq⟩ <;> rw [heq]
  · exact h.raise (by rintro rfl; simp at hc)
  · exact { h with
      dpos_hdr := by simp
      dpos_table := by simp
      fresh_hdr := by simp
      entries := by simp [hent, htc]
      entries_left := by simp
      cur_used := by simp
      rem_payload := by simp
      rem_done := fun _ => hrem
      len_nonneg := by simp [hlen, s64]
      rem_before := by simp
      err_iff := by simp [herr] }
  · exact { h with
      next_le := by simp [hstore]
      dpos_hdr := by simp
      dpos_table := fun _ => by rw [hk]; decide
      fresh_hdr := by simp
      entries := fun _ => ⟨Nat.zero_le _, hle⟩
      entries_left := fun _ => hpos
      root_used := by simp
      cur_used := by simp
      rem_payload := by simp
      rem_done := by simp
      len_nonneg := fun _ => hlen
      rem_before := fun _ => hrem
      err_iff := by simp [herr] }

theorem hdrByte (hp : d.phase = .hdr) (b : Byte) : (d.hdrByte b).Inv := by
  have hk := h.dpos_hdr hp
  obtain ⟨len, tcount, ⟨-, heq⟩ | ⟨hmore, heq⟩⟩ := d.hdrByte_cases b <;> rw [heq]
  · exact (h.withHeader hp (by decide) len tcount).headerDone hp rfl
  · exact h.withHeader hp (by omega) len tcount

/-- In TABLE the entry registers are free. -/
theorem withEntryRegs (hp : d.phase = .table) {k : Nat} (hk : k < Config.entryBytes) (sym : Byte) (pat : Word) (len : Byte) :
    Dec.Inv { d with dpos := k, eSym := sym, ePat := pat, eLen := len } :=
  { h with
    dpos_hdr := by simp [hp]
    dpos_table := fun _ => hk }

/-- The entry just inserted is counted: it took at most 32 nodes, and the root is used (41_decoder.md R165, R169). -/
theorem entryDone (hp : d.phase = .table) {st : NodeStore} (hst : st.Inv) (hnext : st.next ≤ d.store.next + 32)
    (hroot : (st.node 0).kind ≠ .empty) : (d.entryDone st).Inv := by
  have herr := h.err_iff.2 (by simp [hp])
  have hrem := h.rem_before (.inr hp)
  have hleft := h.entries_left hp
  obtain ⟨-, htc⟩ := h.entries (.inl hp)
  have hlen := h.len_nonneg (.inl hp)
  have hnext' : st.next ≤ 1 + 32 * (d.entDone + 1) := by
    have := h.next_le
    omega
  rcases d.entryDone_cases st with ⟨hmore, heq⟩ | ⟨hlast, hlen0, heq⟩ | ⟨hlast, hlen0, heq⟩ <;> rw [heq]
  · exact { h with
      store := hst
      next_le := hnext'
      fresh_hdr := by simp [Dec.withEntry, hp]
      entries := fun _ => ⟨hleft, htc⟩
      entries_left := fun _ => lt_of_le_of_ne hleft hmore
      root_used := fun _ => hroot
      cur_used := by simp [Dec.withEntry, hp] }
  · exact { h with
      store := hst
      next_le := hnext'
      dpos_hdr := by simp
      dpos_table := by simp
      fresh_hdr := by simp
      entries := fun _ => ⟨hleft, htc⟩
      entries_left := by simp
      root_used := fun _ => hroot
      cur_used := by simp
      rem_payload := by simp
      rem_done := fun _ => hrem
      len_nonneg := fun _ => hlen
      rem_before := by simp
      err_iff := by simp [Dec.withEntry, herr] }
  · have hlt : d.len.toNat ≤ Config.lenMax := by
      have := d.len.isLt
      unfold s64 at hlen
      simp only [Config.lenMax]
      split at hlen <;> omega
    have hpos : d.len.toNat ≠ 0 := fun h0 => hlen0 (BitVec.eq_of_toNat_eq h0)
    exact { h with
      store := hst
      next_le := hnext'
      dpos_hdr := by simp [Dec.enterPayload]
      dpos_table := by simp [Dec.enterPayload]
      fresh_hdr := by simp [Dec.enterPayload]
      entries := fun _ => ⟨hleft, htc⟩
      entries_left := by simp [Dec.enterPayload]
      root_used := fun _ => hroot
      vbits_le := Nat.zero_le _
      win_low := by simp [Dec.enterPayload]
      cur_used := fun _ => hroot
      rem_le := hlt
      rem_payload := fun _ => ⟨Nat.pos_of_ne_zero hpos, le_refl _⟩
      rem_done := by simp [Dec.enterPayload]
      len_nonneg := fun _ => hlen
      rem_before := by simp [Dec.enterPayload]
      err_iff := by simp [Dec.enterPayload, Dec.withEntry, herr] }

/-- A failed InsertEntry leaves at most the root's kind written (60_exceptions.md R225). -/
theorem withStore (hp : d.phase = .table) {st : NodeStore} (hst : st.Inv) (hnext : st.next = d.store.next)
    (hroot : (d.store.node 0).kind ≠ .empty → (st.node 0).kind ≠ .empty) : Dec.Inv { d with store := st } :=
  { h with
    store := hst
    next_le := hnext.trans_le h.next_le
    fresh_hdr := by simp [hp]
    root_used := fun hpos => hroot (h.root_used hpos)
    cur_used := by simp [hp] }

theorem finishEntry (hp : d.phase = .table) {d' : Dec} (hd : d.finishEntry = .ok d') : d'.Inv := by
  rcases Dec.finishEntry_cases hd with ⟨st, hins, rfl⟩ | ⟨code, st, hins, rfl⟩
  · obtain ⟨hst, hnext, hroot⟩ := insertEntry_inserted h.store hins
    exact h.entryDone hp hst hnext hroot
  · obtain ⟨hcode, hst, hnext, hroot⟩ := insertEntry_failed h.store hins
    exact (h.withStore hp hst hnext hroot).raise hcode

theorem tableByte (hp : d.phase = .table) {b : Byte} {d' : Dec} (hd : d.tableByte b = .ok d') : d'.Inv := by
  have hk := h.dpos_table hp
  obtain ⟨sym, pat, len, ⟨-, heq⟩ | ⟨hmore, heq⟩⟩ := d.tableByte_cases b <;> rw [heq] at hd
  · exact (h.withEntryRegs hp (by decide) sym pat len).finishEntry hp hd
  · cases hd
    exact h.withEntryRegs hp (by omega) sym pat len

theorem withWindow (win : Word) {vbits : Nat} (cur : NodeIdx) (hv : vbits ≤ 32) (hwin : win.toNat % 2 ^ (32 - vbits) = 0)
    (hcur : d.phase = .payload → (d.store.node cur).kind ≠ .empty) :
    Dec.Inv { d with win := win, vbits := vbits, cur := cur } :=
  { h with
    vbits_le := hv
    win_low := hwin
    cur_used := hcur }

theorem winByte (b : Byte) : (d.winByte b).Inv := by
  rcases d.winByte_cases b with ⟨-, heq⟩ | ⟨-, -, heq⟩ | ⟨-, hv, heq⟩ <;> rw [heq]
  · exact h.raise (by decide)
  · exact h.raise (by decide)
  · exact (h.withWindow _ _ (by omega) (window_or_byte_low d.win b hv h.win_low) h.cur_used).withFlags false d.inEnd d.out

theorem put {b : Byte} {d' : Dec} (hd : d.put b = .ok d') : d'.Inv := by
  rcases Dec.put_cases hd with ⟨hp, rfl⟩ | ⟨hp, hd⟩ | ⟨-, rfl⟩ | ⟨-, rfl⟩ | ⟨-, rfl⟩
  · exact h.hdrByte hp b
  · exact h.tableByte hp hd
  · exact h.winByte b
  · rcases d.doneByte_cases b with ⟨-, heq⟩ | ⟨-, heq⟩ <;> rw [heq]
    · exact h.raise (by decide)
    · exact h
  · exact h

/-- In PAYLOAD the root is used: an arena with no entry has no node above it that `cur` could name. -/
theorem root_used_of_payload (hp : d.phase = .payload) : (d.store.node 0).kind ≠ .empty := by
  by_cases hent : 0 < d.entDone
  · exact h.root_used hent
  · have hcur := h.cur_used hp
    have hlt := h.store.lt_next hcur
    have hnext := h.next_le
    have : d.cur = 0 := Fin.ext (by simp only [Fin.val_zero]; omega)
    rwa [this] at hcur

theorem emitSymbol (hp : d.phase = .payload) (sym : Byte) {win : Word} {vbits : Nat} (hv : vbits ≤ 32)
    (hwin : win.toNat % 2 ^ (32 - vbits) = 0) : (d.emitSymbol sym win vbits).Inv := by
  obtain ⟨hrem1, hremlen⟩ := h.rem_payload hp
  have hpred : (d.rem - 1).toNat = d.rem.toNat - 1 := BitVec.toNat_sub_of_le hrem1
  have hroot := h.root_used_of_payload hp
  have hwalk := (h.withWindow win 0 hv hwin fun _ => hroot).withFlags false d.inEnd (d.out ++ [sym])
  rcases d.emitSymbol_cases sym win vbits with ⟨hmore, heq⟩ | ⟨-, heq⟩ <;> rw [heq]
  · have hpos : (d.rem - 1).toNat ≠ 0 := fun h0 => hmore (BitVec.eq_of_toNat_eq h0)
    have hle : (d.rem - 1).toNat ≤ d.rem.toNat := by omega
    exact { hwalk with
      rem_le := hle.trans h.rem_le
      rem_payload := fun _ => ⟨Nat.pos_of_ne_zero hpos, hle.trans hremlen⟩
      rem_done := by simp [hp]
      rem_before := by simp [hp] }
  · have herr := h.err_iff.2 (by simp [hp])
    exact { hwalk with
      dpos_hdr := by simp
      dpos_table := by simp
      fresh_hdr := by simp
      entries := fun _ => h.entries (.inr (.inl hp))
      entries_left := by simp
      cur_used := by simp
      rem_le := Nat.zero_le _
      rem_payload := by simp
      rem_done := fun _ => rfl
      len_nonneg := fun _ => h.len_nonneg (.inr (.inl hp))
      rem_before := by simp
      err_iff := by simp [herr] }

theorem starve {win : Word} {cur : NodeIdx} (hwin : win = 0) (hcur : (d.store.node cur).kind ≠ .empty) :
    (d.starve win cur).Inv := by
  have hwalk := h.withWindow (vbits := 0) win cur (Nat.zero_le _) (by simp [hwin]) fun _ => hcur
  rcases d.starve_cases win cur with ⟨-, heq⟩ | ⟨-, heq⟩ <;> rw [heq]
  · exact hwalk.raise (by decide)
  · exact hwalk.withFlags true d.inEnd d.out

theorem nextSymbol (hp : d.phase = .payload) : d.nextSymbol.Inv := by
  have hv := h.vbits_le
  have hlow : ∀ k ≤ d.vbits, (d.win <<< k).toNat % 2 ^ (32 - (d.vbits - k)) = 0 :=
    fun k hk => window_shiftLeft_low d.win hk hv h.win_low
  have hwalk := walkBits_cases d.store (fun i => (d.store.node i).kind ≠ .empty)
    (fun i bit c _ => h.store.child_used i bit c) d.vbits d.win d.cur (h.cur_used hp)
  unfold Dec.nextSymbol
  rcases hwalk with ⟨k, i, hk, -, -, heq⟩ | ⟨i, hi, -, heq⟩ | ⟨k, i, -, hk, hi, -, -, heq⟩ <;> rw [heq]
  · exact h.emitSymbol hp _ (by omega) (hlow k hk)
  · have hempty : (d.win <<< d.vbits).toNat % 2 ^ 32 = 0 := by simpa using hlow d.vbits (le_refl _)
    exact h.starve (BitVec.eq_of_toNat_eq (by rwa [Nat.mod_eq_of_lt (BitVec.isLt _)] at hempty)) hi
  · exact (h.withWindow _ i (by omega) (hlow (k + 1) hk) fun _ => hi).raise (by decide)

theorem next : d.next.Inv := by
  rcases d.next_cases with heq | heq | ⟨hp, heq⟩ <;> rw [heq]
  · exact h
  · exact h.raise (by decide)
  · exact h.nextSymbol hp

theorem finish : d.finish.Inv := by
  rcases d.finish_cases with heq | ⟨c, hc, heq⟩ | heq <;> rw [heq]
  · exact h
  · exact h.raise hc
  · exact h.withFlags d.needIn true d.out

end Dec.Inv

/-! ### Output -/

@[simp] theorem Dec.headerDone_out (d : Dec) : d.headerDone.out = d.out := by
  rcases d.headerDone_cases with ⟨c, -, heq⟩ | ⟨-, -, heq⟩ | ⟨-, -, -, heq⟩ <;> simp [heq]

theorem Dec.hdrByte_out (b : Byte) (d : Dec) : (d.hdrByte b).out = d.out := by
  obtain ⟨len, tcount, ⟨-, heq⟩ | ⟨-, heq⟩⟩ := d.hdrByte_cases b <;> simp [heq]

theorem Dec.entryDone_out (st : NodeStore) (d : Dec) : (d.entryDone st).out = d.out := by
  rcases d.entryDone_cases st with ⟨-, heq⟩ | ⟨-, -, heq⟩ | ⟨-, -, heq⟩ <;> rw [heq] <;> rfl

theorem Dec.tableByte_out {b : Byte} {d d' : Dec} (h : d.tableByte b = .ok d') : d'.out = d.out := by
  obtain ⟨sym, pat, len, ⟨-, heq⟩ | ⟨-, heq⟩⟩ := d.tableByte_cases b <;> rw [heq] at h
  · rcases Dec.finishEntry_cases h with ⟨st, -, rfl⟩ | ⟨code, st, -, rfl⟩
    · exact Dec.entryDone_out _ _
    · rfl
  · cases h
    rfl

theorem Dec.put_out {b : Byte} {d d' : Dec} (h : d.put b = .ok d') : d'.out = d.out := by
  rcases Dec.put_cases h with ⟨-, rfl⟩ | ⟨-, h⟩ | ⟨-, rfl⟩ | ⟨-, rfl⟩ | ⟨-, rfl⟩
  · exact d.hdrByte_out b
  · exact Dec.tableByte_out h
  · rcases d.winByte_cases b with ⟨-, heq⟩ | ⟨-, -, heq⟩ | ⟨-, -, heq⟩ <;> simp [heq]
  · rcases d.doneByte_cases b with ⟨-, heq⟩ | ⟨-, heq⟩ <;> simp [heq]
  · rfl

theorem Dec.nextSymbol_out_prefix (d : Dec) : d.out <+: d.nextSymbol.out := by
  unfold Dec.nextSymbol
  split
  · exact List.prefix_append _ _
  · rename_i win cur _
    rcases d.starve_cases win cur with ⟨-, heq⟩ | ⟨-, heq⟩ <;> simp [heq]
  · exact List.prefix_refl _

theorem Dec.next_out_prefix (d : Dec) : d.out <+: d.next.out := by
  rcases d.next_cases with heq | heq | ⟨-, heq⟩ <;> simp [heq, Dec.nextSymbol_out_prefix]

theorem Dec.finish_out (d : Dec) : d.finish.out = d.out := by
  rcases d.finish_cases with heq | ⟨c, -, heq⟩ | heq <;> simp [heq]

/-! ### DEC_IN_ROOM -/

theorem Dec.inRoom_iff (d : Dec) : d.inRoom = true ↔
    (d.phase = .hdr ∨ d.phase = .table) ∨ (d.phase = .payload ∧ d.inEnd = false ∧ d.vbits ≤ 24) ∨
    (d.phase = .done ∧ d.inEnd = false) := by
  unfold Dec.inRoom
  cases d.phase <;> simp

/-- Without room, a byte is answered by SEQ or IN_OVERRUN (41_decoder.md R173 to R175). -/
theorem Dec.put_of_no_room (b : Byte) {d : Dec} (hp : d.phase ≠ .error) (h : ¬ d.inRoom = true) :
    d.put b = .ok (d.raise .seq) ∨ d.put b = .ok (d.raise .inOverrun) := by
  rw [Dec.inRoom_iff] at h
  unfold Dec.put
  split
  case h_1 hhdr => simp [hhdr] at h
  case h_2 htable => simp [htable] at h
  case h_3 hpayload =>
    rcases d.winByte_cases b with ⟨-, heq⟩ | ⟨-, -, heq⟩ | ⟨hend, hv, -⟩
    · exact .inl (congrArg _ heq)
    · exact .inr (congrArg _ heq)
    · exact absurd (.inr (.inl ⟨hpayload, hend, hv⟩)) h
  case h_4 hdone =>
    rcases d.doneByte_cases b with ⟨-, heq⟩ | ⟨hend, -⟩
    · exact .inl (congrArg _ heq)
    · exact absurd (.inr (.inr ⟨hdone, hend⟩)) h
  case h_5 herror => exact absurd herror hp

theorem Dec.headerDone_err (d : Dec) :
    d.headerDone.err = d.err ∨ d.headerDone.err ∈ [DecErr.badLength, .badCount, .emptyTable] := by
  rcases d.headerDone_cases with ⟨c, hc, heq⟩ | ⟨-, -, heq⟩ | ⟨-, -, -, heq⟩ <;> rw [heq]
  · exact .inr hc
  · exact .inl rfl
  · exact .inl rfl

theorem Dec.hdrByte_err (b : Byte) (d : Dec) :
    (d.hdrByte b).err = d.err ∨ (d.hdrByte b).err ∈ [DecErr.badLength, .badCount, .emptyTable] := by
  obtain ⟨len, tcount, ⟨-, heq⟩ | ⟨-, heq⟩⟩ := d.hdrByte_cases b <;> rw [heq]
  · exact Dec.headerDone_err _
  · exact .inl rfl

theorem Dec.tableByte_err {b : Byte} {d d' : Dec} (h : d.tableByte b = .ok d') :
    d'.err = d.err ∨ d'.err ∈ [DecErr.codeLen, .treeConflict] := by
  obtain ⟨sym, pat, len, ⟨-, heq⟩ | ⟨-, heq⟩⟩ := d.tableByte_cases b <;> rw [heq] at h
  · rcases Dec.finishEntry_cases h with ⟨st, -, rfl⟩ | ⟨code, st, hins, rfl⟩
    · rcases Dec.entryDone_cases st _ with ⟨-, heq⟩ | ⟨-, -, heq⟩ | ⟨-, -, heq⟩ <;> rw [heq] <;> exact .inl rfl
    · exact .inr (by simpa using insertEntry_failed_code hins)
  · cases h
    exact .inl rfl

/-- With room, a byte is answered by no error but those of the header and of the table (41_decoder.md R175). -/
theorem Dec.put_err_of_room {b : Byte} {d d' : Dec} (hroom : d.inRoom = true) (h : d.put b = .ok d') :
    d'.err = d.err ∨ d'.err ∈ [DecErr.badLength, .badCount, .emptyTable] ∨ d'.err ∈ [DecErr.codeLen, .treeConflict] := by
  rw [Dec.inRoom_iff] at hroom
  rcases Dec.put_cases h with ⟨-, rfl⟩ | ⟨-, h⟩ | ⟨hp, rfl⟩ | ⟨hp, rfl⟩ | ⟨-, rfl⟩
  · exact (d.hdrByte_err b).imp_right .inl
  · exact (Dec.tableByte_err h).imp_right .inr
  · obtain ⟨hend, hv⟩ : d.inEnd = false ∧ d.vbits ≤ 24 := by simpa [hp] using hroom
    rw [Dec.winByte, if_neg (by simp [hend]), if_neg (by omega)]
    exact .inl rfl
  · have hend : d.inEnd = false := by simpa [hp] using hroom
    rw [Dec.doneByte, if_neg (by simp [hend])]
    exact .inl rfl
  · exact .inl rfl

end Sys2Proof.Machine

/-! SUPPORT. The whole state: what a command and a bus operation can do, BUSY (10_state.md R27), and the invariants of R50. -/

namespace Sys2Proof.Machine

theorem exec_encBuild_next {s t : State} (h : exec .encBuild s = .next t) :
    ∃ e, s.enc.build = .ok e ∧ t = s.withEnc e := by
  simp only [exec, execEncBuild] at h
  split at h
  · rename_i e he
    cases h
    exact ⟨e, he, rfl⟩
  · cases h

theorem exec_decPut_next {b : Byte} {s t : State} (h : exec (.decPut b) s = .next t) :
    ∃ d, s.dec.put b = .ok d ∧ t = s.withDec d := by
  simp only [exec, execDecPut] at h
  split at h
  · rename_i d hd
    cases h
    exact ⟨d, hd, rfl⟩
  · cases h

theorem exec_decPut_of_ok {b : Byte} {s : State} {d : Dec} (h : s.dec.put b = .ok d) :
    exec (.decPut b) s = .next (s.withDec d) := by
  simp only [exec, execDecPut, h]

theorem State.afterRead_cases (s : State) (r : Reg) :
    s.afterRead r = s ∨ s.afterRead r = { s with draws := s.draws + 1 } ∨
    s.afterRead r = s.withEnc { s.enc with out := s.enc.out.tail } ∨
    s.afterRead r = s.withDec { s.dec with out := s.dec.out.tail } := by
  unfold State.afterRead
  split
  · exact .inr (.inr (.inl rfl))
  · exact .inr (.inr (.inr rfl))
  · split
    · exact .inr (.inl rfl)
    · exact .inl rfl

/-- What the bus alone can do: a read, an ignored write, a rejected command word, or reset. -/
theorem State.busAction_done_cases {s t : State} {op : BusOp} (h : s.busAction op = .done t) :
    (∃ r, t = s.hostRead r) ∨ t = s ∨ (∃ c, c ≠ .none ∧ t = s.raiseCmd c) ∨ (op = .reset ∧ t = s.resetBlock) := by
  cases op with
  | read off size =>
    simp only [State.busAction] at h
    split at h <;> cases h
    exact .inl ⟨_, rfl⟩
  | write off size w =>
    simp only [State.busAction] at h
    split at h
    · unfold State.hostWrite State.dispatchWord at h
      split at h
      · split at h
        · cases h
          exact .inr (.inr (.inl ⟨_, by decide, rfl⟩))
        · split at h <;> cases h
          exact .inr (.inr (.inl ⟨_, by decide, rfl⟩))
      · cases h
        exact .inr (.inl rfl)
    · cases h
  | reset =>
    cases h
    exact .inr (.inr (.inr ⟨rfl, rfl⟩))

theorem State.hostRead_busy (s : State) (r : Reg) : (s.hostRead r).busy = s.busy := by
  show (s.afterRead r).busy = s.busy
  rcases s.afterRead_cases r with h | h | h | h <;> rw [h] <;> rfl

/-- No command and no bus operation sets BUSY (10_state.md R27). -/
theorem step_keeps_idle {s t : State} (hb : s.busy = false) (h : step s = .next t) : t.busy = false := by
  rcases step_cases s with ⟨-, hs⟩ | ⟨op, rest, -, ⟨i, -, hs⟩ | ⟨u, hu, hs⟩ | ⟨r, -, hs⟩⟩ <;> rw [hs] at h
  · cases h
    exact hb
  · rcases exec_next_cases h with rfl | rfl | ⟨e, rfl⟩ | ⟨d, rfl⟩ <;> exact hb
  · cases h
    rcases State.busAction_done_cases hu with ⟨r, rfl⟩ | rfl | ⟨c, -, rfl⟩ | ⟨-, rfl⟩
    · rw [State.hostRead_busy]
      exact hb
    · exact hb
    · rw [State.raiseCmd_busy]
      exact hb
    · rfl
  · cases h

namespace State.Inv

theorem reset : State.reset.Inv :=
  ⟨.reset, .reset, rfl, by decide⟩

variable {s : State} (h : s.Inv)
include h

/-- No invariant speaks of the host's queue, of its record or of the draws. -/
theorem withHost (pending : List BusOp) (hostReads : List Word) (draws : Nat) :
    State.Inv { s with pending := pending, hostReads := hostReads, draws := draws } :=
  { h with }

theorem withEnc {e : Enc} (he : e.Inv) : (s.withEnc e).Inv :=
  { h with enc := he }

theorem withDec {d : Dec} (hd : d.Inv) : (s.withDec d).Inv :=
  { h with dec := hd }

theorem clearCmd : s.clearCmd.Inv :=
  { h with cause_iff := by simp }

theorem raiseCmd {c : CmdCause} (hc : c ≠ .none) : (s.raiseCmd c).Inv := by
  have hcause : (s.raiseCmd c).cmdCause ≠ .none := by
    rw [State.raiseCmd_cmdCause]
    split
    · rename_i herr
      exact fun hn => by simp [h.cause_iff.1 hn] at herr
    · exact hc
  exact ⟨by simpa using h.enc, by simpa using h.dec, by simpa using h.busy, by simpa using hcause⟩

theorem hostRead (r : Reg) : (s.hostRead r).Inv := by
  have hafter : (s.afterRead r).Inv := by
    rcases s.afterRead_cases r with heq | heq | heq | heq <;> rw [heq]
    · exact h
    · exact h.withHost s.pending s.hostReads (s.draws + 1)
    · exact h.withEnc (h.enc.withOut _)
    · exact h.withDec (h.dec.withFlags s.dec.needIn s.dec.inEnd _)
  exact hafter.withHost _ _ _

theorem of_exec {i : Instr} {t : State} (hi : exec i s = .next t) : t.Inv := by
  cases i with
  | nop => cases hi; exact h
  | clrerr => cases hi; exact h.clearCmd
  | encInit => cases hi; exact h.withEnc .reset
  | encCount b => cases hi; exact h.withEnc (h.enc.count b)
  | encBuild =>
    obtain ⟨e, he, rfl⟩ := exec_encBuild_next hi
    exact h.withEnc (h.enc.build he)
  | encPut b => cases hi; exact h.withEnc (h.enc.put b)
  | encFinish => cases hi; exact h.withEnc h.enc.finish
  | decInit => cases hi; exact h.withDec .reset
  | decPut b =>
    obtain ⟨d, hd, rfl⟩ := exec_decPut_next hi
    exact h.withDec (h.dec.put hd)
  | decNext => cases hi; exact h.withDec h.dec.next
  | decEnd => cases hi; exact h.withDec h.dec.finish

theorem of_busAction {op : BusOp} {t : State} (hop : s.busAction op = .done t) : t.Inv := by
  rcases State.busAction_done_cases hop with ⟨r, rfl⟩ | rfl | ⟨c, hc, rfl⟩ | ⟨-, rfl⟩
  · exact h.hostRead r
  · exact h
  · exact h.raiseCmd hc
  · exact State.Inv.reset.withHost _ _ _

theorem of_step {t : State} (hs : step s = .next t) : t.Inv := by
  rcases step_cases s with ⟨-, heq⟩ | ⟨op, rest, -, ⟨i, -, heq⟩ | ⟨u, hu, heq⟩ | ⟨r, -, heq⟩⟩ <;>
    rw [heq] at hs
  · cases hs
    exact h
  · exact (h.withHost rest s.hostReads s.draws).of_exec hs
  · cases hs
    exact (h.withHost rest s.hostReads s.draws).of_busAction hu
  · cases hs

end State.Inv

end Sys2Proof.Machine

/-! SUPPORT. The statements of 10_state.md, settled. -/

namespace Sys2Proof.Machine

/-- Settles O54: each command and each bus operation keeps the invariants of the part of the state it writes. -/
theorem everyStepKeepsTheInvariant : Obligations.EveryStepKeepsTheInvariant := by
  unfold Obligations.EveryStepKeepsTheInvariant
  exact fun s t h hs => h.of_step hs

/-- Settles O12, field by field of the STATUS word. -/
theorem statusShowsTheFields : Obligations.StatusShowsTheFields := by
  unfold Obligations.StatusShowsTheFields
  refine ⟨?_, fun s rest hb hp => ⟨s.statusWord, ?_, ?_⟩⟩
  · unfold statusCodesAsListed
    refine ⟨by decide, ?_, ?_, ?_⟩
    · exact ⟨rfl, rfl, rfl, rfl, rfl, fun p => by cases p <;> decide⟩
    · exact ⟨rfl, rfl, rfl, rfl, rfl, fun e => by cases e <;> decide⟩
    · exact ⟨rfl, rfl, rfl, rfl, rfl, rfl, rfl, rfl, rfl, rfl, fun e => by cases e <;> decide⟩
  · exact step_read_plain hp (r := .status) rfl (by simp [hb]) (by decide) (by decide)
  · obtain ⟨hbusy, hcmdErr, h15, hneed, hroom, hend, hencOut, hdecOut⟩ := s.statusWord_flags
    obtain ⟨hcause, hencPhase, h6, hencErr, hdecPhase, hdecErr, h25⟩ := s.statusWord_codes
    refine ⟨hbusy.trans hb, hcmdErr, hcause, hencPhase, h6, hencErr, hdecPhase, h15, hdecErr, hneed, hroom, hend, ?_, ?_, h25⟩
    · rw [hencOut]
      simp [Enc.outValid]
    · rw [hdecOut]
      simp [Dec.outValid]

/-- Settles O13: without room a DEC_PUT raises SEQ or IN_OVERRUN; with room it raises at most an error of the header or of the
table. -/
theorem inRoomForetellsDecPut : Obligations.InRoomForetellsDecPut := by
  unfold Obligations.InRoomForetellsDecPut
  refine fun s => ⟨s.dec.inRoom_iff, fun hinv b => ⟨fun hroom => ⟨?_, fun t ht => ?_⟩, fun ⟨hp, hall⟩ => ?_⟩⟩
  · intro hp
    simp [Dec.inRoom, hp] at hroom
  · obtain ⟨d, hd, rfl⟩ := exec_decPut_next ht
    have hnone : s.dec.err = .none := hinv.err_iff.2 fun hp => by simp [Dec.inRoom, hp] at hroom
    have herr := Dec.put_err_of_room hroom hd
    rw [hnone] at herr
    constructor
    · rintro (hseq : d.err = .seq)
      simp [hseq] at herr
    · rintro (hoverrun : d.err = .inOverrun)
      simp [hoverrun] at herr
  · by_contra hroom
    rcases Dec.put_of_no_room b hp hroom with hput | hput
    · exact (hall _ (exec_decPut_of_ok hput)).1 rfl
    · exact (hall _ (exec_decPut_of_ok hput)).2 rfl

/-- Settles O18: nothing sets BUSY. -/
theorem busyIsZeroBetweenSteps : Obligations.BusyIsZeroBetweenSteps := by
  unfold Obligations.BusyIsZeroBetweenSteps
  intro s t hb h
  have ht := step_keeps_idle hb h
  exact ⟨ht, t.statusWord_flags.1.trans ht⟩

/-- Settles O34: it is what the encoder's invariants say of the state after ENC_BUILD. -/
theorem exactlyPresentSymbolsAreCoded : Obligations.ExactlyPresentSymbolsAreCoded := by
  unfold Obligations.ExactlyPresentSymbolsAreCoded
  refine ⟨fun s t h _ hs hp b => ?_, fun b => by simp [Enc.reset]⟩
  obtain ⟨e, he, rfl⟩ := exec_encBuild_next hs
  have hinv : e.Inv := h.build he
  have hcoded := hinv.coded_iff (.inl hp) b
  rw [Enc.build_freq he] at hcoded
  exact ⟨Nat.one_le_iff_ne_zero.trans (not_congr hcoded), hinv.code_len_le b, hinv.code_pat_lt b⟩

/-- Settles O59, command by command. -/
theorem enginesOnlyAppendOutput : Obligations.EnginesOnlyAppendOutput := by
  unfold Obligations.EnginesOnlyAppendOutput
  intro i s t h
  cases i with
  | nop => cases h; exact ⟨fun _ => List.prefix_refl _, fun _ => List.prefix_refl _⟩
  | clrerr => cases h; exact ⟨fun _ => List.prefix_refl _, fun _ => List.prefix_refl _⟩
  | encInit => cases h; exact ⟨fun hne => absurd rfl hne, fun _ => List.prefix_refl _⟩
  | encCount b => cases h; exact ⟨fun _ => (s.enc.count_out b).symm ▸ List.prefix_refl _, fun _ => List.prefix_refl _⟩
  | encBuild =>
    obtain ⟨e, he, rfl⟩ := exec_encBuild_next h
    exact ⟨fun _ => Enc.build_out_prefix he, fun _ => List.prefix_refl _⟩
  | encPut b => cases h; exact ⟨fun _ => s.enc.put_out_prefix b, fun _ => List.prefix_refl _⟩
  | encFinish => cases h; exact ⟨fun _ => s.enc.finish_out_prefix, fun _ => List.prefix_refl _⟩
  | decInit => cases h; exact ⟨fun _ => List.prefix_refl _, fun hne => absurd rfl hne⟩
  | decPut b =>
    obtain ⟨d, hd, rfl⟩ := exec_decPut_next h
    exact ⟨fun _ => List.prefix_refl _, fun _ => (Dec.put_out hd).symm ▸ List.prefix_refl _⟩
  | decNext => cases h; exact ⟨fun _ => List.prefix_refl _, fun _ => s.dec.next_out_prefix⟩
  | decEnd => cases h; exact ⟨fun _ => List.prefix_refl _, fun _ => s.dec.finish_out.symm ▸ List.prefix_refl _⟩

/-- Settles O9, register by register. -/
theorem countRegistersReadTheCounters : Obligations.CountRegistersReadTheCounters := by
  unfold Obligations.CountRegistersReadTheCounters
  intro s rest off v hb hp hv
  have hread : ∀ r : Reg, Reg.select off 4 = .ok r → r ≠ .encOut → r ≠ .decOut →
      step s = .next { s with pending := rest, hostReads := s.hostReads ++ [s.regValue r] } :=
    fun r hr he hd => step_read_plain hp hr (by simp [hb]) he hd
  simp only [List.mem_cons, Prod.mk.injEq, List.not_mem_nil, or_false] at hv
  rcases hv with ⟨rfl, rfl⟩ | ⟨rfl, rfl⟩ | ⟨rfl, rfl⟩ | ⟨rfl, rfl⟩ | ⟨rfl, rfl⟩ | ⟨rfl, rfl⟩ | ⟨rfl, rfl⟩ |
    ⟨rfl, rfl⟩
  · exact hread .encLenLo rfl (by decide) (by decide)
  · exact hread .encLenHi rfl (by decide) (by decide)
  · exact hread .encPutcntLo rfl (by decide) (by decide)
  · exact hread .encPutcntHi rfl (by decide) (by decide)
  · exact hread .decLenLo rfl (by decide) (by decide)
  · exact hread .decLenHi rfl (by decide) (by decide)
  · exact hread .decRemLo rfl (by decide) (by decide)
  · exact hread .decRemHi rfl (by decide) (by decide)

/-- Settles O10, for a FIFO that holds a byte, for an empty one, and for a write. -/
theorem fifoReadPopsTheOldestByte : Obligations.FifoReadPopsTheOldestByte := by
  unfold Obligations.FifoReadPopsTheOldestByte
  refine fun s rest => ⟨fun hp => ?_, fun hp => ?_, fun off v hoff hp => ?_⟩
  · have hstep := step_read hp (r := .encOut) rfl
    refine ⟨fun b bs hout => ⟨_, fifoValue (b :: bs), hstep, ?_, fifoValue_cons_bits b bs⟩, fun hout => ?_⟩
    · simp [State.hostRead_encOut, hout]
    · exact hstep.trans (congrArg Host.Outcome.next (State.hostRead_encOut_of_empty hout))
  · have hstep := step_read hp (r := .decOut) rfl
    refine ⟨fun b bs hout => ⟨_, fifoValue (b :: bs), hstep, ?_, fifoValue_cons_bits b bs⟩, fun hout => ?_⟩
    · simp [State.hostRead_decOut, hout]
    · exact hstep.trans (congrArg Host.Outcome.next (State.hostRead_decOut_of_empty hout))
  · rcases hoff with rfl | rfl
    · exact step_write_ignored hp (r := .encOut) rfl (by decide)
    · exact step_write_ignored hp (r := .decOut) rfl (by decide)

/-- Settles O11: of the word offsets only 0 names CMD, and the constants are plain reads. -/
theorem ignoredWritesAndConstantReads : Obligations.IgnoredWritesAndConstantReads := by
  unfold Obligations.IgnoredWritesAndConstantReads
  refine ⟨fun s rest off v h0 h1 h4 hp => ?_, fun s rest off v hv hp => ?_⟩
  · refine step_write_ignored hp (Reg.select_aligned h0.le h1 h4) ?_
    rw [Ne, Reg.atIndex_eq_cmd]
    omega
  · simp only [List.mem_cons, Prod.mk.injEq, List.not_mem_nil, or_false] at hv
    rcases hv with ⟨rfl, rfl⟩ | ⟨rfl, rfl⟩ | ⟨rfl, rfl⟩ | ⟨rfl, rfl⟩ | ⟨rfl, rfl⟩
    · exact step_read_plain hp (r := .cmd) rfl (by simp [Reg.mayBeRunning]) (by decide) (by decide)
    · exact step_read_plain hp (r := .ident) rfl (by simp [Reg.mayBeRunning]) (by decide) (by decide)
    all_goals exact step_read_plain hp (r := .reserved) rfl (by simp [Reg.mayBeRunning]) (by decide) (by decide)

/-- Settles O53, from both engines' reset states. -/
theorem invariantHoldsAtReset : Obligations.InvariantHoldsAtReset :=
  State.Inv.reset

end Sys2Proof.Machine

/-! SUPPORT. The statement of 20_memory.md, settled: which accesses have a meaning (R62), and what a step makes of one that has
none. -/

namespace Sys2Proof.Machine

theorem Reg.select_wrong_width {size : Nat} (off : Int) (h : size ≠ 4) :
    Reg.select off size = .error .accessWidth := by
  rw [Reg.select, if_pos h]

theorem Reg.select_outside {off : Int} (h : off < 0 ∨ 0x40 ≤ off) :
    Reg.select off 4 = .error .accessOutsideWindow := by
  have hout : off < 0 ∨ (Config.windowBytes : Int) ≤ off := h
  rw [Reg.select, if_neg (by decide), if_pos hout]

theorem Reg.select_misaligned {off : Int} (h0 : 0 ≤ off) (h1 : off < 0x40) (h4 : off % 4 ≠ 0) :
    Reg.select off 4 = .error .accessMisaligned := by
  have hin : ¬(off < 0 ∨ (Config.windowBytes : Int) ≤ off) := by
    simp only [Config.windowBytes]
    omega
  rw [Reg.select, if_neg (by decide), if_neg hin, if_pos h4]

/-- The bus never refuses a write that names a register: what it writes is a command, a rejected word, or ignored. -/
theorem State.hostWrite_ne_refuse (s : State) (r : Reg) (w : Word) (e : Refusal) : s.hostWrite r w ≠ .refuse e := by
  unfold State.hostWrite State.dispatchWord
  split
  · split
    · nofun
    · split <;> nofun
  · nofun

section
variable {s : State} {off : Int} {size : Nat} {v : Word} {rest : List BusOp}
  (hp : s.pending = .read off size :: rest ∨ s.pending = .write off size v :: rest)
include hp

/-- An access that names no register is refused for the reason the selection gives. -/
theorem step_refused_of_select {e : Refusal} (he : Reg.select off size = .error e) : step s = .refused e := by
  rcases hp with hp | hp <;> simp only [step, hp, State.busAction, he]

/-- An access that names a register is not refused, whether the bus alone answers it or a command runs. -/
theorem step_not_refused_of_select {r : Reg} (hr : Reg.select off size = .ok r) (e : Refusal) : step s ≠ .refused e := by
  intro hs
  rcases step_cases s with ⟨-, heq⟩ | ⟨op, rest', hop, ⟨i, -, heq⟩ | ⟨t, -, heq⟩ | ⟨e', hact, -⟩⟩
  · cases heq.symm.trans hs
  · exact exec_not_refused i _ e (heq.symm.trans hs)
  · cases heq.symm.trans hs
  · rcases hp with hp | hp <;> obtain ⟨rfl, rfl⟩ := List.cons.inj (hp.symm.trans hop) <;>
      simp only [State.busAction, hr] at hact
    · cases hact
    · exact State.hostWrite_ne_refuse _ r v e' hact
end

theorem BusOp.memRead_base_add (n size : Nat) : BusOp.memRead (Config.base + n) size = .read n size := by
  rw [BusOp.memRead, Int.natCast_add, add_sub_cancel_left]

theorem BusOp.memWrite_base_add (n size : Nat) (v : Word) :
    BusOp.memWrite (Config.base + n) size v = .write n size v := by
  rw [BusOp.memWrite, Int.natCast_add, add_sub_cancel_left]

/-- Settles O14: each clause is one outcome of the selection of a register, carried through the step. -/
theorem onlyAlignedWordAccessesHaveMeaning : Obligations.OnlyAlignedWordAccessesHaveMeaning := by
  unfold Obligations.OnlyAlignedWordAccessesHaveMeaning
  refine ⟨fun s rest off size v hp => ⟨fun hw => ?_, ?_, ?_, ?_⟩,
    fun n size v => ⟨BusOp.memRead_base_add n size, BusOp.memWrite_base_add n size v⟩⟩
  · exact step_refused_of_select hp (Reg.select_wrong_width off hw)
  · rintro rfl hout
    exact step_refused_of_select hp (Reg.select_outside hout)
  · rintro rfl h0 h1 h4
    exact step_refused_of_select hp (Reg.select_misaligned h0 h1 h4)
  · rintro rfl h0 h1 h4
    exact step_not_refused_of_select hp (Reg.select_aligned h0 h1 h4)

end Sys2Proof.Machine

/-! SUPPORT. The command word (30_encoding.md R80 to R86): the decoder answers a command exactly on the word that carries the
command's fields; the opcode map and legality follow from that. -/

namespace Sys2Proof

/-! ### The fields of a word -/

theorem toWord_fieldsOf (w : Word) : (fieldsOf w).toWord = w := by
  apply BitVec.eq_of_getLsbD_eq
  intro k hk
  simp only [CmdFields.toWord, fieldsOf, BitVec.getLsbD_append, BitVec.getLsbD_extractLsb']
  split
  · simp [*]
  · split
    · simp [*, show 8 + (k - 8) = k by omega]
    · simp [show 24 + (k - 8 - 16) = k by omega, show k - 8 - 16 < 8 by omega]

theorem toWord_inj {f g : CmdFields} : f.toWord = g.toWord ↔ f = g :=
  ⟨fun h => by rw [← Laws.fieldsOf_toWord f, h, Laws.fieldsOf_toWord], congrArg _⟩

theorem toWord_eq_iff {f : CmdFields} {w : Word} : f.toWord = w ↔ fieldsOf w = f := by
  rw [← toWord_inj, toWord_fieldsOf, eq_comm]

@[simp] theorem fieldsOf_encode (i : Instr) : fieldsOf (encode i) = i.fields :=
  Laws.fieldsOf_toWord _

theorem toNat_op_fieldsOf (w : Word) : (fieldsOf w).op.toNat = w.toNat >>> 24 := by
  have hw := w.isLt
  simp only [fieldsOf, BitVec.extractLsb'_toNat, Nat.shiftRight_eq_div_pow]
  omega

/-- Masking DATA away (R84) leaves the word of the same fields with DATA 0. -/
theorem toWord_and_dataMask (f : CmdFields) : f.toWord &&& 0xFFFFFF00#32 = { f with data := 0 }.toWord := by
  have hmask : (0xFFFFFF00#32 : Word) = BitVec.allOnes 8 ++ BitVec.allOnes 16 ++ 0#8 := by decide
  rw [hmask, CmdFields.toWord, BitVec.and_append, BitVec.and_append, BitVec.and_allOnes, BitVec.and_allOnes,
    BitVec.and_zero]
  rfl

theorem CmdFields.eq_iff_data {f g : CmdFields} : f = g ↔ { f with data := 0 } = { g with data := 0 } ∧ f.data = g.data := by
  obtain ⟨op, rsv, data⟩ := f
  obtain ⟨op', rsv', data'⟩ := g
  simp [and_assoc]

/-! ### The fields of a command -/

@[simp] theorem Instr.fields_rsv (i : Instr) : i.fields.rsv = 0 := by
  cases i <;> rfl

theorem decodeOp_fields (i : Instr) : decodeOp i.fields = .ok i := by
  cases i <;> rfl

theorem requireNoData_ok {f : CmdFields} {i j : Instr} (h : requireNoData f i = .ok j) : f.data = 0 ∧ j = i := by
  unfold requireNoData at h
  split at h
  · cases h
    exact ⟨‹_›, rfl⟩
  · cases h

theorem fields_eq_of_op {f : CmdFields} {n : Nat} (hop : f.op.toNat = n) (hrsv : f.rsv = 0) :
    ⟨BitVec.ofNat 8 n, 0, f.data⟩ = f := by
  obtain ⟨op, rsv, data⟩ := f
  obtain rfl : rsv = 0 := hrsv
  simp [← hop]

theorem fields_of_requireNoData {f : CmdFields} {i j : Instr} {n : Nat} (hop : f.op.toNat = n) (hrsv : f.rsv = 0)
    (h : requireNoData f j = .ok i) (hj : j.fields = ⟨BitVec.ofNat 8 n, 0, 0⟩) : i.fields = f := by
  obtain ⟨hdata, rfl⟩ := requireNoData_ok h
  rw [hj, ← fields_eq_of_op hop hrsv, hdata]

/-- A command decoded from fields with RSV 0 has those fields. -/
theorem fields_of_decodeOp {f : CmdFields} {i : Instr} (hrsv : f.rsv = 0) (h : decodeOp f = .ok i) : i.fields = f := by
  unfold decodeOp at h
  split at h
  next hop => exact fields_of_requireNoData hop hrsv h rfl
  next hop => exact fields_of_requireNoData hop hrsv h rfl
  next hop => exact fields_of_requireNoData hop hrsv h rfl
  next hop => cases h; exact fields_eq_of_op hop hrsv
  next hop => exact fields_of_requireNoData hop hrsv h rfl
  next hop => cases h; exact fields_eq_of_op hop hrsv
  next hop => exact fields_of_requireNoData hop hrsv h rfl
  next hop => exact fields_of_requireNoData hop hrsv h rfl
  next hop => cases h; exact fields_eq_of_op hop hrsv
  next hop => exact fields_of_requireNoData hop hrsv h rfl
  next hop => exact fields_of_requireNoData hop hrsv h rfl
  · cases h

/-! ### The decoder -/

/-- The decoder answers a command exactly on a word with the command's fields. -/
theorem decode_eq_ok_iff {w : Word} {i : Instr} : decode w = .ok i ↔ fieldsOf w = i.fields := by
  unfold decode
  constructor
  · intro h
    split at h
    · exact (fields_of_decodeOp ‹_› h).symm
    · cases h
  · intro h
    rw [h, if_pos i.fields_rsv, decodeOp_fields]

theorem decode_eq_ok_iff_encode {w : Word} {i : Instr} : decode w = .ok i ↔ encode i = w :=
  decode_eq_ok_iff.trans toWord_eq_iff.symm

theorem decode_encode (i : Instr) : decode (encode i) = .ok i :=
  decode_eq_ok_iff_encode.2 rfl

theorem decode_eq_ok_iff_wordMask (w : Word) (i : Instr) : decode w = .ok i ↔ w &&& 0xFFFFFFFF#32 = encode i := by
  have hmask : w &&& 0xFFFFFFFF#32 = w := BitVec.and_allOnes
  rw [hmask, decode_eq_ok_iff_encode, eq_comm]

/-- A command by its match value under mask 0xFFFFFF00, and its DATA byte (R84). -/
theorem decode_eq_ok_iff_dataMask (w : Word) {i : Instr} {b : Byte} (op : BitVec 8) (hi : i.fields = ⟨op, 0, b⟩) :
    decode w = .ok i ↔ w &&& 0xFFFFFF00#32 = CmdFields.toWord ⟨op, 0, 0⟩ ∧ w.extractLsb' 0 8 = b := by
  have hmask : w &&& 0xFFFFFF00#32 = { fieldsOf w with data := 0 }.toWord := by
    rw [← toWord_and_dataMask, toWord_fieldsOf]
  rw [decode_eq_ok_iff, hi, CmdFields.eq_iff_data, hmask, toWord_inj]
  rfl

end Sys2Proof

namespace Sys2Proof.Machine

/-! ### Opcodes and legality -/

theorem toNat_encode_shiftRight (i : Instr) : (encode i).toNat >>> 24 = i.fields.op.toNat := by
  rw [← toNat_op_fieldsOf, fieldsOf_encode]

theorem isEncCommand_iff_op (i : Instr) : isEncCommand i = true ↔ 0x10 ≤ i.fields.op.toNat ∧ i.fields.op.toNat ≤ 0x14 := by
  cases i <;> simp [isEncCommand, Instr.fields]

theorem isDecCommand_iff_op (i : Instr) : isDecCommand i = true ↔ 0x20 ≤ i.fields.op.toNat ∧ i.fields.op.toNat ≤ 0x23 := by
  cases i <;> simp [isDecCommand, Instr.fields]

theorem legalFields (i : Instr) : Laws.LegalFields.Statement i := by
  cases i with
  | nop => exact Laws.LegalFields.nop
  | clrerr => exact Laws.LegalFields.clrerr
  | encInit => exact Laws.LegalFields.encInit
  | encCount b => exact Laws.LegalFields.encCount b
  | encBuild => exact Laws.LegalFields.encBuild
  | encPut b => exact Laws.LegalFields.encPut b
  | encFinish => exact Laws.LegalFields.encFinish
  | decInit => exact Laws.LegalFields.decInit
  | decPut b => exact Laws.LegalFields.decPut b
  | decNext => exact Laws.LegalFields.decNext
  | decEnd => exact Laws.LegalFields.decEnd

/-- A word with the fields of a command meets the three conditions of R82. -/
theorem legalByR82_of_fields {w : Word} {i : Instr} (h : fieldsOf w = i.fields) : legalByR82 w := by
  have hlegal : i.fields.op ∈ [0x00#8, 0x01#8, 0x10#8, 0x11#8, 0x12#8, 0x13#8, 0x14#8, 0x20#8, 0x21#8, 0x22#8, 0x23#8] ∧
      (i.fields.op ∉ [0x11#8, 0x13#8, 0x21#8] → i.fields.data = 0#8) := by
    cases i <;> simp [Instr.fields]
  rw [← h] at hlegal
  obtain ⟨hop, hdata⟩ := hlegal
  exact ⟨hop, (congrArg CmdFields.rsv h).trans i.fields_rsv, hdata⟩

/-- A word that meets the three conditions of R82 has the fields of a command: one for each opcode listed. -/
theorem exists_fields_of_legalByR82 {w : Word} (h : legalByR82 w) : ∃ i : Instr, fieldsOf w = i.fields := by
  obtain ⟨hop, hrsv, hdata⟩ : (fieldsOf w).op ∈ _ ∧ (fieldsOf w).rsv = 0 ∧ ((fieldsOf w).op ∉ _ → (fieldsOf w).data = 0) := h
  generalize fieldsOf w = f at hop hrsv hdata
  obtain ⟨op, rsv, data⟩ := f
  obtain rfl : rsv = 0 := hrsv
  simp only [List.mem_cons, List.not_mem_nil, or_false] at hop
  have hnoData : ∀ {i : Instr}, op ∉ _ → i.fields = ⟨op, 0, 0⟩ → ⟨op, 0, data⟩ = i.fields := fun hnot hi => by
    rw [hi, show data = 0 from hdata hnot]
  rcases hop with rfl | rfl | rfl | rfl | rfl | rfl | rfl | rfl | rfl | rfl | rfl
  · exact ⟨.nop, hnoData (by decide) rfl⟩
  · exact ⟨.clrerr, hnoData (by decide) rfl⟩
  · exact ⟨.encInit, hnoData (by decide) rfl⟩
  · exact ⟨.encCount data, rfl⟩
  · exact ⟨.encBuild, hnoData (by decide) rfl⟩
  · exact ⟨.encPut data, rfl⟩
  · exact ⟨.encFinish, hnoData (by decide) rfl⟩
  · exact ⟨.decInit, hnoData (by decide) rfl⟩
  · exact ⟨.decPut data, rfl⟩
  · exact ⟨.decNext, hnoData (by decide) rfl⟩
  · exact ⟨.decEnd, hnoData (by decide) rfl⟩

theorem exists_decode_iff_legalByR82 (w : Word) : (∃ i, decode w = .ok i) ↔ legalByR82 w :=
  ⟨fun ⟨_, hi⟩ => legalByR82_of_fields (decode_eq_ok_iff.1 hi),
    fun h => (exists_fields_of_legalByR82 h).imp fun _ => decode_eq_ok_iff.2⟩

/-- The reserved opcodes of R83 are none of those listed in R84. -/
theorem op_not_reserved_of_listed :
    ∀ op ∈ [0x00#8, 0x01#8, 0x10#8, 0x11#8, 0x12#8, 0x13#8, 0x14#8, 0x20#8, 0x21#8, 0x22#8, 0x23#8],
      ¬(0x02 ≤ op.toNat ∧ op.toNat ≤ 0x0F ∨ 0x15 ≤ op.toNat ∧ op.toNat ≤ 0x1F ∨ 0x24 ≤ op.toNat) := by
  decide

theorem State.dispatchWord_of_illegal {s : State} {w : Word} (hb : s.busy = false) (hw : ¬ legalByR82 w) :
    s.dispatchWord w = .done (s.raiseCmd .illegal) := by
  cases hd : decode w with
  | ok i => exact absurd ((exists_decode_iff_legalByR82 w).1 ⟨i, hd⟩) hw
  | error r => simp [State.dispatchWord, hb, hd]

theorem step_write_illegal {s : State} {w : Word} {rest : List BusOp} (hb : s.busy = false)
    (hp : s.pending = .write 0 4 w :: rest) (hw : ¬ legalByR82 w) :
    step s = .next (State.raiseCmd .illegal { s with pending := rest }) :=
  step_of_pending hp (State.dispatchWord_of_illegal (s := { s with pending := rest }) hb hw)

end Sys2Proof.Machine

/-! SUPPORT. The stream of the empty input (30_encoding.md R94; 40_encoder.md R114, R127). -/

namespace Sys2Proof.Machine

/-- With nothing counted, ENC_BUILD emits a header of zeros and no table. -/
theorem Enc.build_of_empty {e : Enc} (hp : e.phase = .count) (h0 : e.encLen = 0) :
    e.build = .ok (e.emit (List.replicate Config.hdrBytes 0)).enterEncode := by
  simp only [Enc.build, hp, Enc.buildTable, h0, if_true]

theorem Enc.finish_of_complete {e : Enc} (hp : e.phase = .encode) (hcnt : e.putCnt = e.encLen) :
    e.finish = { e.withPacked e.packer.flush with phase := .done } := by
  simp only [Enc.finish, hp, Enc.finishPass, hcnt, if_true]

theorem leBytes_zero (k : Nat) : leBytes k 0 = List.replicate k 0 := by
  simp [leBytes]

/-- ENC_FINISH right after the empty input's ENC_BUILD: no bit is live, so nothing is emitted. -/
theorem Enc.finish_of_empty {e : Enc} (h0 : e.encLen = 0) :
    e.enterEncode.finish = { e.enterEncode with phase := .done } := by
  have hflush : e.enterEncode.packer.flush = (⟨0, 0⟩, []) := rfl
  rw [Enc.finish_of_complete rfl h0.symm, hflush, Enc.withPacked, List.append_nil]
  rfl

theorem execAll_cons_of_next {i : Instr} {s t : State} (h : exec i s = .next t) (is : List Instr) :
    execAll (i :: is) s = execAll is t := by
  rw [execAll, h]

end Sys2Proof.Machine

/-! SUPPORT. The assembler's lines and operand forms (30_encoding.md R86). -/

namespace Sys2Proof.Machine

/-! ### A line -/

theorem nodup_mnemonics : (opcodeMap.map fun r => r.mnemonic.toList).Nodup := by
  decide

/-- No two rows share a mnemonic, so a row's mnemonic finds the row. -/
theorem find_row_of_mem {row : OpcodeRow} (hrow : row ∈ opcodeMap) :
    opcodeMap.find? (fun r => r.mnemonic.toList == row.mnemonic.toList) = some row := by
  obtain ⟨r, hr⟩ : ∃ r, opcodeMap.find? (fun r => r.mnemonic.toList == row.mnemonic.toList) = some r :=
    Option.isSome_iff_exists.1 (List.find?_isSome.2 ⟨row, hrow, beq_self_eq_true _⟩)
  have hname : r.mnemonic.toList = row.mnemonic.toList := beq_iff_eq.1 (List.find?_some hr :)
  rw [hr, List.inj_on_of_nodup_map nodup_mnemonics (List.mem_of_find?_eq_some hr) hrow hname]

theorem space_not_mem_mnemonic : ∀ row ∈ opcodeMap, ' ' ∉ row.mnemonic.toList := by
  decide

theorem mnemonic_without_space {row : OpcodeRow} (hrow : row ∈ opcodeMap) :
    ∀ c ∈ row.mnemonic.toList, (c != ' ') = true :=
  fun _ hc => bne_iff_ne.2 fun h => space_not_mem_mnemonic row hrow (h ▸ hc)

section
variable {row : OpcodeRow} (hrow : row ∈ opcodeMap)
include hrow

/-- A line that is a mnemonic alone. -/
theorem assemble_mnemonic : assemble row.mnemonic.toList = assembleRow row none := by
  have htake := List.takeWhile_eq_self_iff.2 (mnemonic_without_space hrow)
  have hdrop := List.dropWhile_eq_nil_iff.2 (mnemonic_without_space hrow)
  simp only [assemble, htake, find_row_of_mem hrow, operandText, hdrop]

/-- A line that is a mnemonic, a space, and any text. -/
theorem assemble_mnemonic_operand (text : List Char) :
    assemble (row.mnemonic.toList ++ ' ' :: text) = assembleRow row (some text) := by
  have htake : (row.mnemonic.toList ++ ' ' :: text).takeWhile (· != ' ') = row.mnemonic.toList := by
    rw [List.takeWhile_append_of_pos (mnemonic_without_space hrow)]
    simp
  have hdrop : (row.mnemonic.toList ++ ' ' :: text).dropWhile (· != ' ') = ' ' :: text := by
    rw [List.dropWhile_append_of_pos (mnemonic_without_space hrow)]
    simp
  simp only [assemble, htake, find_row_of_mem hrow, operandText, hdrop]

end

/-! ### The three forms of a byte operand -/

theorem parseByte_char {c : Char} (h : c.toNat < 128) : parseByte ['\'', c, '\''] = some (BitVec.ofNat 8 c.toNat) :=
  if_pos h

theorem byteOfNat_toNat (b : Byte) : byteOfNat b.toNat = some b := by
  rw [byteOfNat, if_pos b.isLt, BitVec.ofNat_toNat, BitVec.setWidth_eq]

theorem digitValue_upperHexDigit : ∀ n < 16, digitValue 16 (upperHexDigit n) = some n := by
  decide

theorem digitValue_hex_digitChar : ∀ n < 16, digitValue 16 (Nat.digitChar n) = some n := by
  decide

theorem digitValue_decimal_digitChar : ∀ n < 10, digitValue 10 (Nat.digitChar n) = some n := by
  decide

theorem digitValue_of_mem_hexDigitSpellings {n : Nat} {c : Char} (hn : n < 16) (hc : c ∈ hexDigitSpellings n) :
    digitValue 16 c = some n := by
  rcases List.mem_pair.1 hc with rfl | rfl
  · exact digitValue_upperHexDigit n hn
  · exact digitValue_hex_digitChar n hn

/-- Two hexadecimal digits, each in either spelling. -/
theorem parseByte_hex {b : Byte} {h l : Char} (hh : h ∈ hexDigitSpellings (b.toNat / 16))
    (hl : l ∈ hexDigitSpellings (b.toNat % 16)) : parseByte ['0', 'x', h, l] = some b := by
  have hb := b.isLt
  have hdigits : digitsValue 16 0 [h, l] = some b.toNat := by
    simp only [digitsValue, digitValue_of_mem_hexDigitSpellings (by omega) hh,
      digitValue_of_mem_hexDigitSpellings (by omega) hl, Option.bind_some, Option.some.injEq]
    omega
  exact (congrArg (Option.bind · byteOfNat) hdigits).trans (byteOfNat_toNat b)

/-- A row of decimal digits has none of the other forms: neither a quote nor an `x` is a digit. -/
theorem parseByte_of_digits {text : List Char} {n : Nat} (hne : text ≠ []) (h : digitsValue 10 0 text = some n) :
    parseByte text = byteOfNat n := by
  unfold parseByte
  split
  · simp [digitsValue, digitValue] at h
  · simp [digitsValue, digitValue] at h
  · rw [h]
    rfl
  · exact absurd rfl hne

theorem decimalText_ne_nil (b : Byte) : decimalText b ≠ [] := by
  unfold decimalText
  split_ifs <;> exact List.cons_ne_nil _ _

theorem digitsValue_decimalText (b : Byte) : digitsValue 10 0 (decimalText b) = some b.toNat := by
  have hb := b.isLt
  have hunits := digitValue_decimal_digitChar (b.toNat % 10) (by omega)
  unfold decimalText
  split_ifs with h1 h2
  · simp [digitsValue, digitValue_decimal_digitChar b.toNat h1]
  · have htens := digitValue_decimal_digitChar (b.toNat / 10) (by omega)
    simp only [digitsValue, hunits, htens, Option.bind_some, Option.some.injEq]
    omega
  · have htens := digitValue_decimal_digitChar (b.toNat / 10 % 10) (by omega)
    have hhundreds := digitValue_decimal_digitChar (b.toNat / 100) (by omega)
    simp only [digitsValue, hunits, htens, hhundreds, Option.bind_some, Option.some.injEq]
    omega

theorem parseByte_decimalText (b : Byte) : parseByte (decimalText b) = some b := by
  rw [parseByte_of_digits (decimalText_ne_nil b) (digitsValue_decimalText b), byteOfNat_toNat]

/-! ### The rows -/

/-- A command that takes a byte: the operand's byte is the DATA field. -/
theorem assemble_byte_operand {row : OpcodeRow} (hrow : row ∈ opcodeMap) (htakes : row.takesByte = true) {i : Instr}
    {b : Byte} (hi : i.fields = ⟨row.op, 0, b⟩) {text : List Char} (htext : parseByte text = some b) :
    assemble (row.mnemonic.toList ++ ' ' :: text) = .ok (encode i) := by
  simp only [assemble_mnemonic_operand hrow, assembleRow, htakes, htext, encode, hi]

/-- The clauses of R86 for a command that takes a byte. -/
theorem assemble_row_with_byte {row : OpcodeRow} (hrow : row ∈ opcodeMap) (htakes : row.takesByte = true)
    {mk : Byte → Instr} (hmk : ∀ b, (mk b).fields = ⟨row.op, 0, b⟩) :
    (∀ b : Byte, assemble (row.mnemonic.toList ++ ' ' :: decimalText b) = .ok (encode (mk b))) ∧
    (∀ b : Byte, assemble (row.mnemonic.toList ++ ' ' :: hexText b) = .ok (encode (mk b))) ∧
    (∀ b : Byte, ∀ h ∈ hexDigitSpellings (b.toNat / 16), ∀ l ∈ hexDigitSpellings (b.toNat % 16),
      assemble (row.mnemonic.toList ++ [' ', '0', 'x', h, l]) = .ok (encode (mk b))) ∧
    (∀ c : Char, c.toNat < 128 →
      assemble (row.mnemonic.toList ++ [' ', '\'', c, '\'']) = .ok (encode (mk (BitVec.ofNat 8 c.toNat)))) ∧
    assemble row.mnemonic.toList = .error .operandMissing := by
  have hoperand {b : Byte} {text : List Char} (htext : parseByte text = some b) :=
    assemble_byte_operand hrow htakes (hmk b) htext
  refine ⟨fun b => hoperand (parseByte_decimalText b), fun b => hoperand (parseByte_hex ?_ ?_),
    fun b h hh l hl => hoperand (parseByte_hex hh hl), fun c hc => hoperand (parseByte_char hc), ?_⟩
  · exact List.mem_cons_self
  · exact List.mem_cons_self
  · simp only [assemble_mnemonic hrow, assembleRow, htakes]

/-- The clauses of R86 for a command that takes none. -/
theorem assemble_row_without_byte {row : OpcodeRow} (hrow : row ∈ opcodeMap) (htakes : row.takesByte = false)
    {i : Instr} (hi : i.fields = ⟨row.op, 0, 0⟩) :
    assemble row.mnemonic.toList = .ok (encode i) ∧
    ∀ text, assemble (row.mnemonic.toList ++ ' ' :: text) = .error .operandNotAllowed := by
  refine ⟨?_, fun text => ?_⟩
  · simp only [assemble_mnemonic hrow, assembleRow, htakes, encode, hi]
  · simp only [assemble_mnemonic_operand hrow, assembleRow, htakes]

end Sys2Proof.Machine

/-! SUPPORT. The statements of 30_encoding.md, settled. -/

namespace Sys2Proof.Machine

/-- Settles O3: both directions go through the fields of the word. -/
theorem decodeAndEncodeAgree : Obligations.DecodeAndEncodeAgree := by
  unfold Obligations.DecodeAndEncodeAgree
  exact ⟨fun i => (legalFields i).1, fun _ _ => decode_eq_ok_iff_encode⟩

/-- Settles O1: each row is the general match under the row's mask, with the command's own match value. -/
theorem opcodeMapDecodes : Obligations.OpcodeMapDecodes := by
  unfold Obligations.OpcodeMapDecodes
  refine ⟨fun i => ?_, fun w => ?_⟩
  · rw [toNat_encode_shiftRight]
    exact ⟨isEncCommand_iff_op i, isDecCommand_iff_op i⟩
  · have hword := decode_eq_ok_iff_wordMask w
    have hdata {i : Instr} {b : Byte} := decode_eq_ok_iff_dataMask w (i := i) (b := b)
    exact ⟨hword .nop, hword .clrerr, hword .encInit, fun _ => hdata 0x11 rfl, hword .encBuild, fun _ => hdata 0x13 rfl,
      hword .encFinish, hword .decInit, fun _ => hdata 0x21 rfl, hword .decNext, hword .decEnd⟩

/-- Settles O2: a word decodes when its fields are some command's, and the legal words are those. -/
theorem legalWordsAreTheOnesThatDecode : Obligations.LegalWordsAreTheOnesThatDecode := by
  unfold Obligations.LegalWordsAreTheOnesThatDecode
  exact exists_decode_iff_legalByR82

/-- Settles O5, row by row of the opcode map. -/
theorem assemblerTakesTheThreeOperandForms : Obligations.AssemblerTakesTheThreeOperandForms := by
  unfold Obligations.AssemblerTakesTheThreeOperandForms
  refine ⟨fun name mk hmem => ?_, fun name i hmem => ?_⟩ <;>
    simp only [List.mem_cons, Prod.mk.injEq, List.not_mem_nil, or_false] at hmem
  · rcases hmem with ⟨rfl, rfl⟩ | ⟨rfl, rfl⟩ | ⟨rfl, rfl⟩
    · exact assemble_row_with_byte (row := ⟨0x11, "ENC_COUNT", true⟩) (by decide) rfl fun _ => rfl
    · exact assemble_row_with_byte (row := ⟨0x13, "ENC_PUT", true⟩) (by decide) rfl fun _ => rfl
    · exact assemble_row_with_byte (row := ⟨0x21, "DEC_PUT", true⟩) (by decide) rfl fun _ => rfl
  · rcases hmem with ⟨rfl, rfl⟩ | ⟨rfl, rfl⟩ | ⟨rfl, rfl⟩ | ⟨rfl, rfl⟩ | ⟨rfl, rfl⟩ | ⟨rfl, rfl⟩ | ⟨rfl, rfl⟩ | ⟨rfl, rfl⟩
    · exact assemble_row_without_byte (row := ⟨0x00, "NOP", false⟩) (by decide) rfl rfl
    · exact assemble_row_without_byte (row := ⟨0x01, "CLRERR", false⟩) (by decide) rfl rfl
    · exact assemble_row_without_byte (row := ⟨0x10, "ENC_INIT", false⟩) (by decide) rfl rfl
    · exact assemble_row_without_byte (row := ⟨0x12, "ENC_BUILD", false⟩) (by decide) rfl rfl
    · exact assemble_row_without_byte (row := ⟨0x14, "ENC_FINISH", false⟩) (by decide) rfl rfl
    · exact assemble_row_without_byte (row := ⟨0x20, "DEC_INIT", false⟩) (by decide) rfl rfl
    · exact assemble_row_without_byte (row := ⟨0x22, "DEC_NEXT", false⟩) (by decide) rfl rfl
    · exact assemble_row_without_byte (row := ⟨0x23, "DEC_END", false⟩) (by decide) rfl rfl

/-- Settles O4: each legal word is the encoder's word of its command. -/
theorem writtenOutWordsDecode : Obligations.WrittenOutWordsDecode := by
  unfold Obligations.WrittenOutWordsDecode
  exact ⟨decode_encode .nop, decode_encode .clrerr, decode_encode .encInit, decode_encode (.encCount 0x61),
    decode_encode (.encCount 0xFF), decode_encode .encBuild, decode_encode (.encPut 0x41), decode_encode .encFinish,
    decode_encode .decInit, decode_encode (.decPut 0x0E), decode_encode .decNext, decode_encode .decEnd, rfl, rfl, rfl⟩

/-- Settles O8: the step raises ILLEGAL, which leaves both engines; and no reserved opcode is listed. -/
theorem illegalWordIsRejectedWhole : Obligations.IllegalWordIsRejectedWhole := by
  unfold Obligations.IllegalWordIsRejectedWhole
  refine ⟨fun s rest w hb hp hw => ⟨_, step_write_illegal hb hp hw, ?_⟩, fun w hreserved ⟨hop, _, _⟩ => ?_⟩
  · exact ⟨State.raiseCmd_enc _ _, State.raiseCmd_dec _ _, State.raiseCmd_cmdErr _ _, fun hclear => by simp [hclear]⟩
  · exact op_not_reserved_of_listed _ hop hreserved

/-- Settles O25: ENC_BUILD's header is twelve zeros, and ENC_FINISH then only ends the pass. -/
theorem emptyInputGivesTwelveZeroBytes : Obligations.EmptyInputGivesTwelveZeroBytes := by
  unfold Obligations.EmptyInputGivesTwelveZeroBytes
  intro s hp h0
  have hbuild := exec_encBuild_of_ok (Enc.build_of_empty hp h0)
  have hfinish := Enc.finish_of_empty (e := s.enc.emit (List.replicate Config.hdrBytes 0)) h0
  have hstream : leBytes 8 0 ++ leBytes 4 0 = List.replicate 12 0 := by
    rw [leBytes_zero, leBytes_zero, List.replicate_append_replicate]
  refine ⟨hbuild, ?_⟩
  rw [execAll_cons_of_next hbuild, hstream]
  exact congrArg (fun e => Host.Outcome.next (s.withEnc e)) hfinish

end Sys2Proof.Machine

/-! SUPPORT. Pack, Flush and the packed output of pass 2 (40_encoder.md R124, R126, R128). -/

namespace Sys2Proof.Machine

/-! ### Pack -/

theorem Packer.drain_of_emitted_nil {more : Nat → Bool} {fuel : Nat} {p : Packer}
    (h : (Packer.drain more fuel p).2 = []) : (Packer.drain more fuel p).1 = p := by
  cases fuel with
  | zero => rfl
  | succ fuel =>
    unfold Packer.drain at h ⊢
    split
    · rename_i hgo
      rw [if_pos hgo] at h
      cases h
    · rfl

/-- The last byte the drain loop emitted was emitted under its test. -/
theorem Packer.drain_more_of_emitted {more : Nat → Bool} {fuel : Nat} {p : Packer}
    (h : (Packer.drain more fuel p).2 ≠ []) : more ((Packer.drain more fuel p).1.live + 8) = true := by
  induction fuel generalizing p with
  | zero => exact absurd rfl h
  | succ fuel ih =>
    unfold Packer.drain at h ⊢
    split
    · rename_i hgo
      rw [Bool.and_eq_true, decide_eq_true_eq] at hgo
      obtain ⟨hmore, h8⟩ := hgo
      by_cases hlast : (Packer.drain more fuel p.dropByte).2 = []
      · have hlive : p.dropByte.live + 8 = p.live := Nat.sub_add_cancel h8
        simpa only [Packer.drain_of_emitted_nil hlast, hlive] using hmore
      · exact ih hlast
    · rename_i hstop
      exact absurd (by rw [if_neg hstop]) h

/-- Everything Pack can do (40_encoder.md R124). -/
theorem Packer.pack_spec {p : Packer} (h : p.Inv) {code : Word} {n : Nat} (hn : n ≤ 32) (hcode : code.toNat < 2 ^ n) :
    payloadBits (p.pack code n).2 ++ (p.pack code n).1.bits = p.bits ++ bitsOf code.toNat n ∧
    (p.pack code n).2.length ≤ 4 ∧
    ((p.pack code n).1.live ≤ 32 ∨ (p.pack code n).1.live < n + 8) ∧
    ((p.pack code n).2 ≠ [] → 32 < (p.pack code n).1.live + 8) := by
  have hlive := h.live_le
  obtain ⟨hbits, hacc, hcount, hstop⟩ :=
    Packer.drain_spec (fun live => decide (32 < live + n)) p.live p h.acc_lt (by omega)
  rw [decide_eq_false_iff_not] at hstop
  obtain ⟨happend, -, hsum⟩ := Packer.append_spec code n _ hacc hcode (by omega)
  simp only [Packer.pack]
  refine ⟨?_, by omega, by omega, fun hne => ?_⟩
  · rw [happend, ← List.append_assoc, hbits]
  · have hlast := of_decide_eq_true (Packer.drain_more_of_emitted hne)
    omega

/-! ### Flush -/

theorem padding_eq_of_mod_eq {m n : Nat} (h : m % 8 = n % 8) : padding m = padding n := by
  rw [padding, padding, h]

theorem bitsOf_shiftLeft_low (v k : Nat) : bitsOf (v <<< k) k = List.replicate k false := by
  apply List.ext_getElem
  · simp
  · intro i h1 h2
    have hi : i < k := by simpa using h1
    rw [getElem_bitsOf, Nat.testBit_shiftLeft, List.getElem_replicate, decide_eq_false (by omega), Bool.false_and]

/-- A bit string with `k` 0 bits after it. -/
theorem bitsOf_shiftLeft (v m k : Nat) : bitsOf (v <<< k) (m + k) = bitsOf v m ++ List.replicate k false := by
  rw [bitsOf_add, Nat.shiftLeft_shiftRight, bitsOf_shiftLeft_low]

/-- Flush's partial byte: the remaining bits left-justified (40_encoder.md R126). -/
theorem Packer.payloadBits_lastByte {p : Packer} (h : p.live < 8) :
    payloadBits p.lastByte = p.bits ++ padding p.live := by
  unfold Packer.lastByte
  split
  · have hfill : (8 - p.live % 8) % 8 = 8 - p.live := by omega
    have hwidth : bitsOf ((p.acc <<< (8 - p.live)).setWidth 8).toNat 8 = bitsOf (p.acc.toNat <<< (8 - p.live)) 8 := by
      rw [BitVec.toNat_setWidth, BitVec.toNat_shiftLeft, Nat.mod_mod_of_dvd _ (by decide : 2 ^ 8 ∣ 2 ^ 64), bitsOf_mod]
    have hsplit := bitsOf_shiftLeft p.acc.toNat p.live (8 - p.live)
    rw [Nat.add_sub_cancel' h.le] at hsplit
    rw [payloadBits_cons, payloadBits_nil, List.append_nil, hwidth, hsplit, padding, hfill]
    rfl
  · rename_i hnone
    have h0 : p.live = 0 := by omega
    simp [Packer.bits, h0, padding]

theorem Packer.length_lastByte {p : Packer} (h : p.live < 8) : p.lastByte.length = (p.live + 7) / 8 := by
  unfold Packer.lastByte
  split
  · rw [List.length_singleton]
    omega
  · rw [List.length_nil]
    omega

/-- Everything Flush emits (40_encoder.md R126). -/
theorem Packer.flush_spec {p : Packer} (h : p.Inv) :
    payloadBits p.flush.2 = p.bits ++ padding p.live ∧ p.flush.2.length = (p.live + 7) / 8 := by
  obtain ⟨hbits, -, hcount, hstop⟩ := Packer.drain_spec (fun _ => true) p.live p h.acc_lt (by omega)
  have hlast : (Packer.drain (fun _ => true) p.live p).1.live < 8 := hstop.resolve_left Bool.noConfusion
  simp only [Packer.flush]
  refine ⟨?_, ?_⟩
  · rw [payloadBits_append, Packer.payloadBits_lastByte hlast, ← List.append_assoc, hbits]
    exact congrArg _ (padding_eq_of_mod_eq (by omega))
  · rw [List.length_append, Packer.length_lastByte hlast]
    omega

/-! ### Pass 2 -/

/-- The encoder after `n` ENC_PUTs of which the packer's result is `r` (40_encoder.md R125). -/
def Enc.afterPuts (n : Nat) (r : Packer × List Byte) (e : Enc) : Enc :=
  { e.withPacked r with putCnt := e.putCnt + BitVec.ofNat 64 n }

theorem Enc.afterPuts_packer (n : Nat) (r : Packer × List Byte) (e : Enc) : (e.afterPuts n r).packer = r.1 := rfl

theorem Enc.afterPuts_code (n : Nat) (r : Packer × List Byte) (e : Enc) : (e.afterPuts n r).code = e.code := rfl

theorem Enc.afterPuts_zero (e : Enc) : e.afterPuts 0 (e.packer, []) = e := by
  simp [Enc.afterPuts, Enc.withPacked, Enc.packer]

theorem Enc.afterPuts_afterPuts (m n : Nat) (r r' : Packer × List Byte) (e : Enc) :
    (e.afterPuts m r).afterPuts n r' = e.afterPuts (m + n) (r'.1, r.2 ++ r'.2) := by
  simp [Enc.afterPuts, Enc.withPacked, BitVec.ofNat_add, BitVec.add_assoc]

theorem Enc.put_of_coded {e : Enc} {b : Byte} (hp : e.phase = .encode) (hcode : e.codeLen.get b ≠ 0)
    (hcnt : e.putCnt ≠ e.encLen) : e.put b = e.afterPuts 1 (e.packer.pack (e.codePat.get b) (e.codeLen.get b)) := by
  simp only [Enc.put, hp, Enc.putSymbol, if_neg hcode, if_neg hcnt]
  rfl

theorem Enc.finish_afterPuts {e : Enc} {n : Nat} (r : Packer × List Byte) (hp : e.phase = .encode)
    (hcnt : e.putCnt + BitVec.ofNat 64 n = e.encLen) :
    (e.afterPuts n r).finish =
      { e with putCnt := e.encLen, acc := 0, live := 0, out := e.out ++ (r.2 ++ r.1.flush.2), phase := .done } := by
  have hempty : r.1.flush.1 = ⟨0, 0⟩ := rfl
  rw [Enc.finish_of_complete (e := e.afterPuts n r) hp hcnt, Enc.afterPuts_packer, Enc.withPacked, hempty]
  simp [Enc.afterPuts, Enc.withPacked, hcnt]

/-- A code of the table that Pack may take: not empty, at most 32 bits, no wider than its length says (10_state.md R38). -/
def Enc.Coded (e : Enc) (b : Byte) : Prop :=
  1 ≤ e.codeLen.get b ∧ e.codeLen.get b ≤ 32 ∧ (e.codePat.get b).toNat < 2 ^ e.codeLen.get b

/-- Pass 2 before its end: the bits emitted, followed by the bits still live, are the bits live before and then the codes. -/
theorem Enc.foldl_put (xs : List Byte) (e : Enc) (hp : e.phase = .encode) (hpack : e.packer.Inv)
    (hcnt : e.putCnt.toNat + xs.length ≤ e.encLen.toNat) (hcoded : ∀ x ∈ xs, e.Coded x) :
    ∃ r : Packer × List Byte, xs.foldl (fun e x => e.put x) e = e.afterPuts xs.length r ∧
      r.1.Inv ∧ payloadBits r.2 ++ r.1.bits = e.packer.bits ++ xs.flatMap e.code := by
  induction xs generalizing e with
  | nil => exact ⟨(e.packer, []), e.afterPuts_zero.symm, hpack, by simp⟩
  | cons x xs ih =>
    rw [List.length_cons] at hcnt
    obtain ⟨⟨hpos, hle, hlt⟩, hrest⟩ := List.forall_mem_cons.1 hcoded
    have hmore : e.putCnt ≠ e.encLen := fun he => by rw [he] at hcnt; omega
    have hone : (e.putCnt + 1).toNat + xs.length ≤ e.encLen.toNat := by
      have hbound := e.encLen.isLt
      rw [toNat_add_one (by omega)]
      omega
    obtain ⟨hbits, -⟩ := Packer.pack_spec hpack hle hlt
    have hkeep := hpack.pack hle hlt
    have hput := Enc.put_of_coded hp (Nat.ne_of_gt hpos) hmore
    generalize e.packer.pack (e.codePat.get x) (e.codeLen.get x) = first at hbits hkeep hput
    obtain ⟨r, hrun, hinv, hcat⟩ := ih (e.afterPuts 1 first) hp hkeep hone hrest
    rw [Enc.afterPuts_packer, Enc.afterPuts_code] at hcat
    refine ⟨(r.1, first.2 ++ r.2), ?_, hinv, ?_⟩
    · rw [List.foldl_cons, hput, hrun, Enc.afterPuts_afterPuts, List.length_cons, Nat.add_comm]
    · calc payloadBits (first.2 ++ r.2) ++ r.1.bits
          = (payloadBits first.2 ++ first.1.bits) ++ xs.flatMap e.code := by
            rw [payloadBits_append, List.append_assoc, hcat, List.append_assoc]
        _ = e.packer.bits ++ (x :: xs).flatMap e.code := by
            rw [hbits, List.append_assoc, List.flatMap_cons, Enc.code]

theorem execAll_append_of_next {is : List Instr} {s t : State} (h : execAll is s = .next t) (js : List Instr) :
    execAll (is ++ js) s = execAll js t := by
  induction is generalizing s with
  | nil => cases h; rfl
  | cons i is ih =>
    rw [List.cons_append]
    cases hi : exec i s with
    | next u =>
      rw [execAll_cons_of_next hi] at h ⊢
      exact ih h
    | fault f => simp only [execAll, hi] at h; cases h
    | refused r => simp only [execAll, hi] at h; cases h

theorem execAll_encPuts (xs : List Byte) (s : State) :
    execAll (encPuts xs) s = .next (s.withEnc (xs.foldl (fun e x => e.put x) s.enc)) := by
  induction xs generalizing s with
  | nil => rfl
  | cons x xs ih => exact ih (s.withEnc (s.enc.put x))

end Sys2Proof.Machine

/-! SUPPORT. The statements of 40_encoder.md on pass 2, settled. -/

namespace Sys2Proof.Machine

/-- Settles O39: the packer's invariant carries the ENC_PUTs, and ENC_FINISH flushes the bits still live. -/
theorem packedOutputIsTheConcatenatedCodes : Obligations.PackedOutputIsTheConcatenatedCodes := by
  unfold Obligations.PackedOutputIsTheConcatenatedCodes
  intro s xs hp hcnt hacc hlive hlen hcoded
  have hpacker : s.enc.packer = ⟨0, 0⟩ := by rw [Enc.packer, hacc, hlive]
  obtain ⟨⟨p, bytes⟩, hputs, hinv, hcat⟩ :=
    Enc.foldl_put xs s.enc hp (hpacker ▸ Packer.Inv.empty) (by simp [hcnt, hlen]) hcoded
  have hall : s.enc.putCnt + BitVec.ofNat 64 xs.length = s.enc.encLen := by simp [hcnt, hlen]
  obtain ⟨hflush, -⟩ := Packer.flush_spec hinv
  have hlength := congrArg List.length hcat
  simp only [hpacker, List.length_append, length_payloadBits, Packer.bits, length_bitsOf] at hlength
  refine ⟨bytes ++ p.flush.2, ?_, ?_⟩
  · have hfinish := Enc.finish_afterPuts (p, bytes) hp hall
    rw [execAll_append_of_next (execAll_encPuts xs s), hputs]
    exact congrArg (fun e => Host.Outcome.next (s.withEnc e)) hfinish
  · rw [payloadBits_append, hflush, ← List.append_assoc, hcat, hpacker]
    refine congrArg _ (padding_eq_of_mod_eq ?_)
    simp only
    omega

/-- Settles O35: the drain and the append, and the drain's last test. -/
theorem packAppendsTheCode : Obligations.PackAppendsTheCode := by
  unfold Obligations.PackAppendsTheCode
  refine ⟨fun p code n h _ hn hcode => ?_, rfl⟩
  obtain ⟨hbits, hbytes, hstop, hlast⟩ := Packer.pack_spec h hn hcode
  exact ⟨hbits, h.pack hn hcode, hbytes, hstop, hlast⟩

/-- Settles O36: the whole bytes, then the partial one. -/
theorem flushEmitsTheRemainingBits : Obligations.FlushEmitsTheRemainingBits := by
  unfold Obligations.FlushEmitsTheRemainingBits
  intro p h
  obtain ⟨hbits, hlength⟩ := Packer.flush_spec h
  have hlive := h.live_le
  exact ⟨rfl, hbits, hlength, by omega⟩

end Sys2Proof.Machine

/-! SUPPORT. Under the invariants no command faults (10_state.md R50): with a length counted ENC_BUILD has a tree
(40_encoder.md R118), and a table entry finds its nodes (41_decoder.md R169). -/

namespace Sys2Proof.Machine

/-! ### The tree -/

theorem length_initialList (freq : SymTab DWord) : (initialList freq).length = (presentSymbols freq).length := by
  rw [(initialList_perm freq).length_eq, filterMap_presentLeaf, List.length_map]

/-- BuildTree gives no tree exactly when no symbol is present (40_encoder.md R118). -/
theorem buildTree_eq_none_iff (freq : SymTab DWord) : buildTree freq = none ↔ presentSymbols freq = [] := by
  rw [← List.length_eq_zero_iff, ← length_initialList, List.length_eq_zero_iff]
  refine ⟨fun hnone => by_contra fun hne => ?_, fun hnil => ?_⟩
  · have hsome := mergeLoop_isSome (initialList freq).length (initialList freq) hne (Nat.le_succ _)
    rw [show mergeLoop _ _ = none from hnone] at hsome
    cases hsome
  · rw [buildTree, hnil, List.length_nil, mergeLoop]

theorem exists_buildTree {freq : SymTab DWord} {b : Byte} (h : freq.get b ≠ 0) : ∃ root, buildTree freq = some root := by
  refine Option.ne_none_iff_exists'.1 fun hnone => ?_
  exact List.ne_nil_of_mem (mem_presentSymbols.2 h) ((buildTree_eq_none_iff freq).1 hnone)

theorem exists_present_of_totalCount {freq : SymTab DWord} (h : totalCount freq ≠ 0) : ∃ b, freq.get b ≠ 0 := by
  obtain ⟨b, hb⟩ := List.exists_mem_of_ne_nil (presentSymbols freq) fun hnil =>
    h (by rw [totalCount_eq_present, hnil]; rfl)
  exact ⟨b, mem_presentSymbols.1 hb⟩

/-! ### The two commands that can fault -/

theorem Enc.build_error {e : Enc} {f : Fault} (h : e.build = .error f) :
    e.encLen ≠ 0 ∧ buildTree e.freq = none := by
  unfold Enc.build Enc.buildTable at h
  split at h
  · split at h
    · cases h
    · rename_i hlen
      split at h
      · cases h
      · rename_i hnone
        exact ⟨hlen, hnone⟩
  all_goals cases h

theorem Enc.Inv.build_ne_error {e : Enc} (h : e.Inv) (f : Fault) : e.build ≠ .error f := by
  intro hf
  obtain ⟨hlen, hnone⟩ := Enc.build_error hf
  have hcounted : totalCount e.freq ≠ 0 := fun h0 => hlen (BitVec.eq_of_toNat_eq (h.len_sum.trans h0))
  obtain ⟨b, hb⟩ := exists_present_of_totalCount hcounted
  obtain ⟨root, hroot⟩ := exists_buildTree hb
  cases hroot.symm.trans hnone

theorem Dec.put_error {b : Byte} {d : Dec} {f : Fault} (h : d.put b = .error f) :
    d.phase = .table ∧ ∃ sym pat n, insertEntry sym pat n d.store = .noSlot := by
  unfold Dec.put at h
  split at h
  case h_2 hp =>
    obtain ⟨sym, pat, len, ⟨-, heq⟩ | ⟨-, heq⟩⟩ := d.tableByte_cases b <;> rw [heq] at h
    · unfold Dec.finishEntry at h
      split at h
      · cases h
      · cases h
      · rename_i hfull
        exact ⟨hp, _, _, _, hfull⟩
    · cases h
  all_goals cases h

/-- In phase TABLE an entry of the greatest length finds its nodes (41_decoder.md R169). -/
theorem Dec.Inv.room_for_entry {d : Dec} (h : d.Inv) (hp : d.phase = .table) : d.store.next + 32 ≤ Config.decNodes := by
  obtain ⟨-, hmax⟩ := h.entries (.inl hp)
  have hleft := h.entries_left hp
  have hnext := h.next_le
  simp only [Config.maxEntries, Config.decNodes] at hmax ⊢
  omega

theorem Dec.Inv.put_ne_error {d : Dec} (h : d.Inv) (b : Byte) (f : Fault) : d.put b ≠ .error f := by
  intro hf
  obtain ⟨hp, sym, pat, n, hfull⟩ := Dec.put_error hf
  rcases insertEntry_cases sym pat n d.store h.store with ⟨_, hins, -⟩ | ⟨_, _, hfail, -⟩ | ⟨-, hroom⟩
  · cases hins.symm.trans hfull
  · cases hfail.symm.trans hfull
  · exact absurd (h.room_for_entry hp) (not_le.2 hroom)

theorem State.Inv.exec_ne_fault {s : State} (h : s.Inv) (i : Instr) (f : Fault) : exec i s ≠ .fault f := by
  cases i with
  | encBuild =>
    simp only [exec, execEncBuild]
    split
    · nofun
    · rename_i hf
      exact absurd hf (h.enc.build_ne_error _)
  | decPut b =>
    simp only [exec, execDecPut]
    split
    · nofun
    · rename_i hf
      exact absurd hf (h.dec.put_ne_error b _)
  | _ => nofun

/-- Settles O55: of a step's outcomes only a command can fault, and none does. -/
theorem invariantRulesOutFaults : Obligations.InvariantRulesOutFaults := by
  unfold Obligations.InvariantRulesOutFaults
  intro s h f hs
  rcases step_cases s with ⟨-, heq⟩ | ⟨op, rest, -, ⟨i, -, heq⟩ | ⟨t, -, heq⟩ | ⟨r, -, heq⟩⟩
  · cases heq.symm.trans hs
  · exact (h.withHost rest s.hostReads s.draws).exec_ne_fault i f (heq.symm.trans hs)
  · cases heq.symm.trans hs
  · cases heq.symm.trans hs

end Sys2Proof.Machine

/-! SUPPORT. The encoder's tree (40_encoder.md R115 to R119): the order of the initial list, the merge, sizes and weights. -/

namespace Sys2Proof.Machine

/-! ### The order of the initial list -/

/-- In a list of ascending weights, what stands behind the new node is heavier (40_encoder.md R117). -/
theorem insertAfterEqual_split_of_sorted (t : HTree) {l : List HTree} (hl : l.Pairwise fun u v => u.weight ≤ v.weight) :
    ∃ pre post, l = pre ++ post ∧ insertAfterEqual t l = pre ++ t :: post ∧
      (∀ u ∈ pre, u.weight ≤ t.weight) ∧ ∀ u ∈ post, t.weight < u.weight := by
  obtain ⟨pre, post, rfl, hinsert, hpre, hpost⟩ := insertAfterEqual_split t l
  refine ⟨pre, post, rfl, hinsert, hpre, ?_⟩
  have hsorted := (List.pairwise_append.1 hl).2.1
  cases post with
  | nil => simp
  | cons v post =>
    have hv : t.weight < v.weight := hpost v rfl
    intro u hu
    rcases List.mem_cons.1 hu with rfl | hu
    · exact hv
    · exact hv.trans_le (List.rel_of_pairwise_cons hsorted hu)

/-- The leaf of a present symbol, with its count as weight (40_encoder.md R115). -/
def symbolLeaf (freq : SymTab DWord) (b : Byte) : HTree :=
  .leaf b (freq.get b).toNat

/-- Ascending weight, equal weights by ascending symbol (40_encoder.md R115). -/
def LighterFirst (freq : SymTab DWord) (a b : Byte) : Prop :=
  (freq.get a).toNat < (freq.get b).toNat ∨ ((freq.get a).toNat = (freq.get b).toNat ∧ a.toNat < b.toNat)

/-- A new leaf whose symbol is above all symbols in the list goes to its place in the order. -/
theorem insertAfterEqual_lighterFirst {freq : SymTab DWord} {order : List Byte} {b : Byte}
    (hsorted : order.Pairwise (LighterFirst freq)) (habove : ∀ a ∈ order, a.toNat < b.toNat) :
    ∃ order' : List Byte,
      insertAfterEqual (symbolLeaf freq b) (order.map (symbolLeaf freq)) = order'.map (symbolLeaf freq) ∧
      order'.Perm (b :: order) ∧ order'.Pairwise (LighterFirst freq) := by
  have hweights : (order.map (symbolLeaf freq)).Pairwise fun u v => u.weight ≤ v.weight :=
    List.pairwise_map.2 (hsorted.imp fun h => h.elim Nat.le_of_lt fun h => Nat.le_of_eq h.1)
  obtain ⟨pre, post, hsplit, hinsert, hpre, hpost⟩ := insertAfterEqual_split_of_sorted (symbolLeaf freq b) hweights
  obtain ⟨as, cs, rfl, rfl, rfl⟩ := List.map_eq_append_iff.1 hsplit
  refine ⟨as ++ b :: cs, by simpa using hinsert, List.perm_middle, ?_⟩
  obtain ⟨has, hcs, hcross⟩ := List.pairwise_append.1 hsorted
  have hafter : ∀ c ∈ cs, LighterFirst freq b c := fun c hc => .inl (hpost _ (List.mem_map_of_mem hc))
  refine List.pairwise_append.2 ⟨has, List.pairwise_cons.2 ⟨hafter, hcs⟩, ?_⟩
  intro a ha c hc
  rcases List.mem_cons.1 hc with rfl | hc
  · have hle : (freq.get a).toNat ≤ (freq.get c).toNat := hpre _ (List.mem_map_of_mem ha)
    have hlt := habove a (List.mem_append_left _ ha)
    unfold LighterFirst
    omega
  · exact hcross a ha c hc

/-- Insertion of ascending symbols' leaves sorts them. -/
theorem foldl_insert_lighterFirst (freq : SymTab DWord) (bs : List Byte) (hbs : bs.Pairwise fun a b => a.toNat < b.toNat) :
    ∃ order : List Byte,
      (bs.map (symbolLeaf freq)).foldl (fun l t => insertAfterEqual t l) [] = order.map (symbolLeaf freq) ∧
      order.Perm bs ∧ order.Pairwise (LighterFirst freq) := by
  induction bs using List.reverseRecOn with
  | nil => exact ⟨[], rfl, List.Perm.refl _, List.Pairwise.nil⟩
  | append_singleton bs b ih =>
    obtain ⟨hinit, -, hbelow⟩ := List.pairwise_append.1 hbs
    obtain ⟨order, heq, hperm, hsorted⟩ := ih hinit
    obtain ⟨order', heq', hperm', hsorted'⟩ := insertAfterEqual_lighterFirst (b := b) hsorted
      fun a ha => hbelow a (hperm.subset ha) b (List.mem_singleton_self b)
    refine ⟨order', ?_, ?_, hsorted'⟩
    · rw [List.map_append, List.foldl_append, heq]
      exact heq'
    · exact hperm'.trans ((hperm.cons b).trans (List.perm_append_singleton b bs).symm)

/-! ### The merge -/

theorem mergeLoop_singleton (fuel : Nat) (t : HTree) : mergeLoop fuel [t] = some t := by
  cases fuel <;> rfl

/-! ### Size and depth -/

theorem HTree.internals_add_one (t : HTree) : t.internals + 1 = t.symbols.length := by
  induction t with
  | leaf s w => rfl
  | internal w one zero ihone ihzero =>
    rw [HTree.internals, HTree.symbols, List.length_append, ← ihone, ← ihzero]
    omega

theorem HTree.depth_le_internals (t : HTree) : t.depth ≤ t.internals := by
  induction t with
  | leaf s w => exact le_refl _
  | internal w one zero ihone ihzero =>
    rw [HTree.depth, HTree.internals]
    omega

theorem length_presentSymbols_le (freq : SymTab DWord) : (presentSymbols freq).length ≤ 256 :=
  (List.length_filter_le _ _).trans_eq length_allSymbols

/-! ### Weights -/

/-- The trees of a list are built of summed weights, and together they weigh `n` (40_encoder.md R119). -/
def WeighsTogether (n : Nat) (l : List HTree) : Prop :=
  (∀ t ∈ l, t.WeightsAdd) ∧ (l.map HTree.weight).sum = n

theorem WeighsTogether.perm {n : Nat} {l l' : List HTree} (hperm : l'.Perm l) (h : WeighsTogether n l) :
    WeighsTogether n l' :=
  ⟨fun t ht => h.1 t (hperm.subset ht), (hperm.map HTree.weight).sum_eq.trans h.2⟩

theorem WeighsTogether.merge {n : Nat} {a b : HTree} {rest : List HTree} (h : WeighsTogether n (a :: b :: rest)) :
    WeighsTogether n (insertAfterEqual (mergeNodes a b) rest) := by
  obtain ⟨hadd, hsum⟩ := h
  obtain ⟨ha, hb, hrest⟩ : a.WeightsAdd ∧ b.WeightsAdd ∧ ∀ t ∈ rest, t.WeightsAdd := by simpa using hadd
  have hmerged : (mergeNodes a b).WeightsAdd := ⟨rfl, ha, hb⟩
  have hweight : (mergeNodes a b).weight = a.weight + b.weight := rfl
  refine WeighsTogether.perm (insertAfterEqual_perm _ _) ⟨List.forall_mem_cons.2 ⟨hmerged, hrest⟩, ?_⟩
  rw [← hsum, List.map_cons, List.sum_cons, hweight, List.map_cons, List.map_cons, List.sum_cons, List.sum_cons,
    Nat.add_assoc]

theorem initialList_weighs (freq : SymTab DWord) : WeighsTogether (totalCount freq) (initialList freq) := by
  refine WeighsTogether.perm (initialList_perm freq) ?_
  rw [filterMap_presentLeaf]
  refine ⟨fun t ht => ?_, ?_⟩
  · obtain ⟨b, -, rfl⟩ := List.mem_map.1 ht
    trivial
  · rw [totalCount_eq_present, List.map_map]
    rfl

theorem buildTree_weighs {freq : SymTab DWord} {root : HTree} (h : buildTree freq = some root) :
    root.WeightsAdd ∧ root.weight = totalCount freq := by
  have hroot := mergeLoop_induct (WeighsTogether (totalCount freq)) (fun _ _ _ => WeighsTogether.merge) _ _
    (initialList_weighs freq) root h
  exact ⟨hroot.1 root (List.mem_singleton_self root), by simpa using hroot.2⟩

/-! ### The statements of 40_encoder.md on the tree, settled -/

/-- Settles O28: sizes and depth are those of any tree with these leaves. -/
theorem treeSizeAndDepth : Obligations.TreeSizeAndDepth := by
  unfold Obligations.TreeSizeAndDepth
  intro freq
  refine ⟨(buildTree_eq_none_iff freq).symm, fun root hroot => ?_⟩
  have hsymbols := buildTree_symbols hroot
  have hlength := hsymbols.length_eq
  have hinternals := root.internals_add_one
  have hdepth := root.depth_le_internals
  have hmax := length_presentSymbols_le freq
  exact ⟨hsymbols, hlength, by omega, by omega, by omega, by omega⟩

/-- Settles O29: every merge keeps the sum of the list's weights. -/
theorem treeWeightsAddUp : Obligations.TreeWeightsAddUp := by
  unfold Obligations.TreeWeightsAddUp
  intro e root hroot
  obtain ⟨hadd, hweight⟩ := buildTree_weighs hroot
  exact ⟨hadd, hweight, fun h => hweight.trans h.len_sum.symm⟩

/-- Settles O30: the leaves come to the insertion in ascending symbol order. -/
theorem initialListIsStablySorted : Obligations.InitialListIsStablySorted := by
  unfold Obligations.InitialListIsStablySorted
  intro freq
  obtain ⟨order, heq, hperm, hsorted⟩ :=
    foldl_insert_lighterFirst freq (presentSymbols freq) (allSymbols_sorted.filter _)
  refine ⟨order, ?_, hperm, hsorted⟩
  rw [initialList, filterMap_presentLeaf]
  exact heq

/-- Settles O31: the merged node's place is where the insertion splits the sorted rest. -/
theorem mergedNodeGoesAfterEqualWeights : Obligations.MergedNodeGoesAfterEqualWeights := by
  unfold Obligations.MergedNodeGoesAfterEqualWeights
  refine ⟨fun _ => rfl, mergeLoop_singleton, fun fuel a b rest hrest => ?_⟩
  obtain ⟨pre, post, hsplit, hinsert, hpre, hpost⟩ := insertAfterEqual_split_of_sorted (mergeNodes a b) hrest
  exact ⟨pre, post, hsplit, congrArg (mergeLoop fuel) hinsert, hpre, hpost⟩

end Sys2Proof.Machine

/-! SUPPORT. The codes ENC_BUILD makes and the header it emits (40_encoder.md R114, R120 to R123, R129). -/

namespace Sys2Proof.Machine

/-! ### Codes and paths -/

/-- One more step of a walk is one more bit of its pattern (40_encoder.md R120). -/
theorem bitsOf_walk_step (p d : Nat) (bit : Bool) : bitsOf (2 * p + bit.toNat) (d + 1) = bitsOf p d ++ [bit] := by
  have hhigh : (2 * p + bit.toNat) >>> 1 = p := by
    rw [Nat.shiftRight_one]
    cases bit <;> simp only [Bool.toNat_false, Bool.toNat_true] <;> omega
  have hlow : bitsOf (2 * p + bit.toNat) 1 = [bit] := by
    cases bit <;> simp [bitsOf]
  rw [bitsOf_add, hhigh, hlow]

/-- A walk from pattern `p` at depth `d` gives each leaf it reaches the bits of `p` and then those of the path to the leaf. -/
theorem HTree.walk_path (t : HTree) (p d : Nat) :
    ∀ c ∈ t.walk p d, ∃ path, bitsOf c.pat c.len = bitsOf p d ++ path ∧ t.follow path = some c.sym := by
  induction t generalizing p d with
  | leaf s w =>
    intro c hc
    obtain rfl := List.mem_singleton.1 hc
    exact ⟨[], (List.append_nil _).symm, rfl⟩
  | internal w one zero ihone ihzero =>
    intro c hc
    rcases List.mem_append.1 hc with hc | hc
    · obtain ⟨path, hbits, hfollow⟩ := ihone _ _ c hc
      refine ⟨true :: path, ?_, hfollow⟩
      rw [hbits, show 2 * p + 1 = 2 * p + true.toNat from rfl, bitsOf_walk_step, List.append_assoc, List.singleton_append]
    · obtain ⟨path, hbits, hfollow⟩ := ihzero _ _ c hc
      refine ⟨false :: path, ?_, hfollow⟩
      rw [hbits, show 2 * p = 2 * p + false.toNat from rfl, bitsOf_walk_step, List.append_assoc, List.singleton_append]

/-- With at least two leaves each code is its leaf's path (40_encoder.md R120). -/
theorem follow_genCodes {root : HTree} (h : 2 ≤ root.symbols.length) {c : CodeEntry} (hc : c ∈ genCodes root) :
    root.follow (bitsOf c.pat c.len) = some c.sym := by
  cases root with
  | leaf s w => exact absurd h (by simp [HTree.symbols])
  | internal w one zero =>
    obtain ⟨path, hbits, hfollow⟩ := HTree.walk_path _ 0 0 c hc
    rw [hbits]
    exact hfollow

/-- A path that goes on from a leaf leads nowhere. -/
theorem HTree.follow_prefix (t : HTree) {short long : List Bool} {a b : Byte} (hprefix : short <+: long)
    (ha : t.follow short = some a) (hb : t.follow long = some b) : a = b := by
  obtain ⟨more, rfl⟩ := hprefix
  induction t generalizing short with
  | leaf s w =>
    cases short with
    | nil =>
      cases more with
      | nil => exact Option.some.inj (ha.symm.trans hb)
      | cons bit more => cases hb
    | cons bit short => cases ha
  | internal w one zero ihone ihzero =>
    cases short with
    | nil => cases ha
    | cons bit short =>
      cases bit with
      | true => exact ihone ha hb
      | false => exact ihzero ha hb

/-! ### The code tables of a built tree -/

/-- The encoder after an ENC_BUILD that wrote the codes of `root` (40_encoder.md R114). -/
def Enc.encoded (root : HTree) (e : Enc) : Enc :=
  ((e.withCodes (genCodes root)).emit (headerBytes (e.withCodes (genCodes root)))).enterEncode

theorem Enc.encoded_codePat (root : HTree) (e : Enc) : (e.encoded root).codePat = patTable (genCodes root) := rfl

theorem Enc.encoded_codeLen (root : HTree) (e : Enc) : (e.encoded root).codeLen = lenTable (genCodes root) := rfl

theorem genCodes_inj {freq : SymTab DWord} {root : HTree} (h : buildTree freq = some root) {c d : CodeEntry}
    (hc : c ∈ genCodes root) (hd : d ∈ genCodes root) (hsym : c.sym = d.sym) : c = d := by
  have hnodup : ((genCodes root).map CodeEntry.sym).Nodup := by
    rw [genCodes_symbols]
    exact (buildTree_symbols h).nodup_iff.2 (nodup_allSymbols.filter _)
  exact List.inj_on_of_nodup_map hnodup hc hd hsym

/-- Each leaf's entry stands in the tables as GenCodes made it, if its pattern fits (40_encoder.md R114). -/
theorem codeTables_of_mem {freq : SymTab DWord} {root : HTree} (h : buildTree freq = some root) {c : CodeEntry}
    (hc : c ∈ genCodes root) (hfits : c.len ≤ 32) :
    ((patTable (genCodes root)).get c.sym).toNat = c.pat ∧ (lenTable (genCodes root)).get c.sym = c.len := by
  rcases codeTables_get (genCodes root) c.sym with ⟨-, -, hno⟩ | ⟨d, hd, hsym, hpat, hlen⟩
  · exact absurd rfl (hno c hc)
  · obtain rfl := genCodes_inj h hd hc hsym
    have hlt : d.pat < 2 ^ 32 := (genCodes_bounds root d hd).1.trans_le (Nat.pow_le_pow_right (by decide) hfits)
    exact ⟨by rw [hpat, BitVec.toNat_ofNat, Nat.mod_eq_of_lt hlt], hlen⟩

theorem codeTables_of_absent {freq : SymTab DWord} {root : HTree} (h : buildTree freq = some root) {b : Byte}
    (hb : freq.get b = 0) : (patTable (genCodes root)).get b = 0 ∧ (lenTable (genCodes root)).get b = 0 := by
  have hlen := (lenTable_eq_zero_iff h b).2 hb
  have hpat := patTable_lt root b
  rw [hlen, Nat.pow_zero, Nat.lt_one_iff] at hpat
  exact ⟨BitVec.eq_of_toNat_eq hpat, hlen⟩

/-! ### ENC_BUILD with symbols counted -/

theorem exec_encBuild_of_fits {s : State} {root : HTree} (hp : s.enc.phase = .count) (h0 : s.enc.encLen ≠ 0)
    (hroot : buildTree s.enc.freq = some root) (hfits : ∀ c ∈ genCodes root, c.len ≤ 32) :
    exec .encBuild s = .next (s.withEnc (s.enc.encoded root)) := by
  refine exec_encBuild_of_ok ?_
  rw [Enc.build_of_tree hp h0 hroot, Enc.buildFrom_of_fits hfits]
  rfl

theorem exec_encBuild_of_long {s : State} {root : HTree} (hp : s.enc.phase = .count) (h0 : s.enc.encLen ≠ 0)
    (hroot : buildTree s.enc.freq = some root) (hlong : ∃ c ∈ genCodes root, 32 < c.len) :
    exec .encBuild s = .next (s.withEnc (s.enc.raise .codeTooLong)) := by
  refine exec_encBuild_of_ok ?_
  rw [Enc.build_of_tree hp h0 hroot, Enc.buildFrom_of_long hlong]

/-- An ENC_BUILD that reaches ENCODE with symbols counted wrote the codes of the tree, and they fit. -/
theorem exec_encBuild_encoded {s t : State} (hp : s.enc.phase = .count) (h0 : s.enc.encLen ≠ 0)
    (hexec : exec .encBuild s = .next t) (ht : t.enc.phase = .encode) :
    ∃ root, buildTree s.enc.freq = some root ∧ (∀ c ∈ genCodes root, c.len ≤ 32) ∧ t.enc = s.enc.encoded root := by
  obtain ⟨e, hbuild, rfl⟩ := exec_encBuild_next hexec
  rcases Enc.build_cases hbuild with rfl | ⟨c, -, rfl⟩ | ⟨-, hzero, -⟩ | ⟨-, root, hroot, hfits, rfl⟩
  · cases hp.symm.trans ht
  · cases ht
  · exact absurd hzero h0
  · exact ⟨root, hroot, hfits, rfl⟩

/-- The code of a leaf's symbol is the entry GenCodes made for it. -/
theorem Enc.code_encoded {e : Enc} {root : HTree} (hroot : buildTree e.freq = some root)
    (hfits : ∀ c ∈ genCodes root, c.len ≤ 32) {c : CodeEntry} (hc : c ∈ genCodes root) :
    (e.encoded root).code c.sym = bitsOf c.pat c.len := by
  obtain ⟨hpat, hlen⟩ := codeTables_of_mem hroot hc (hfits c hc)
  rw [Enc.code, Enc.encoded_codePat, Enc.encoded_codeLen, hpat, hlen]

theorem exists_genCodes_of_mem_symbols {root : HTree} {b : Byte} (hb : b ∈ root.symbols) :
    ∃ c ∈ genCodes root, c.sym = b := by
  rwa [← genCodes_symbols, List.mem_map] at hb

/-- With at least two leaves, a symbol's code leads to its leaf (40_encoder.md R120). -/
theorem Enc.follow_code_encoded {e : Enc} {root : HTree} (hroot : buildTree e.freq = some root)
    (hfits : ∀ c ∈ genCodes root, c.len ≤ 32) (htwo : 2 ≤ root.symbols.length) {b : Byte} (hb : b ∈ root.symbols) :
    root.follow ((e.encoded root).code b) = some b := by
  obtain ⟨c, hc, rfl⟩ := exists_genCodes_of_mem_symbols hb
  rw [Enc.code_encoded hroot hfits hc, follow_genCodes htwo hc]

/-- A sole symbol's code is the one bit 0 (40_encoder.md R121). -/
theorem genCodes_of_symbols_singleton {root : HTree} {b : Byte} (h : root.symbols = [b]) :
    genCodes root = [⟨b, 0, 1⟩] := by
  cases root with
  | leaf s w =>
    obtain rfl := List.singleton_inj.1 h
    rfl
  | internal w one zero =>
    have hcount := (HTree.internal w one zero).internals_add_one
    rw [h, HTree.internals, List.length_singleton] at hcount
    omega

/-! ### The header and the table -/

theorem length_entryBytes (e : Enc) (b : Byte) : (entryBytes e b).length = Config.entryBytes := by
  simp [entryBytes]

/-- Blocks of one length: what follows the first `k` blocks starts with block `k`. -/
theorem drop_flatMap_blocks {f : Byte → List Byte} {n : Nat} (hf : ∀ b, (f b).length = n) (l : List Byte) (k : Nat) :
    (l.flatMap f).drop (n * k) = (l.drop k).flatMap f := by
  induction k generalizing l with
  | zero => rfl
  | succ k ih =>
    cases l with
    | nil => simp
    | cons b l =>
      rw [List.flatMap_cons, List.drop_succ_cons, ← ih, Nat.mul_succ, Nat.add_comm, ← List.drop_drop,
        List.drop_left' (hf b)]

theorem length_flatMap_blocks {f : Byte → List Byte} {n : Nat} (hf : ∀ b, (f b).length = n) (l : List Byte) :
    (l.flatMap f).length = n * l.length := by
  simp [List.length_flatMap, hf, Nat.mul_comm]

/-- The header's two fields, then the table (30_encoding.md R89). -/
theorem headerBytes_fields (e : Enc) :
    (headerBytes e).take 8 = leBytes 8 e.encLen.toNat ∧
    ((headerBytes e).drop 8).take 4 = leBytes 4 (codedSymbols e).length ∧
    (headerBytes e).drop 12 = (codedSymbols e).flatMap (entryBytes e) := by
  unfold headerBytes
  refine ⟨?_, ?_, ?_⟩
  · rw [List.append_assoc, List.take_left' (length_leBytes 8 _)]
  · rw [List.append_assoc, List.drop_left' (length_leBytes 8 _), List.take_left' (length_leBytes 4 _)]
  · rw [List.drop_left' (by simp)]

theorem length_codedSymbols_le (e : Enc) : (codedSymbols e).length ≤ 256 :=
  (List.length_filter_le _ _).trans_eq length_allSymbols

/-- Entry `k` of the table (30_encoding.md R90). -/
theorem headerBytes_entry {e : Enc} {k : Nat} {b : Byte} (h : (codedSymbols e)[k]? = some b) :
    ((headerBytes e).drop (12 + 6 * k)).take 6 = entryBytes e b := by
  obtain ⟨-, -, htable⟩ := headerBytes_fields e
  obtain ⟨hk, rfl⟩ := List.getElem?_eq_some_iff.1 h
  rw [← List.drop_drop, htable, drop_flatMap_blocks (length_entryBytes e), List.drop_eq_getElem_cons hk, List.flatMap_cons,
    List.take_left' (length_entryBytes e _)]

/-! ### The statements of 40_encoder.md on ENC_BUILD, settled -/

/-- Settles O26: with a present symbol there is a tree, and its codes fit or one does not. -/
theorem encBuildWritesCodesAndHeader : Obligations.EncBuildWritesCodesAndHeader := by
  unfold Obligations.EncBuildWritesCodesAndHeader
  rintro s hp h0 ⟨b, hb⟩
  obtain ⟨root, hroot⟩ := exists_buildTree hb
  refine ⟨root, hroot, exec_encBuild_of_long hp h0 hroot, fun hfits => ?_⟩
  exact ⟨_, _, _, exec_encBuild_of_fits hp h0 hroot hfits, rfl, fun c hc => codeTables_of_mem hroot hc (hfits c hc),
    fun b hb => codeTables_of_absent hroot hb⟩

/-- Settles O27: the two fields, and the table as blocks of six bytes. -/
theorem headerAndTableLayout : Obligations.HeaderAndTableLayout := by
  unfold Obligations.HeaderAndTableLayout
  intro e _
  obtain ⟨hlen, hcount, -⟩ := headerBytes_fields e
  have hmax := length_codedSymbols_le e
  refine ⟨?_, ?_, ?_, hmax, allSymbols_sorted.filter _, fun b => by simp [codedSymbols, Nat.lt_iff_add_one_le],
    fun k b hk => ⟨leBytes 4 (e.codePat.get b).toNat, headerBytes_entry hk, length_leBytes _ _, ?_⟩⟩
  · simp only [headerBytes, List.length_append, length_leBytes, length_flatMap_blocks (length_entryBytes e)]
  · rw [hlen, fromLE_leBytes, Nat.mod_eq_of_lt e.encLen.isLt]
  · rw [hcount, fromLE_leBytes, Nat.mod_eq_of_lt (by omega)]
  · rw [fromLE_leBytes, Nat.mod_eq_of_lt (e.codePat.get b).isLt]

/-- Settles O32: the tables hold GenCodes' entries, and those are the paths. -/
theorem codesAreRootToLeafPaths : Obligations.CodesAreRootToLeafPaths := by
  unfold Obligations.CodesAreRootToLeafPaths
  intro s t root hp h0 hroot hexec ht
  obtain ⟨root', hroot', hfits, henc⟩ := exec_encBuild_encoded hp h0 hexec ht
  obtain rfl : root' = root := Option.some.inj (hroot'.symm.trans hroot)
  rw [henc]
  refine ⟨fun b _ => patTable_lt root' b, fun htwo b hb => Enc.follow_code_encoded hroot hfits htwo hb, fun b hsole => ?_⟩
  have hc : ⟨b, 0, 1⟩ ∈ genCodes root' := by rw [genCodes_of_symbols_singleton hsole]; exact List.mem_singleton_self _
  obtain ⟨hpat, hlen⟩ := codeTables_of_mem hroot hc (by decide : 1 ≤ 32)
  exact ⟨(Enc.code_encoded hroot hfits hc).trans (by decide : bitsOf 0 1 = [false]), BitVec.eq_of_toNat_eq hpat, hlen⟩

/-- Settles O33: two codes of which one begins the other would lead to one leaf. -/
theorem codesArePrefixFree : Obligations.CodesArePrefixFree := by
  unfold Obligations.CodesArePrefixFree
  intro s t hp h0 hexec ht a b hne ha hb hprefix
  obtain ⟨root, hroot, hfits, henc⟩ := exec_encBuild_encoded hp h0 hexec ht
  rw [henc] at hprefix
  have hmem : ∀ {c : Byte}, s.enc.freq.get c ≠ 0 → c ∈ root.symbols := fun hc =>
    (buildTree_symbols hroot).mem_iff.2 (mem_presentSymbols.2 hc)
  have htwo : [a, b].length ≤ root.symbols.length := by
    refine (List.Nodup.subperm (by simpa using hne) ?_).length_le
    intro c hc
    rcases List.mem_pair.1 hc with rfl | rfl
    · exact hmem ha
    · exact hmem hb
  exact hne (root.follow_prefix hprefix (Enc.follow_code_encoded hroot hfits htwo (hmem ha))
    (Enc.follow_code_encoded hroot hfits htwo (hmem hb)))

end Sys2Proof.Machine

/-! SUPPORT. The encoder's commands phase by phase (40_encoder.md R110 to R113, R125, R127). -/

namespace Sys2Proof.Machine

/-! ### The phase table -/

section
variable {e : Enc} {b : Byte}

theorem Enc.count_of_ended (h : e.phase = .encode ∨ e.phase = .done) : e.count b = e.raise .seq := by
  rcases h with h | h <;> simp only [Enc.count, h]

theorem Enc.count_of_error (h : e.phase = .error) : e.count b = e := by
  simp only [Enc.count, h]

theorem Enc.build_of_ended (h : e.phase = .encode ∨ e.phase = .done) : e.build = .ok (e.raise .seq) := by
  rcases h with h | h <;> simp only [Enc.build, h]

theorem Enc.build_of_error (h : e.phase = .error) : e.build = .ok e := by
  simp only [Enc.build, h]

theorem Enc.put_of_not_encode (h : e.phase = .count ∨ e.phase = .done) : e.put b = e.raise .seq := by
  rcases h with h | h <;> simp only [Enc.put, h]

theorem Enc.put_of_error (h : e.phase = .error) : e.put b = e := by
  simp only [Enc.put, h]

theorem Enc.finish_of_not_encode (h : e.phase = .count ∨ e.phase = .done) : e.finish = e.raise .seq := by
  rcases h with h | h <;> simp only [Enc.finish, h]

theorem Enc.finish_of_error (h : e.phase = .error) : e.finish = e := by
  simp only [Enc.finish, h]

/-! ### ENC_COUNT -/

theorem Enc.count_below_limit (h : e.phase = .count) (hlen : e.encLen.toNat ≠ Config.lenMax) :
    e.count b = { e with freq := e.freq.set b (e.freq.get b + 1), encLen := e.encLen + 1 } := by
  simp only [Enc.count, h, Enc.countSymbol, if_neg hlen]

theorem Enc.count_at_limit (h : e.phase = .count) (hlen : e.encLen.toNat = Config.lenMax) :
    e.count b = e.raise .lengthOverflow := by
  simp only [Enc.count, h, Enc.countSymbol, if_pos hlen]

/-- No count wraps: it is at most `enc_len` (40_encoder.md R112). -/
theorem Enc.Inv.freq_lt (h : e.Inv) (b : Byte) : (e.freq.get b).toNat < 2 ^ 63 := by
  have hle := (get_le_totalCount e.freq b).trans (h.len_sum.symm.trans_le h.len_le)
  simp only [Config.lenMax] at hle
  omega

/-! ### ENC_PUT and ENC_FINISH in ENCODE -/

theorem Enc.put_mismatch (h : e.phase = .encode) (hcase : e.codeLen.get b = 0 ∨ e.putCnt = e.encLen) :
    e.put b = e.raise .passMismatch := by
  simp only [Enc.put, h, Enc.putSymbol]
  split
  · rfl
  · rename_i hcode
    rw [if_pos (hcase.resolve_left hcode)]

theorem Enc.finish_of_incomplete (h : e.phase = .encode) (hcnt : e.putCnt ≠ e.encLen) :
    e.finish = e.raise .passMismatch := by
  simp only [Enc.finish, h, Enc.finishPass, if_neg hcnt]

end

/-! ### The commands of a state -/

section
variable {s : State} {e : Enc}

theorem exec_encCount_of_eq {b : Byte} (h : s.enc.count b = e) : exec (.encCount b) s = .next (s.withEnc e) :=
  congrArg (fun e => Host.Outcome.next (s.withEnc e)) h

theorem exec_encPut_of_eq {b : Byte} (h : s.enc.put b = e) : exec (.encPut b) s = .next (s.withEnc e) :=
  congrArg (fun e => Host.Outcome.next (s.withEnc e)) h

theorem exec_encFinish_of_eq (h : s.enc.finish = e) : exec .encFinish s = .next (s.withEnc e) :=
  congrArg (fun e => Host.Outcome.next (s.withEnc e)) h

end

/-- The word of a command that takes a byte (30_encoding.md R84, R86). -/
theorem toWord_byte_operand (op b : BitVec 8) : CmdFields.toWord ⟨op, 0, b⟩ = op.setWidth 32 <<< 24 ||| b.setWidth 32 := by
  apply BitVec.eq_of_toNat_eq
  have hop : op.toNat <<< 24 < 2 ^ 32 := by
    have := op.isLt
    rw [Nat.shiftLeft_eq]
    omega
  simp only [CmdFields.toWord, BitVec.toNat_append, BitVec.toNat_or, BitVec.toNat_shiftLeft, BitVec.toNat_setWidth]
  rw [Nat.mod_eq_of_lt (op.isLt.trans (by decide)), Nat.mod_eq_of_lt hop, Nat.mod_eq_of_lt (b.isLt.trans (by decide)),
    show (0 : BitVec 16).toNat = 0 from rfl, Nat.or_zero, ← Nat.shiftLeft_add]

/-! ### Counting a sequence -/

/-- The counts after every byte of a sequence was counted. -/
def countInto (freq : SymTab DWord) (x : List Byte) : SymTab DWord :=
  x.foldl (fun t b => t.set b (t.get b + 1)) freq

theorem get_countInto (freq : SymTab DWord) (x : List Byte) (c : Byte) :
    (countInto freq x).get c = freq.get c + BitVec.ofNat 64 (x.count c) := by
  induction x generalizing freq with
  | nil => exact (BitVec.add_zero _).symm
  | cons b x ih =>
    refine (ih _).trans ?_
    rw [SymTab.get_set]
    by_cases h : b = c
    · rw [if_pos h, h, List.count_cons_self, Nat.add_comm, BitVec.ofNat_add, ← BitVec.add_assoc]
      rfl
    · rw [if_neg h, List.count_cons_of_ne h]

/-- The encoder after every byte of a sequence was counted within the limit (40_encoder.md R112). -/
def Enc.counted (x : List Byte) (e : Enc) : Enc :=
  { e with freq := countInto e.freq x, encLen := e.encLen + BitVec.ofNat 64 x.length }

theorem Enc.counted_nil (e : Enc) : e.counted [] = e := by
  simp [Enc.counted, countInto]

theorem Enc.counted_counted (x y : List Byte) (e : Enc) : (e.counted x).counted y = e.counted (x ++ y) := by
  simp [Enc.counted, countInto, BitVec.ofNat_add, BitVec.add_assoc]

/-- Counting a sequence that stays within the limit raises nothing (40_encoder.md R113). -/
theorem execAll_encCounts (x : List Byte) (s : State) (hp : s.enc.phase = .count)
    (hlen : s.enc.encLen.toNat + x.length ≤ Config.lenMax) :
    execAll (encCounts x) s = .next (s.withEnc (s.enc.counted x)) := by
  induction x generalizing s with
  | nil => rw [Enc.counted_nil, State.withEnc_self]; rfl
  | cons b x ih =>
    rw [List.length_cons] at hlen
    have hone : (s.enc.encLen + 1).toNat + x.length ≤ Config.lenMax := by
      rw [toNat_add_one (by simp only [Config.lenMax] at hlen; omega)]
      omega
    have hexec : exec (.encCount b) s = .next (s.withEnc (s.enc.counted [b])) :=
      exec_encCount_of_eq (Enc.count_below_limit hp (by omega))
    have hrun := ih (s.withEnc (s.enc.counted [b])) hp hone
    rw [State.withEnc_enc, Enc.counted_counted] at hrun
    rw [encCounts, List.map_cons, execAll_cons_of_next hexec]
    exact hrun

/-- From reset, `freq` holds the occurrences and `enc_len` the length (40_encoder.md R113). -/
theorem countInto_reset {x : List Byte} (hlen : x.length ≤ Config.lenMax) (c : Byte) :
    ((countInto Enc.reset.freq x).get c).toNat = x.count c := by
  have hcount := List.count_le_length (a := c) (l := x)
  have hzero : Enc.reset.freq.get c = 0#64 := SymTab.get_replicate 0 c
  simp only [Config.lenMax] at hlen
  rw [get_countInto, hzero, BitVec.zero_add, BitVec.toNat_ofNat, Nat.mod_eq_of_lt (by omega)]

theorem mem_presentSymbols_countInto {x : List Byte} (hlen : x.length ≤ Config.lenMax) (c : Byte) :
    c ∈ presentSymbols (countInto Enc.reset.freq x) ↔ c ∈ x := by
  rw [mem_presentSymbols, ← List.count_pos_iff, ← countInto_reset hlen, Nat.pos_iff_ne_zero, Ne, Ne, ← BitVec.toNat_inj]
  rfl

/-! ### The statements of 40_encoder.md on the commands, settled -/

/-- Settles O24: ENC_INIT makes the encoder reset, and from there the counts add up. -/
theorem countingGivesOccurrences : Obligations.CountingGivesOccurrences := by
  unfold Obligations.CountingGivesOccurrences
  intro x s hx is his
  have hcounts : ∀ t : State, t.enc = Enc.reset → execAll (encCounts x) t = .next (t.withEnc (Enc.reset.counted x)) := by
    intro t ht
    rw [execAll_encCounts x t (by rw [ht]; rfl) (by rw [ht]; exact (Nat.zero_add _).trans_le hx), ht]
  refine ⟨countInto Enc.reset.freq x, 0#64 + BitVec.ofNat 64 x.length, ?_, countInto_reset hx, ?_,
    mem_presentSymbols_countInto hx⟩
  · rcases his with rfl | ⟨hreset, rfl⟩
    · exact hcounts (s.withEnc Enc.reset) rfl
    · exact hcounts s hreset
  · rw [BitVec.zero_add, BitVec.toNat_ofNat, Nat.mod_eq_of_lt (by omega)]

/-- Settles O22, phase by phase. -/
theorem encCountCountsOneSymbol : Obligations.EncCountCountsOneSymbol := by
  unfold Obligations.EncCountCountsOneSymbol
  refine fun s b => ⟨toWord_byte_operand 0x11 b, fun hp hlen => ?_, fun hp hlen => ?_, fun hp => ?_, fun hp => ?_⟩
  · refine ⟨_, exec_encCount_of_eq (Enc.count_below_limit hp hlen), fun c hc => SymTab.get_set_of_ne _ _ hc.symm,
      SymTab.get_set_self _ _ _, fun h => ?_⟩
    have hlt := h.freq_lt b
    rw [SymTab.get_set_self, toNat_add_one (by omega)]
  · exact exec_encCount_of_eq (Enc.count_at_limit hp hlen)
  · exact exec_encCount_of_eq (Enc.count_of_ended hp)
  · exact exec_encCount_of_eq (Enc.count_of_error hp)

/-- Settles O21: the values ENC_INIT writes are the reset values. -/
theorem encInitResetsTheEncoder : Obligations.EncInitResetsTheEncoder := by
  unfold Obligations.EncInitResetsTheEncoder
  refine ⟨rfl, fun _ => rfl, fun b => ⟨?_, ?_, ?_⟩, rfl, rfl, rfl, rfl, rfl, rfl, rfl⟩ <;> exact SymTab.get_replicate 0 b

/-- Settles O23, entry by entry. -/
theorem encoderPhaseTable : Obligations.EncoderPhaseTable := by
  unfold Obligations.EncoderPhaseTable
  refine fun s i => ⟨fun hi hp => ?_, fun hi hp => ?_, fun hi hp => ?_⟩
  · rcases hi with ⟨b, rfl⟩ | rfl
    · exact exec_encCount_of_eq (Enc.count_of_ended hp)
    · exact exec_encBuild_of_ok (Enc.build_of_ended hp)
  · rcases hi with ⟨b, rfl⟩ | rfl
    · exact exec_encPut_of_eq (Enc.put_of_not_encode hp)
    · exact exec_encFinish_of_eq (Enc.finish_of_not_encode hp)
  · rcases hi with ⟨b, rfl⟩ | rfl | ⟨b, rfl⟩ | rfl
    · exact exec_encCount_of_eq (Enc.count_of_error hp)
    · exact exec_encBuild_of_ok (Enc.build_of_error hp)
    · exact exec_encPut_of_eq (Enc.put_of_error hp)
    · exact exec_encFinish_of_eq (Enc.finish_of_error hp)

/-- Settles O37, phase by phase. -/
theorem encPutPacksTheCode : Obligations.EncPutPacksTheCode := by
  unfold Obligations.EncPutPacksTheCode
  exact fun s b => ⟨toWord_byte_operand 0x13 b,
    fun hp hcode hcnt => exec_encPut_of_eq (Enc.put_of_coded hp hcode hcnt),
    fun hp hcase => exec_encPut_of_eq (Enc.put_mismatch hp hcase),
    fun hp => exec_encPut_of_eq (Enc.put_of_not_encode hp),
    fun hp => exec_encPut_of_eq (Enc.put_of_error hp)⟩

/-- Settles O38, phase by phase. -/
theorem encFinishFlushesAndEnds : Obligations.EncFinishFlushesAndEnds := by
  unfold Obligations.EncFinishFlushesAndEnds
  exact fun s => ⟨rfl, fun hp hcnt => exec_encFinish_of_eq (Enc.finish_of_complete hp hcnt),
    fun hp hcnt => exec_encFinish_of_eq (Enc.finish_of_incomplete hp hcnt),
    fun hp => exec_encFinish_of_eq (Enc.finish_of_not_encode hp),
    fun hp => exec_encFinish_of_eq (Enc.finish_of_error hp)⟩

end Sys2Proof.Machine

/-! SUPPORT. Paths in the decoder's arena (41_decoder.md R167): what a bit string leads to, before and after a node is linked,
and from that what InsertEntry makes of every bit string. -/

namespace Sys2Proof.Machine

/-! ### Paths -/

theorem bitsOf_succ (v n : Nat) : bitsOf v (n + 1) = v.testBit n :: bitsOf v n := by
  rw [Nat.add_comm, bitsOf_add]
  simp [bitsOf]

theorem patternBit_eq_testBit (pat : Word) (i : Nat) : patternBit pat i = pat.toNat.testBit i := rfl

section
variable (st : NodeStore)

theorem NodeStore.descend_cons (i : NodeIdx) (bit : Bool) (bits : List Bool) :
    st.descend i (bit :: bits) = ((st.node i).child bit).bind fun c => st.descend c bits := by
  rw [NodeStore.descend]
  cases (st.node i).child bit <;> rfl

theorem NodeStore.descend_append (i : NodeIdx) (bits more : List Bool) :
    st.descend i (bits ++ more) = (st.descend i bits).bind fun c => st.descend c more := by
  induction bits generalizing i with
  | nil => rfl
  | cons bit bits ih =>
    rw [List.cons_append, NodeStore.descend_cons, NodeStore.descend_cons]
    cases (st.node i).child bit with
    | none => rfl
    | some c => exact ih c

theorem NodeStore.descend_snoc (i : NodeIdx) (bits : List Bool) (bit : Bool) :
    st.descend i (bits ++ [bit]) = (st.descend i bits).bind fun c => (st.node c).child bit := by
  rw [NodeStore.descend_append]
  congr 1
  funext c
  rw [NodeStore.descend_cons]
  cases (st.node c).child bit <;> rfl

/-- No path goes on from a node without children. -/
theorem NodeStore.descend_of_childless {st : NodeStore} {i : NodeIdx} (h : ∀ bit, (st.node i).child bit = none)
    (bit : Bool) (bits : List Bool) : st.descend i (bit :: bits) = none := by
  rw [NodeStore.descend_cons, h]
  rfl

/-- The symbol a node shows, if it is a leaf. -/
def Node.leafSym (n : Node) : Option Byte :=
  if n.kind = .leaf then some n.sym else none

theorem Node.isSome_leafSym (n : Node) : n.leafSym.isSome = true ↔ n.kind = .leaf := by
  simp [Node.leafSym]

theorem NodeStore.symbolAt_eq (bits : List Bool) :
    st.symbolAt bits = (st.descend 0 bits).bind fun i => (st.node i).leafSym := by
  rw [NodeStore.symbolAt]
  cases st.descend 0 bits <;> rfl

/-- Stores whose nodes have the same children are descended alike. -/
theorem NodeStore.descend_congr {st st' : NodeStore} (h : ∀ i bit, (st'.node i).child bit = (st.node i).child bit)
    (i : NodeIdx) (bits : List Bool) : st'.descend i bits = st.descend i bits := by
  induction bits generalizing i with
  | nil => rfl
  | cons bit bits ih => simp only [NodeStore.descend_cons, h, ih]

end

section
variable {st : NodeStore} (hst : st.Inv)
include hst

/-- Only one path leads from the root to a node. -/
theorem NodeStore.Inv.descend_inj {bits bits' : List Bool} {i : NodeIdx} (h : st.descend 0 bits = some i)
    (h' : st.descend 0 bits' = some i) : bits = bits' := by
  have hroot : ∀ {bits : List Bool} {bit : Bool}, st.descend 0 (bits ++ [bit]) ≠ some 0 := fun hd => by
    rw [NodeStore.descend_snoc, Option.bind_eq_some_iff] at hd
    obtain ⟨p, -, hp⟩ := hd
    exact absurd (hst.child_lt _ _ _ hp).1 (Nat.not_lt_zero _)
  induction bits using List.reverseRecOn generalizing bits' i with
  | nil =>
    cases h
    rcases List.eq_nil_or_concat' bits' with rfl | ⟨init, bit, rfl⟩
    · rfl
    · exact absurd h' hroot
  | append_singleton init bit ih =>
    rcases List.eq_nil_or_concat' bits' with rfl | ⟨init', bit', rfl⟩
    · cases h'
      exact absurd h hroot
    · rw [NodeStore.descend_snoc, Option.bind_eq_some_iff] at h h'
      obtain ⟨p, hp, hc⟩ := h
      obtain ⟨p', hp', hc'⟩ := h'
      obtain ⟨rfl, rfl⟩ := hst.one_parent _ _ _ _ _ hc hc'
      rw [ih hp hp']

theorem NodeStore.Inv.child_of_unallocated {i : NodeIdx} (h : st.next ≤ i.val) (bit : Bool) :
    (st.node i).child bit = none := by
  refine hst.only_internal _ _ fun hk => ?_
  have := hst.lt_next (i := i) (by simp [hk])
  omega

/-- A path leads to allocated nodes only. -/
theorem NodeStore.Inv.descend_lt {bits : List Bool} {i : NodeIdx} (h : st.descend 0 bits = some i) : i.val < st.next := by
  rcases List.eq_nil_or_concat' bits with rfl | ⟨init, bit, rfl⟩
  · cases h
    exact hst.next_pos
  · rw [NodeStore.descend_snoc, Option.bind_eq_some_iff] at h
    obtain ⟨p, -, hp⟩ := h
    exact (hst.child_lt _ _ _ hp).2

/-! ### A linked node -/

section
variable {st' : NodeStore} {kind : NodeKind} {sym : Byte} {c p : NodeIdx} {bit : Bool}
  (ha : st.alloc kind sym = some (c, st')) (hp : (st.node p).kind = .internal)
include ha hp

/-- The one child that Alloc and the link add. -/
theorem NodeStore.Inv.child_linked (i : NodeIdx) (b : Bool) :
    ((st'.linked p bit c).node i).child b = if i = p ∧ b = bit then some c else (st.node i).child b := by
  have hnode := NodeStore.node_linked (bit := bit) ha (hst.lt_next (i := p) (by simp [hp]))
  obtain ⟨hc, -, -⟩ := NodeStore.alloc_some ha
  rw [hnode]
  by_cases hip : p = i
  · subst hip
    simp [eq_comm]
  · rw [if_neg hip, if_neg (c := i = p ∧ b = bit) fun h => hip h.1.symm]
    split
    · rename_i hic
      rw [← hic, hst.child_of_unallocated hc.ge]
      cases b <;> rfl
    · rfl

variable (hfree : (st.node p).child bit = none) {path : List Bool} (hpath : st.descend 0 path = some p)
include hfree hpath

/-- Linking a new node below `p` adds the one path to it and changes no other. -/
theorem NodeStore.Inv.descend_linked (bits : List Bool) :
    (st'.linked p bit c).descend 0 bits = if bits = path ++ [bit] then some c else st.descend 0 bits := by
  have hchild := hst.child_linked (bit := bit) ha hp
  obtain ⟨hc, -, -⟩ := NodeStore.alloc_some ha
  induction bits using List.reverseRecOn with
  | nil => simp [NodeStore.descend]
  | append_singleton init b ih =>
    rw [NodeStore.descend_snoc, ih, NodeStore.descend_snoc]
    by_cases hinit : init = path ++ [bit]
    · -- A path beyond the new node: it has no child, and before there was no such node.
      have hlong : init ++ [b] ≠ path ++ [bit] := fun h => by
        have hlength := congrArg List.length h
        rw [hinit] at hlength
        simp at hlength
      have hnone : st.descend 0 init = none := by
        rw [hinit, NodeStore.descend_snoc, hpath]
        exact hfree
      have hcp : c ≠ p := fun h => by have := hst.descend_lt hpath; subst h; omega
      rw [if_pos hinit, if_neg hlong, hnone, Option.bind_some, hchild, if_neg fun h => hcp h.1,
        hst.child_of_unallocated hc.ge]
      rfl
    · rw [if_neg hinit]
      cases hd : st.descend 0 init with
      | none =>
        have hne : init ++ [b] ≠ path ++ [bit] := fun h => by
          rw [(List.append_inj' h rfl).1, hpath] at hd
          cases hd
        rw [if_neg hne]
        rfl
      | some i =>
        have hiff : (i = p ∧ b = bit) ↔ init ++ [b] = path ++ [bit] := by
          constructor
          · rintro ⟨rfl, rfl⟩
            rw [hst.descend_inj hd hpath]
          · intro h
            obtain ⟨hi, hb⟩ := List.append_inj' h rfl
            rw [hi, hpath] at hd
            exact ⟨(Option.some.inj hd).symm, by simpa using hb⟩
        rw [Option.bind_some, hchild, Option.bind_some]
        simp only [hiff]

/-- Linking a new node below `p` gives the one path to it the new node's symbol and changes no other. -/
theorem NodeStore.Inv.symbolAt_linked (bits : List Bool) :
    (st'.linked p bit c).symbolAt bits =
      if bits = path ++ [bit] then Node.leafSym ⟨kind, none, none, sym⟩ else st.symbolAt bits := by
  have hpl := hst.descend_lt hpath
  have hnode := NodeStore.node_linked (bit := bit) ha hpl
  obtain ⟨hc, -, -⟩ := NodeStore.alloc_some ha
  rw [NodeStore.symbolAt_eq, hst.descend_linked ha hp hfree hpath, NodeStore.symbolAt_eq]
  split
  · rw [Option.bind_some, hnode, if_neg (fun h => by subst h; omega), if_pos rfl]
  · cases hd : st.descend 0 bits with
    | none => rfl
    | some i =>
      have hic : c ≠ i := fun h => by have := hst.descend_lt hd; subst h; omega
      rw [Option.bind_some, Option.bind_some, hnode, if_neg hic]
      split
      · rename_i hip
        rw [← hip, Node.leafSym, Node.withChild_kind, Node.withChild_sym]
        rfl
      · rfl

end

end

/-! ### What InsertEntry makes of every bit string -/

/-- The store `st'` is `st` with the code `code` of `sym` in its tree: no other bit string leads to another symbol than
before, and a node is new only on the code's path. -/
structure NodeStore.Gains (st st' : NodeStore) (code : List Bool) (sym : Byte) : Prop where
  at_code : st'.symbolAt code = some sym
  elsewhere : ∀ bits, bits ≠ code → st'.symbolAt bits = st.symbolAt bits
  reached : ∀ bits i, st'.descend 0 bits = some i → (∃ j, st.descend 0 bits = some j) ∨ bits <+: code

section
variable {sym : Byte} {pat : Word} {p : NodeIdx} {st st' : NodeStore}

theorem attachLeaf_inserted (h : attachLeaf sym pat p st = .inserted st') :
    (st.node p).child (patternBit pat 0) = none ∧
    ∃ c st1, st.alloc .leaf sym = some (c, st1) ∧ st' = st1.linked p (patternBit pat 0) c := by
  unfold attachLeaf at h
  split at h
  · cases h
  · rename_i hfree
    split at h
    · cases h
    · rename_i c st1 ha
      cases h
      exact ⟨hfree, c, st1, ha, rfl⟩

/-- A step of a walk that succeeds makes the missing node, or goes on to a node that is no leaf (41_decoder.md R167). -/
theorem insertWalk_succ_inserted {i : Nat} (h : insertWalk sym pat (i + 1) p st = .inserted st') :
    ((st.node p).child (patternBit pat (i + 1)) = none ∧ ∃ c st1, st.alloc .internal 0 = some (c, st1) ∧
      insertWalk sym pat i c (st1.linked p (patternBit pat (i + 1)) c) = .inserted st') ∨
    ∃ c, (st.node p).child (patternBit pat (i + 1)) = some c ∧ (st.node c).kind ≠ .leaf ∧
      insertWalk sym pat i c st = .inserted st' := by
  unfold insertWalk at h
  split at h
  · rename_i hfree
    split at h
    · cases h
    · rename_i c st1 ha
      exact .inl ⟨hfree, c, st1, ha, h⟩
  · rename_i c hc
    split at h
    · cases h
    · rename_i hleaf
      exact .inr ⟨c, hc, hleaf, h⟩

/-- A child that is no leaf is an internal node: it is used. -/
theorem NodeStore.Inv.child_internal (hst : st.Inv) {bit : Bool} {c : NodeIdx} (hc : (st.node p).child bit = some c)
    (hleaf : (st.node c).kind ≠ .leaf) : (st.node c).kind = .internal := by
  have hused := hst.child_used _ _ _ hc
  cases hk : (st.node c).kind with
  | empty => exact absurd hk hused
  | internal => rfl
  | leaf => exact absurd hk hleaf

/-- Linking an internal node gives no bit string a symbol. -/
theorem NodeStore.Inv.symbolAt_linked_internal (hst : st.Inv) {st1 : NodeStore} {c : NodeIdx} {bit : Bool}
    (ha : st.alloc .internal 0 = some (c, st1)) (hp : (st.node p).kind = .internal) (hfree : (st.node p).child bit = none)
    {path : List Bool} (hpath : st.descend 0 path = some p) (bits : List Bool) :
    (st1.linked p bit c).symbolAt bits = st.symbolAt bits := by
  rw [hst.symbolAt_linked ha hp hfree hpath]
  split
  · rename_i heq
    rw [heq, NodeStore.symbolAt_eq, NodeStore.descend_snoc, hpath, Option.bind_some, hfree]
    rfl
  · rfl

/-- The walk puts the leaf at the end of the code that the path to its start and the pattern bits left make. -/
theorem insertWalk_gains {i : Nat} {path : List Bool} (hst : st.Inv) (hp : (st.node p).kind = .internal)
    (hpath : st.descend 0 path = some p) (h : insertWalk sym pat i p st = .inserted st') :
    st.Gains st' (path ++ bitsOf pat.toNat (i + 1)) sym := by
  induction i generalizing p st path with
  | zero =>
    obtain ⟨hfree, c, st1, ha, rfl⟩ := attachLeaf_inserted h
    have hsym := hst.symbolAt_linked ha hp hfree hpath
    have hcode : bitsOf pat.toNat 1 = [patternBit pat 0] := bitsOf_succ _ _
    rw [hcode]
    refine ⟨?_, fun bits hne => ?_, fun bits j hj => ?_⟩
    · rw [hsym, if_pos rfl]
      rfl
    · rw [hsym, if_neg hne]
    · rw [hst.descend_linked ha hp hfree hpath] at hj
      split at hj
      · rename_i heq
        exact .inr (heq ▸ List.prefix_refl _)
      · exact .inl ⟨j, hj⟩
  | succ i ih =>
    have hcode : path ++ bitsOf pat.toNat (i + 1 + 1) =
        (path ++ [patternBit pat (i + 1)]) ++ bitsOf pat.toNat (i + 1) := by
      rw [bitsOf_succ, List.append_assoc, patternBit_eq_testBit, List.singleton_append]
    rw [hcode]
    rcases insertWalk_succ_inserted h with ⟨hfree, c, st1, ha, h⟩ | ⟨c, hc, hleaf, h⟩
    · have hdescend := hst.descend_linked ha hp hfree hpath
      have hnode := NodeStore.node_linked (bit := patternBit pat (i + 1)) ha (hst.descend_lt hpath)
      have hsym := hst.symbolAt_linked_internal ha hp hfree hpath
      have hc : ((st1.linked p (patternBit pat (i + 1)) c).node c).kind = .internal := by
        obtain ⟨hcv, -, -⟩ := NodeStore.alloc_some ha
        have := hst.descend_lt hpath
        rw [hnode, if_neg (fun h => by subst h; omega), if_pos rfl]
      obtain ⟨hat, helse, hreached⟩ :=
        ih (hst.linked ha hp (by decide)) hc (by rw [hdescend, if_pos rfl]) h
      refine ⟨hat, fun bits hne => (helse bits hne).trans (hsym bits), fun bits j hj => ?_⟩
      rcases hreached bits j hj with ⟨q, hq⟩ | hpre
      · rw [hdescend] at hq
        split at hq
        · rename_i heq
          exact .inr (heq ▸ List.prefix_append _ _)
        · exact .inl ⟨q, hq⟩
      · exact .inr hpre
    · exact ih hst (hst.child_internal hc hleaf) (by rw [NodeStore.descend_snoc, hpath]; exact hc) h

end

/-! ### The root -/

section
variable {st : NodeStore}

/-- What the walk of InsertEntry starts on: the root made internal (41_decoder.md R167). -/
def NodeStore.withRootInternal (st : NodeStore) : NodeStore :=
  st.setNode 0 { st.node 0 with kind := .internal }

theorem NodeStore.withRootInternal_descend (st : NodeStore) (i : NodeIdx) (bits : List Bool) :
    st.withRootInternal.descend i bits = st.descend i bits := by
  refine NodeStore.descend_congr (fun j bit => ?_) i bits
  rw [NodeStore.withRootInternal, NodeStore.node_setNode]
  split
  · rename_i hj
    subst hj
    cases bit <;> rfl
  · rfl

/-- A root that was no leaf is none, and no other node changes. -/
theorem NodeStore.withRootInternal_leafSym (hroot : (st.node 0).kind ≠ .leaf) (i : NodeIdx) :
    (st.withRootInternal.node i).leafSym = (st.node i).leafSym := by
  rw [NodeStore.withRootInternal, NodeStore.node_setNode]
  split
  · rename_i hi
    subst hi
    simp [Node.leafSym, hroot]
  · rfl

theorem NodeStore.withRootInternal_symbolAt (hroot : (st.node 0).kind ≠ .leaf) (bits : List Bool) :
    st.withRootInternal.symbolAt bits = st.symbolAt bits := by
  simp only [NodeStore.symbolAt_eq, NodeStore.withRootInternal_descend, NodeStore.withRootInternal_leafSym hroot]

theorem NodeStore.withRootInternal_root (st : NodeStore) : (st.withRootInternal.node 0).kind = .internal := by
  rw [NodeStore.withRootInternal, NodeStore.node_setNode, if_pos rfl]

theorem insertCode_inserted {sym : Byte} {pat : Word} {n : Nat} {st' : NodeStore}
    (h : insertCode sym pat n st = .inserted st') :
    (st.node 0).kind ≠ .leaf ∧ insertWalk sym pat (n - 1) 0 st.withRootInternal = .inserted st' := by
  unfold insertCode at h
  split at h
  · cases h
  · rename_i hroot
    exact ⟨hroot, h⟩

/-- A zero-length code makes the whole tree one leaf, of a root that had no child (41_decoder.md R182). -/
theorem insertRootLeaf_gains {sym : Byte} {st' : NodeStore} (hst : st.Inv) (h : insertRootLeaf sym st = .inserted st') :
    st.Gains st' [] sym := by
  unfold insertRootLeaf at h
  split at h
  · rename_i hempty
    cases h
    have hroot : (st.setNode 0 ⟨.leaf, none, none, sym⟩).node 0 = ⟨.leaf, none, none, sym⟩ := by
      rw [NodeStore.node_setNode, if_pos rfl]
    have hbefore := NodeStore.descend_of_childless fun bit => hst.only_internal 0 bit (by simp [hempty])
    have hafter := NodeStore.descend_of_childless (st := st.setNode 0 ⟨.leaf, none, none, sym⟩) (i := 0) fun bit => by
      rw [hroot]
      cases bit <;> rfl
    refine ⟨?_, fun bits hne => ?_, fun bits i hi => ?_⟩
    · simp [NodeStore.symbolAt_eq, NodeStore.descend, hroot, Node.leafSym]
    · cases bits with
      | nil => exact absurd rfl hne
      | cons bit bits => rw [NodeStore.symbolAt_eq, NodeStore.symbolAt_eq, hbefore, hafter]; rfl
    · cases bits with
      | nil => exact .inr (List.prefix_refl _)
      | cons bit bits => rw [hafter] at hi; cases hi
  · cases h

/-- Everything a successful InsertEntry does to the tree (41_decoder.md R166, R167). -/
theorem insertEntry_gains {sym : Byte} {pat : Word} {n : Nat} {st' : NodeStore} (hst : st.Inv)
    (h : insertEntry sym pat n st = .inserted st') :
    n ≤ 32 ∧ st.Gains st' (bitsOf pat.toNat n) sym ∧ st'.next ≤ st.next + n := by
  unfold insertEntry at h
  split at h
  · cases h
  · rename_i hlen
    refine ⟨not_lt.1 hlen, ?_⟩
    split at h
    · rename_i hzero
      subst hzero
      refine ⟨insertRootLeaf_gains hst h, ?_⟩
      unfold insertRootLeaf at h
      split at h <;> cases h
      exact le_refl _
    · obtain ⟨hroot, hwalk⟩ := insertCode_inserted h
      have hinv : st.withRootInternal.Inv := hst.setRootInternal
      have hn : n - 1 + 1 = n := by omega
      obtain ⟨hat, helse, hreached⟩ := insertWalk_gains hinv st.withRootInternal_root (path := []) rfl hwalk
      rw [hn, List.nil_append] at hat helse hreached
      refine ⟨⟨hat, fun bits hne => ?_, fun bits i hi => ?_⟩, ?_⟩
      · rw [helse bits hne, NodeStore.withRootInternal_symbolAt hroot]
      · simpa only [NodeStore.withRootInternal_descend] using hreached bits i hi
      · rcases insertWalk_cases sym pat (n - 1) 0 _ hinv st.withRootInternal_root with
          ⟨st2, heq, -, -, hle, -⟩ | heq | ⟨heq, -⟩
        · obtain rfl : st2 = st' := InsertResult.inserted.inj (heq.symm.trans hwalk)
          have hnext : st.withRootInternal.next = st.next := rfl
          omega
        · cases heq.symm.trans hwalk
        · cases heq.symm.trans hwalk

end

end Sys2Proof.Machine

/-! SUPPORT. When InsertEntry fails (41_decoder.md R166, R168), and what of a pattern it reads. -/

namespace Sys2Proof.Machine

/-! ### Conflicts -/

/-- A code whose walk from `p` ends in a conflict: it meets a leaf before its last bit, or its last slot is used. -/
def NodeStore.Blocked (st : NodeStore) (p : NodeIdx) (code : List Bool) : Prop :=
  (∃ k i, 1 ≤ k ∧ k < code.length ∧ st.descend p (code.take k) = some i ∧ (st.node i).kind = .leaf) ∨
  ∃ i, st.descend p code = some i

theorem NodeStore.blocked_singleton (st : NodeStore) (p : NodeIdx) (bit : Bool) :
    st.Blocked p [bit] ↔ ∃ c, (st.node p).child bit = some c := by
  have hchild : st.descend p [bit] = (st.node p).child bit := by
    rw [NodeStore.descend_cons]
    cases (st.node p).child bit <;> rfl
  rw [NodeStore.Blocked, hchild]
  refine or_iff_right ?_
  rintro ⟨k, i, h1, hk, -⟩
  rw [List.length_singleton] at hk
  omega

/-- A longer code is blocked at the child its first bit selects, or on its way from there. -/
theorem NodeStore.blocked_cons (st : NodeStore) (p : NodeIdx) (bit : Bool) {code : List Bool} (hne : code ≠ []) :
    st.Blocked p (bit :: code) ↔
      ∃ c, (st.node p).child bit = some c ∧ ((st.node c).kind = .leaf ∨ st.Blocked c code) := by
  have hpos := List.length_pos_iff.2 hne
  simp only [NodeStore.Blocked, NodeStore.descend_cons, List.length_cons]
  constructor
  · rintro (⟨k, i, h1, hk, hd, hleaf⟩ | ⟨i, hd⟩)
    · obtain ⟨k, rfl⟩ : ∃ m, k = m + 1 := ⟨k - 1, by omega⟩
      rw [List.take_succ_cons, NodeStore.descend_cons, Option.bind_eq_some_iff] at hd
      obtain ⟨c, hc, hd⟩ := hd
      refine ⟨c, hc, ?_⟩
      cases k with
      | zero => cases hd; exact .inl hleaf
      | succ k => exact .inr (.inl ⟨k + 1, i, by omega, by omega, hd, hleaf⟩)
    · obtain ⟨c, hc, hd⟩ := Option.bind_eq_some_iff.1 hd
      exact ⟨c, hc, .inr (.inr ⟨i, hd⟩)⟩
  · rintro ⟨c, hc, hleaf | ⟨k, i, h1, hk, hd, hleaf⟩ | ⟨i, hd⟩⟩
    · refine .inl ⟨1, c, le_refl _, by omega, ?_, hleaf⟩
      rw [List.take_succ_cons, NodeStore.descend_cons, hc]
      rfl
    · refine .inl ⟨k + 1, i, by omega, by omega, ?_, hleaf⟩
      rw [List.take_succ_cons, NodeStore.descend_cons, hc]
      exact hd
    · exact .inr ⟨i, by rw [hc]; exact hd⟩

section
variable {sym : Byte} {pat : Word} {p : NodeIdx} {st : NodeStore}

/-- Where the next branch is missing, all that follows is new, and nothing blocks the walk. -/
theorem insertWalk_of_missing (hp : p.val < st.next) {i : Nat}
    (hfree : (st.node p).child (patternBit pat (i + 1)) = none) (code : DecErr) (st' : NodeStore) :
    insertWalk sym pat (i + 1) p st ≠ .failed code st' := by
  simp only [insertWalk, hfree]
  split
  · nofun
  · rename_i c st1 ha
    obtain ⟨hc, hnext, -⟩ := NodeStore.alloc_some ha
    refine insertWalk_fresh sym pat i c (st1.linked p _ c) (by rw [NodeStore.linked_next]; omega) (fun b => ?_) _ _
    rw [NodeStore.node_linked ha hp, if_neg (fun h => by subst h; omega), if_pos rfl]
    cases b <;> rfl

/-- The walk fails exactly on a code that is blocked from where it starts. -/
theorem insertWalk_failed_iff {i : Nat} (hst : st.Inv) (hp : (st.node p).kind = .internal) :
    (∃ st', insertWalk sym pat i p st = .failed .treeConflict st') ↔ st.Blocked p (bitsOf pat.toNat (i + 1)) := by
  induction i generalizing p with
  | zero =>
    rw [bitsOf_succ, bitsOf_zero, NodeStore.blocked_singleton, ← patternBit_eq_testBit]
    simp only [insertWalk, attachLeaf]
    cases (st.node p).child (patternBit pat 0) with
    | none => cases st.alloc .leaf sym <;> simp
    | some c => simp
  | succ i ih =>
    have hmore : bitsOf pat.toNat (i + 1) ≠ [] := by rw [bitsOf_succ]; exact List.cons_ne_nil _ _
    rw [bitsOf_succ, NodeStore.blocked_cons _ _ _ hmore, ← patternBit_eq_testBit]
    cases hc : (st.node p).child (patternBit pat (i + 1)) with
    | none =>
      have hnone : ∀ st', insertWalk sym pat (i + 1) p st ≠ .failed .treeConflict st' :=
        insertWalk_of_missing (hst.lt_next (by simp [hp])) hc .treeConflict
      simp [hnone]
    | some c =>
      simp only [insertWalk, hc, Option.some.injEq, exists_eq_left']
      split
      · rename_i hleaf
        simp [hleaf]
      · rename_i hleaf
        rw [ih (hst.child_internal hc hleaf), or_iff_right hleaf]

/-- A length of at most 32 leaves TREE_CONFLICT as the only error (41_decoder.md R168). -/
theorem insertEntry_failed_conflict {n : Nat} (hn : n ≤ 32) {code : DecErr} {st' : NodeStore}
    (h : insertEntry sym pat n st = .failed code st') : code = .treeConflict := by
  rw [insertEntry, if_neg (not_lt.2 hn)] at h
  split at h
  · unfold insertRootLeaf at h
    split at h <;> cases h
    rfl
  · unfold insertCode at h
    split at h
    · cases h
      rfl
    · exact insertWalk_failed h

/-- InsertEntry of a code of 1 to 32 bits fails exactly if the root is a leaf or the code is blocked from the root. -/
theorem insertCode_failed_iff {n : Nat} (hst : st.Inv) (hn : 1 ≤ n) :
    (∃ st', insertCode sym pat n st = .failed .treeConflict st') ↔
      (st.node 0).kind = .leaf ∨ st.Blocked 0 (bitsOf pat.toNat n) := by
  unfold insertCode
  split
  · rename_i hroot
    simp [hroot]
  · rename_i hroot
    have hwalk := insertWalk_failed_iff (sym := sym) (pat := pat) (i := n - 1) (st := st.withRootInternal)
      hst.setRootInternal st.withRootInternal_root
    rw [or_iff_right hroot]
    refine hwalk.trans ?_
    rw [Nat.sub_add_cancel hn]
    have hleaf : ∀ i, (st.withRootInternal.node i).kind = .leaf ↔ (st.node i).kind = .leaf := fun i => by
      rw [← Node.isSome_leafSym, NodeStore.withRootInternal_leafSym hroot, Node.isSome_leafSym]
    simp only [NodeStore.Blocked, NodeStore.withRootInternal_descend, hleaf]

end

/-! ### The bits of a pattern that are read -/

section
variable {sym : Byte} {pat pat' : Word}

theorem insertWalk_congr {i : Nat} (h : ∀ j ≤ i, patternBit pat j = patternBit pat' j) (p : NodeIdx) (st : NodeStore) :
    insertWalk sym pat i p st = insertWalk sym pat' i p st := by
  induction i generalizing p st with
  | zero => simp only [insertWalk, attachLeaf, h 0 (le_refl _)]
  | succ i ih => simp only [insertWalk, h (i + 1) (le_refl _), ih fun j hj => h j (Nat.le_succ_of_le hj)]

/-- InsertEntry of length `n` reads the low `n` bits of the pattern only (41_decoder.md R166). -/
theorem insertEntry_congr {n : Nat} (h : pat.toNat % 2 ^ n = pat'.toNat % 2 ^ n) (st : NodeStore) :
    insertEntry sym pat n st = insertEntry sym pat' n st := by
  have hbit : ∀ j < n, patternBit pat j = patternBit pat' j := fun j hj => by
    have hmod := congrArg (fun v => Nat.testBit v j) h
    simp only [Nat.testBit_mod_two_pow, hj, decide_true, Bool.true_and] at hmod
    exact hmod
  unfold insertEntry
  by_cases hn : n = 0
  · simp only [hn, if_true]
  · have hwalk := insertWalk_congr (sym := sym) (i := n - 1) fun j hj => hbit j (by omega)
    simp only [insertCode, hwalk]

end

end Sys2Proof.Machine

/-! SUPPORT. The bytes of the header and of the table (41_decoder.md R163 to R165): each field is assembled from its bytes,
least significant first. -/

namespace Sys2Proof.Machine

/-! ### Fields -/

/-- A field of `width` bits that holds the bytes `bs` from its byte `k` on, and 0 elsewhere (00_scope.md R8). -/
def bytesField (width k : Nat) (bs : List Byte) : BitVec width :=
  BitVec.ofNat width (fromLE bs) <<< (8 * k)

theorem bytesField_nil (width k : Nat) : bytesField width k [] = 0 :=
  BitVec.zero_shiftLeft _

theorem bytesField_zero (width : Nat) (bs : List Byte) : bytesField width 0 bs = BitVec.ofNat width (fromLE bs) :=
  BitVec.shiftLeft_zero _

theorem ofNat_shiftLeft (width v n : Nat) : BitVec.ofNat width (v <<< n) = BitVec.ofNat width v <<< n := by
  apply BitVec.eq_of_toNat_eq
  simp [Nat.shiftLeft_eq]

theorem bytesField_cons (width k : Nat) (b : Byte) (bs : List Byte) :
    bytesField width k (b :: bs) = byteLane width b k ||| bytesField width (k + 1) bs := by
  have hsum : fromLE (b :: bs) = fromLE bs <<< 8 ||| b.toNat := by
    rw [← Nat.shiftLeft_add_eq_or_of_lt b.isLt, Nat.shiftLeft_eq, fromLE, Nat.mul_comm, Nat.add_comm]
  rw [bytesField, hsum, BitVec.ofNat_or, ofNat_shiftLeft, BitVec.shiftLeft_or_distrib, ← BitVec.shiftLeft_add,
    BitVec.ofNat_toNat, BitVec.or_comm, byteLane, bytesField, Nat.mul_succ, Nat.add_comm (8 * k)]

/-! ### Bytes read before the payload -/

/-- DEC_PUT of each byte of `bs` takes the decoder `d` to `d'`, every byte being one of the header or of the table. -/
inductive Dec.Parses : List Byte → Dec → Dec → Prop where
  | nil (d : Dec) : Dec.Parses [] d d
  | cons {b : Byte} {bs : List Byte} {d e d' : Dec} (hp : d.phase = .hdr ∨ d.phase = .table) (hput : d.put b = .ok e)
      (hrest : Dec.Parses bs e d') : Dec.Parses (b :: bs) d d'

namespace Dec.Parses

theorem single {b : Byte} {d d' : Dec} (hp : d.phase = .hdr ∨ d.phase = .table) (hput : d.put b = .ok d') :
    Dec.Parses [b] d d' :=
  .cons hp hput (.nil d')

theorem append {bs cs : List Byte} {d e d' : Dec} (h : Dec.Parses bs d e) (h' : Dec.Parses cs e d') :
    Dec.Parses (bs ++ cs) d d' := by
  induction h with
  | nil d => exact h'
  | cons hp hput _ ih => exact .cons hp hput (ih h')

theorem inv {bs : List Byte} {d d' : Dec} (h : Dec.Parses bs d d') (hd : d.Inv) : d'.Inv := by
  induction h with
  | nil d => exact hd
  | cons _ hput _ ih => exact ih (hd.put hput)

theorem execAll {bs : List Byte} {d d' : Dec} (h : Dec.Parses bs d d') {s : State} (hs : s.dec = d) :
    execAll (decPuts bs) s = .next (s.withDec d') := by
  induction h generalizing s with
  | nil d => rw [← hs]; rfl
  | cons _ hput _ ih =>
    rw [← hs] at hput
    rw [decPuts, List.map_cons, execAll_cons_of_next (exec_decPut_of_ok hput)]
    exact ih rfl

end Dec.Parses

/-! ### The header -/

section
variable {d : Dec}

theorem Dec.put_hdr (hp : d.phase = .hdr) (b : Byte) : d.put b = .ok (d.hdrByte b) := by
  simp only [Dec.put, hp]

theorem Dec.hdrByte_of_length (h : d.dpos < 8) (b : Byte) :
    d.hdrByte b = { d with len := d.len ||| byteLane 64 b d.dpos, dpos := d.dpos + 1 } := by
  have hmore : d.dpos + 1 ≠ Config.hdrBytes := by simp only [Config.hdrBytes]; omega
  simp only [Dec.hdrByte, Dec.withHdrByte, if_pos h, if_neg hmore]

theorem Dec.hdrByte_of_count (h8 : 8 ≤ d.dpos) (h : d.dpos < 11) (b : Byte) :
    d.hdrByte b = { d with tcount := d.tcount ||| byteLane 32 b (d.dpos - 8), dpos := d.dpos + 1 } := by
  have hmore : d.dpos + 1 ≠ Config.hdrBytes := by simp only [Config.hdrBytes]; omega
  simp only [Dec.hdrByte, Dec.withHdrByte, if_neg (not_lt.2 h8), if_neg hmore]

theorem Dec.hdrByte_last (h : d.dpos = 11) (b : Byte) :
    d.hdrByte b = Dec.headerDone { d with tcount := d.tcount ||| byteLane 32 b 3, dpos := 0 } := by
  simp [Dec.hdrByte, Dec.withHdrByte, h, Config.hdrBytes]

/-- The first eight header bytes are `original_length` (41_decoder.md R163). -/
theorem Dec.parses_length (hp : d.phase = .hdr) {bs : List Byte} (h : d.dpos + bs.length ≤ 8) :
    Dec.Parses bs d { d with len := d.len ||| bytesField 64 d.dpos bs, dpos := d.dpos + bs.length } := by
  induction bs generalizing d with
  | nil => simpa [bytesField_nil] using Dec.Parses.nil d
  | cons b bs ih =>
    rw [List.length_cons] at h
    have hput := (Dec.put_hdr hp b).trans (congrArg _ (Dec.hdrByte_of_length (by omega) b))
    refine .cons (.inl hp) hput ?_
    have hrest := ih (d := { d with len := d.len ||| byteLane 64 b d.dpos, dpos := d.dpos + 1 }) hp (by simp only; omega)
    rw [bytesField_cons, ← BitVec.or_assoc, List.length_cons, Nat.add_comm bs.length 1, ← Nat.add_assoc]
    exact hrest

/-- The last header bytes are `table_count`, and the twelfth ends the header (41_decoder.md R163, R164). -/
theorem Dec.parses_count (hp : d.phase = .hdr) {bs : List Byte} (h8 : 8 ≤ d.dpos) (h11 : d.dpos ≤ 11)
    (h : d.dpos + bs.length = 12) :
    Dec.Parses bs d (Dec.headerDone { d with tcount := d.tcount ||| bytesField 32 (d.dpos - 8) bs, dpos := 0 }) := by
  induction bs generalizing d with
  | nil =>
    rw [List.length_nil] at h
    omega
  | cons b bs ih =>
    rw [List.length_cons] at h
    rw [bytesField_cons, ← BitVec.or_assoc]
    by_cases hlast : d.dpos = 11
    · obtain rfl : bs = [] := List.length_eq_zero_iff.1 (by omega)
      rw [bytesField_nil, hlast]
      simpa using Dec.Parses.single (.inl hp) ((Dec.put_hdr hp b).trans (congrArg _ (Dec.hdrByte_last hlast b)))
    · have hput := (Dec.put_hdr hp b).trans (congrArg _ (Dec.hdrByte_of_count h8 (by omega) b))
      refine .cons (.inl hp) hput ?_
      have hrest := ih (d := { d with tcount := d.tcount ||| byteLane 32 b (d.dpos - 8), dpos := d.dpos + 1 }) hp
        (by simp only; omega) (by simp only; omega) (by simp only; omega)
      rw [← Nat.sub_add_comm h8]
      exact hrest

/-- A decoder with the two fields of a whole header, before its checks. -/
def Dec.withHeader (bs : List Byte) (d : Dec) : Dec :=
  { d with len := BitVec.ofNat 64 (fromLE (bs.take 8)), tcount := BitVec.ofNat 32 (fromLE (bs.drop 8)), dpos := 0 }

/-- Twelve bytes from a fresh header (41_decoder.md R163). -/
theorem Dec.parses_header (hp : d.phase = .hdr) (hk : d.dpos = 0) (hlen : d.len = 0) (hcount : d.tcount = 0)
    {bs : List Byte} (h : bs.length = 12) : Dec.Parses bs d (d.withHeader bs).headerDone := by
  have hfirst := Dec.parses_length hp (bs := bs.take 8) (by rw [List.length_take]; omega)
  have hsecond := Dec.parses_count (bs := bs.drop 8)
    (d := { d with len := d.len ||| bytesField 64 d.dpos (bs.take 8), dpos := d.dpos + (bs.take 8).length }) hp
    (by simp only [List.length_take]; omega) (by simp only [List.length_take]; omega)
    (by simp only [List.length_take, List.length_drop]; omega)
  have hboth := hfirst.append hsecond
  rw [List.take_append_drop] at hboth
  have hk8 : min 8 bs.length - 8 = 0 := by omega
  simpa [Dec.withHeader, hk, hlen, hcount, hk8, bytesField_zero] using hboth

theorem Dec.headerDone_negative (h : s64 d.len < 0) : d.headerDone = d.raise .badLength := by
  rw [Dec.headerDone, if_pos h]

theorem Dec.headerDone_many (h : 0 ≤ s64 d.len) (hcount : 256 < d.tcount.toNat) : d.headerDone = d.raise .badCount := by
  rw [Dec.headerDone, if_neg (not_lt.2 h), if_pos hcount]

theorem Dec.headerDone_empty (hlen : d.len = 0) (hcount : d.tcount = 0) : d.headerDone = { d with phase := .done } := by
  have h : ¬ s64 d.len < 0 := by rw [hlen]; decide
  rw [Dec.headerDone, if_neg h, if_neg (by rw [hcount]; decide), if_pos hcount, if_pos hlen]

theorem Dec.headerDone_no_table (h : 0 < s64 d.len) (hcount : d.tcount = 0) : d.headerDone = d.raise .emptyTable := by
  have hlen : d.len ≠ 0 := fun hz => by rw [hz] at h; exact absurd h (by decide)
  rw [Dec.headerDone, if_neg (not_lt.2 h.le), if_neg (by rw [hcount]; decide), if_pos hcount, if_neg hlen]

theorem Dec.headerDone_table (h : 0 ≤ s64 d.len) (hpos : d.tcount ≠ 0) (hmax : d.tcount.toNat ≤ 256) :
    d.headerDone = { d with entDone := 0, phase := .table } := by
  rw [Dec.headerDone, if_neg (not_lt.2 h), if_neg (not_lt.2 hmax), if_neg hpos]

/-! ### A table entry -/

theorem Dec.put_table (hp : d.phase = .table) (b : Byte) : d.put b = d.tableByte b := by
  simp only [Dec.put, hp]

theorem Dec.tableByte_first (h : d.dpos = 0) (b : Byte) : d.tableByte b = .ok { d with eSym := b, dpos := 1 } := by
  simp [Dec.tableByte, Dec.withEntryByte, h, Config.entryBytes]

theorem Dec.tableByte_of_pattern (h1 : 1 ≤ d.dpos) (h : d.dpos ≤ 4) (b : Byte) :
    d.tableByte b = .ok { d with ePat := d.ePat ||| byteLane 32 b (d.dpos - 1), dpos := d.dpos + 1 } := by
  have hmore : d.dpos + 1 ≠ Config.entryBytes := by simp only [Config.entryBytes]; omega
  simp only [Dec.tableByte, Dec.withEntryByte, if_neg (Nat.ne_of_gt h1), if_pos h, if_neg hmore]

theorem Dec.tableByte_last (h : d.dpos = 5) (b : Byte) :
    d.tableByte b = Dec.finishEntry { d with eLen := b, dpos := 0 } := by
  simp [Dec.tableByte, Dec.withEntryByte, h, Config.entryBytes]

/-- Bytes 1 to 4 of an entry are its pattern (41_decoder.md R165). -/
theorem Dec.parses_pattern (hp : d.phase = .table) {bs : List Byte} (h1 : 1 ≤ d.dpos) (h : d.dpos + bs.length ≤ 5) :
    Dec.Parses bs d { d with ePat := d.ePat ||| bytesField 32 (d.dpos - 1) bs, dpos := d.dpos + bs.length } := by
  induction bs generalizing d with
  | nil => simpa [bytesField_nil] using Dec.Parses.nil d
  | cons b bs ih =>
    rw [List.length_cons] at h
    have hput := (Dec.put_table hp b).trans (Dec.tableByte_of_pattern h1 (by omega) b)
    refine .cons (.inr hp) hput ?_
    have hrest := ih (d := { d with ePat := d.ePat ||| byteLane 32 b (d.dpos - 1), dpos := d.dpos + 1 }) hp
      (by simp only; omega) (by simp only; omega)
    rw [bytesField_cons, ← BitVec.or_assoc, List.length_cons, Nat.add_comm bs.length 1, ← Nat.add_assoc,
      ← Nat.sub_add_comm h1]
    exact hrest

/-- A decoder with a whole entry in its registers, before InsertEntry. -/
def Dec.withEntryRead (sym : Byte) (pat : Word) (n : Byte) (d : Dec) : Dec :=
  { d with eSym := sym, ePat := pat, eLen := n, dpos := 0 }

/-- The six bytes of an entry (41_decoder.md R165). -/
theorem Dec.parses_entry (hp : d.phase = .table) (hk : d.dpos = 0) (hpat : d.ePat = 0) {sym n : Byte} {bs : List Byte}
    (h4 : bs.length = 4) {d' : Dec}
    (h : (d.withEntryRead sym (BitVec.ofNat 32 (fromLE bs)) n).finishEntry = .ok d') :
    Dec.Parses (sym :: bs ++ [n]) d d' := by
  refine .cons (.inr hp) ((Dec.put_table hp sym).trans (Dec.tableByte_first hk sym)) ?_
  have hmid := Dec.parses_pattern (d := { d with eSym := sym, dpos := 1 }) hp (le_refl 1) (bs := bs) (by simp only; omega)
  refine hmid.append (.single (.inr hp) ?_)
  rw [Dec.put_table (by exact hp), Dec.tableByte_last (by simp only; omega)]
  simpa [Dec.withEntryRead, hpat, bytesField_zero] using h

theorem Dec.entryDone_more {st : NodeStore} (h : d.entDone + 1 ≠ d.tcount.toNat) : d.entryDone st = d.withEntry st :=
  if_neg h

theorem Dec.entryDone_done {st : NodeStore} (h : d.entDone + 1 = d.tcount.toNat) (hlen : d.len = 0) :
    d.entryDone st = { d.withEntry st with phase := .done } :=
  (if_pos h).trans (if_pos hlen)

theorem Dec.entryDone_payload {st : NodeStore} (h : d.entDone + 1 = d.tcount.toNat) (hlen : d.len ≠ 0) :
    d.entryDone st = (d.withEntry st).enterPayload :=
  (if_pos h).trans (if_neg hlen)

theorem Dec.finishEntry_inserted {st : NodeStore}
    (h : insertEntry d.eSym d.ePat d.eLen.toNat d.store = .inserted st) : d.finishEntry = .ok (d.entryDone st) := by
  simp only [Dec.finishEntry, h]

theorem Dec.finishEntry_failed {code : DecErr} {st : NodeStore}
    (h : insertEntry d.eSym d.ePat d.eLen.toNat d.store = .failed code st) :
    d.finishEntry = .ok (Dec.raise code { d with store := st }) := by
  simp only [Dec.finishEntry, h]

end

end Sys2Proof.Machine

/-! SUPPORT. The loop of DEC_NEXT along the window's bits (41_decoder.md R176, R177), and the order of those bits (R173). -/

namespace Sys2Proof.Machine

/-! ### The window's bits -/

@[simp] theorem length_windowBits (win : Word) (k : Nat) : (windowBits win k).length = k :=
  length_bitsOf _ _

theorem windowBits_zero (win : Word) : windowBits win 0 = [] := rfl

/-- The first window bit is the window's top bit; the others are the window's, moved up by one. -/
theorem windowBits_succ (win : Word) {k : Nat} (hk : k < 32) :
    windowBits win (k + 1) = win.getLsbD 31 :: windowBits (win <<< 1) k := by
  rw [windowBits, bitsOf_succ, Nat.testBit_shiftRight, show 32 - (k + 1) + k = 31 by omega]
  refine congrArg _ (bitsOf_congr fun i hi => ?_)
  rw [Nat.testBit_shiftRight, Nat.testBit_shiftRight, BitVec.testBit_toNat, BitVec.testBit_toNat, BitVec.getLsbD_shiftLeft,
    show 32 - k + i - 1 = 32 - (k + 1) + i by omega]
  have hin : 32 - k + i < 32 := by omega
  have hup : ¬ 32 - k + i < 1 := by omega
  simp only [hin, hup, decide_true, decide_false, Bool.not_false, Bool.true_and]

theorem shiftLeft_succ (win : Word) (k : Nat) : win <<< (k + 1) = win <<< 1 <<< k := by
  rw [Nat.add_comm, BitVec.shiftLeft_add]

/-- The first `j` bits, then the bits after them. -/
theorem windowBits_add (win : Word) {j k : Nat} (h : j + k ≤ 32) :
    windowBits win (j + k) = windowBits win j ++ windowBits (win <<< j) k := by
  induction j generalizing win with
  | zero => simp [windowBits_zero]
  | succ j ih =>
    rw [Nat.succ_add, windowBits_succ win (by omega), windowBits_succ win (by omega), ih _ (by omega), shiftLeft_succ win j,
      List.cons_append]

theorem windowBits_split (win : Word) {k v : Nat} (hk : k ≤ v) (hv : v ≤ 32) :
    windowBits win v = windowBits win k ++ windowBits (win <<< k) (v - k) := by
  rw [← windowBits_add win (by omega), Nat.add_sub_cancel' hk]

/-- A byte loaded just below the window's bits comes after them, its own bits MSB first (41_decoder.md R173). -/
theorem windowBits_or_byte (win : Word) (b : Byte) {v : Nat} (hv : v ≤ 24) (hlow : win.toNat % 2 ^ (32 - v) = 0) :
    windowBits (win ||| b.setWidth 32 <<< (24 - v)) (v + 8) = windowBits win v ++ bitsOf b.toNat 8 := by
  have hwin : ∀ i < 32 - v, win.getLsbD i = false := fun i hi => by
    have hbit := congrArg (fun n => Nat.testBit n i) hlow
    simp only [Nat.testBit_mod_two_pow, hi, decide_true, Bool.true_and, Nat.zero_testBit] at hbit
    exact hbit
  rw [windowBits, bitsOf_add, ← Nat.shiftRight_add, show 32 - (v + 8) + 8 = 32 - v by omega]
  congr 1 <;> refine bitsOf_congr fun i hi => ?_ <;>
    simp only [Nat.testBit_shiftRight, BitVec.testBit_toNat, BitVec.getLsbD_or, BitVec.getLsbD_shiftLeft,
      BitVec.getLsbD_setWidth]
  · have hhigh : b.getLsbD (32 - v + i - (24 - v)) = false := BitVec.getLsbD_of_ge b _ (by omega)
    simp [hhigh]
  · have hplace : 24 - v + i < 32 := by omega
    have hbyte : i < 32 := by omega
    rw [hwin _ (by omega), show 32 - (v + 8) = 24 - v by omega]
    simp [hplace, hbyte]

/-! ### The loop -/

section
variable {st : NodeStore} {win : Word} {cur : NodeIdx}

/-- The loop consumes the bits of a path that meets no leaf before its end, and goes on from there. -/
theorem walkBits_descend {k v : Nat} {i : NodeIdx} (hk : k ≤ v) (hv : v ≤ 32)
    (hd : st.descend cur (windowBits win k) = some i)
    (hleaf : ∀ j < k, ∀ q, st.descend cur (windowBits win j) = some q → (st.node q).kind ≠ .leaf) :
    walkBits st v win cur = walkBits st (v - k) (win <<< k) i := by
  induction k generalizing v win cur with
  | zero =>
    cases hd
    rw [Nat.sub_zero, BitVec.shiftLeft_zero]
  | succ k ih =>
    obtain ⟨v, rfl⟩ : ∃ u, v = u + 1 := ⟨v - 1, by omega⟩
    rw [windowBits_succ win (by omega), NodeStore.descend_cons, Option.bind_eq_some_iff] at hd
    obtain ⟨c, hc, hd⟩ := hd
    have hcur : (st.node cur).kind ≠ .leaf := hleaf 0 (by omega) cur rfl
    have hrest := ih (by omega) (by omega : v ≤ 32) hd fun j hj q hq => hleaf (j + 1) (by omega) q (by
      rw [windowBits_succ win (by omega), NodeStore.descend_cons, hc]
      exact hq)
    have hstep : walkBits st (v + 1) win cur = walkBits st v (win <<< 1) c := by
      rw [walkBits, if_neg hcur, hc]
    rw [hstep, hrest, Nat.add_sub_add_right, shiftLeft_succ win k]

theorem walkBits_leaf (h : (st.node cur).kind = .leaf) (v : Nat) :
    walkBits st v win cur = .symbol (st.node cur).sym win v := by
  cases v <;> rw [walkBits, if_pos h]

theorem walkBits_empty (h : (st.node cur).kind ≠ .leaf) : walkBits st 0 win cur = .starved win cur := by
  rw [walkBits, if_neg h]

theorem walkBits_missing (h : (st.node cur).kind ≠ .leaf) (hchild : (st.node cur).child (win.getLsbD 31) = none) (v : Nat) :
    walkBits st (v + 1) win cur = .noPath (win <<< 1) v cur := by
  rw [walkBits, if_neg h, hchild]

end

/-! ### DEC_NEXT in PAYLOAD -/

section
variable {d : Dec}

/-- A leaf after `k` window bits: its symbol is emitted (41_decoder.md R176). -/
theorem Dec.nextSymbol_of_leaf {k : Nat} {i : NodeIdx} (hv : d.vbits ≤ 32) (hk : k ≤ d.vbits)
    (hno : ∀ j < k, noLeafWithin d j) (hd : d.store.descend d.cur (windowBits d.win k) = some i)
    (hleaf : (d.store.node i).kind = .leaf) :
    d.nextSymbol = d.emitSymbol (d.store.node i).sym (d.win <<< k) (d.vbits - k) := by
  have hwalk := walkBits_descend hk hv hd fun j hj q hq => hno j hj j q (le_refl j) hq
  rw [Dec.nextSymbol, hwalk, walkBits_leaf hleaf]

/-- No leaf within the window bits: DEC_NEXT stops where they end (41_decoder.md R176). -/
theorem Dec.nextSymbol_of_starved {i : NodeIdx} (hv : d.vbits ≤ 32) (hno : noLeafWithin d d.vbits)
    (hd : d.store.descend d.cur (windowBits d.win d.vbits) = some i) :
    d.nextSymbol = d.starve (d.win <<< d.vbits) i := by
  have hwalk := walkBits_descend (le_refl d.vbits) hv hd fun j hj q hq => hno j q hj.le hq
  rw [Dec.nextSymbol, hwalk, Nat.sub_self, walkBits_empty (hno d.vbits i (le_refl _) hd)]

/-- A branch that does not exist after `k` window bits (41_decoder.md R176). -/
theorem Dec.nextSymbol_of_missing {k : Nat} {i : NodeIdx} (hv : d.vbits ≤ 32) (hk : k < d.vbits) (hno : noLeafWithin d k)
    (hd : d.store.descend d.cur (windowBits d.win k) = some i)
    (hchild : (d.store.node i).child (d.win.getLsbD (31 - k)) = none) :
    d.nextSymbol =
      Dec.raise .invalidPath { d with win := d.win <<< (k + 1), vbits := d.vbits - (k + 1), cur := i } := by
  have hwalk := walkBits_descend hk.le hv hd fun j hj q hq => hno j q hj.le hq
  have hbit : (d.win <<< k).getLsbD 31 = d.win.getLsbD (31 - k) := by
    rw [BitVec.getLsbD_shiftLeft]
    simp [show ¬ 31 < k by omega]
  have hstop := walkBits_missing (hno k i (le_refl k) hd) (hbit ▸ hchild) (d.vbits - (k + 1))
  rw [show d.vbits - (k + 1) + 1 = d.vbits - k by omega, ← BitVec.shiftLeft_add] at hstop
  rw [Dec.nextSymbol, hwalk, hstop]

/-! ### The decoder's commands, phase by phase -/

theorem Dec.put_payload (hp : d.phase = .payload) (b : Byte) : d.put b = .ok (d.winByte b) := by
  simp only [Dec.put, hp]

theorem Dec.put_done (hp : d.phase = .done) (b : Byte) : d.put b = .ok (d.doneByte b) := by
  simp only [Dec.put, hp]

theorem Dec.put_of_error (hp : d.phase = .error) (b : Byte) : d.put b = .ok d := by
  simp only [Dec.put, hp]

theorem Dec.winByte_of_room (hend : d.inEnd = false) (hv : d.vbits ≤ 24) (b : Byte) : d.winByte b =
    { d with win := d.win ||| b.setWidth 32 <<< (24 - d.vbits), vbits := d.vbits + 8, needIn := false } := by
  rw [Dec.winByte, if_neg (by simp [hend]), if_neg (not_lt.2 hv)]

theorem Dec.winByte_of_full (hend : d.inEnd = false) (hv : 24 < d.vbits) (b : Byte) :
    d.winByte b = d.raise .inOverrun := by
  rw [Dec.winByte, if_neg (by simp [hend]), if_pos hv]

theorem Dec.winByte_of_ended (hend : d.inEnd = true) (b : Byte) : d.winByte b = d.raise .seq := by
  rw [Dec.winByte, if_pos hend]

theorem Dec.doneByte_of_open (hend : d.inEnd = false) (b : Byte) : d.doneByte b = d := by
  rw [Dec.doneByte, if_neg (by simp [hend])]

theorem Dec.doneByte_of_ended (hend : d.inEnd = true) (b : Byte) : d.doneByte b = d.raise .seq := by
  rw [Dec.doneByte, if_pos hend]

theorem Dec.next_payload (hp : d.phase = .payload) : d.next = d.nextSymbol := by
  simp only [Dec.next, hp]

theorem Dec.next_of_not_payload (hp : d.phase = .hdr ∨ d.phase = .table ∨ d.phase = .done) : d.next = d.raise .seq := by
  rcases hp with hp | hp | hp <;> simp only [Dec.next, hp]

theorem Dec.next_of_error (hp : d.phase = .error) : d.next = d := by
  simp only [Dec.next, hp]

theorem Dec.finish_of_open (hp : d.phase = .payload ∨ d.phase = .done) (hend : d.inEnd = false) :
    d.finish = { d with inEnd := true } := by
  rcases hp with hp | hp <;> simp [Dec.finish, hp, Dec.endInput, hend]

theorem Dec.finish_of_ended (hp : d.phase = .payload ∨ d.phase = .done) (hend : d.inEnd = true) :
    d.finish = d.raise .seq := by
  rcases hp with hp | hp <;> simp [Dec.finish, hp, Dec.endInput, hend]

theorem Dec.finish_before_payload (hp : d.phase = .hdr ∨ d.phase = .table) : d.finish = d.raise .truncated := by
  rcases hp with hp | hp <;> simp only [Dec.finish, hp]

theorem Dec.finish_of_error (hp : d.phase = .error) : d.finish = d := by
  simp only [Dec.finish, hp]

end

section
variable {s : State} {d : Dec}

theorem exec_decPut_of_eq {b : Byte} {d' : Dec} (h : s.dec.put b = .ok d') (hd : d' = d) :
    exec (.decPut b) s = .next (s.withDec d) :=
  exec_decPut_of_ok (h.trans (congrArg _ hd))

theorem exec_decNext_of_eq (h : s.dec.next = d) : exec .decNext s = .next (s.withDec d) :=
  congrArg (fun d => Host.Outcome.next (s.withDec d)) h

theorem exec_decEnd_of_eq (h : s.dec.finish = d) : exec .decEnd s = .next (s.withDec d) :=
  congrArg (fun d => Host.Outcome.next (s.withDec d)) h

end

end Sys2Proof.Machine

/-! SUPPORT. The statements of 41_decoder.md on the decoder's commands and on its tree, settled. -/

namespace Sys2Proof.Machine

/-! ### The tree reconstructor -/

/-- Settles O46: the walk of the insertion links one leaf, and no bit string but the code leads to it. -/
theorem insertedCodeLeadsToItsLeaf : Obligations.InsertedCodeLeadsToItsLeaf := by
  unfold Obligations.InsertedCodeLeadsToItsLeaf
  intro sym pat n st st' hst h
  obtain ⟨hlen, hgains, -⟩ := insertEntry_gains hst h
  obtain ⟨hinv, -, -⟩ := insertEntry_inserted hst h
  exact ⟨hlen, hgains.at_code, hgains.elsewhere, hinv⟩

/-- Settles O45: the root decides alone for a zero-length code and where it is a leaf; else the code is blocked on its way. -/
theorem treeConflictsAreTheFourCases : Obligations.TreeConflictsAreTheFourCases := by
  unfold Obligations.TreeConflictsAreTheFourCases
  intro sym pat n st hst hn _
  refine ⟨?_, fun code st' h => insertEntry_failed_conflict hn h⟩
  rw [insertEntry, if_neg (not_lt.2 hn)]
  by_cases hzero : n = 0
  · subst hzero
    rw [if_pos rfl, insertRootLeaf]
    split
    · rename_i hempty
      simp [hempty]
    · rename_i hused
      simp [hused]
  · have hpos : 1 ≤ n := Nat.one_le_iff_ne_zero.2 hzero
    rw [if_neg hzero, insertCode_failed_iff hst hpos, NodeStore.Blocked, length_bitsOf]
    simp only [hzero, hpos, false_and, false_or, true_and]

/-- Settles O44: the length is checked before InsertEntry does anything, and no bit above it is read. -/
theorem overlongEntryIsRejectedFirst : Obligations.OverlongEntryIsRejectedFirst := by
  unfold Obligations.OverlongEntryIsRejectedFirst
  refine ⟨fun s n hp hk hlong => ?_, fun sym pat pat' n st _ h => insertEntry_congr h st⟩
  have hreject : insertEntry s.dec.eSym s.dec.ePat n.toNat s.dec.store = .failed .codeLen s.dec.store := by
    rw [insertEntry, if_pos hlong]
  refine exec_decPut_of_ok ((Dec.put_table hp n).trans ((Dec.tableByte_last hk n).trans ?_))
  exact Dec.finishEntry_failed hreject

/-- Settles O47: Alloc's own law, the nodes the walk makes, and the bound on `node_next`. -/
theorem allocTakesTheNextSlot : Obligations.AllocTakesTheNextSlot := by
  unfold Obligations.AllocTakesTheNextSlot
  refine ⟨fun st kind sym hnext => ?_, fun sym pat n st st' hst h => ?_, fun d h hp => h.room_for_entry hp⟩
  · refine ⟨⟨st.next, hnext⟩, _, dif_pos hnext, rfl, rfl, ?_, fun j hj => ?_⟩
    · exact (Arena.get_set _ _ _ _).trans (if_pos rfl)
    · exact (Arena.get_set _ _ _ _).trans (if_neg hj.symm)
  · obtain ⟨-, -, hnext⟩ := insertEntry_gains hst h
    exact hnext

/-! ### The header and the table -/

/-- Settles O42: each byte goes into its place, and the twelfth brings the checks. -/
theorem headerIsAssembledAndChecked : Obligations.HeaderIsAssembledAndChecked := by
  unfold Obligations.HeaderIsAssembledAndChecked
  refine ⟨fun s b hp hk => ⟨_, exec_decPut_of_ok (Dec.put_hdr hp b), fun h8 => ?_, fun h8 => ?_⟩,
    fun s bs hp hk hlen hcount h12 => ?_⟩
  · rw [Dec.hdrByte_of_length h8]
    rfl
  · rw [Dec.hdrByte_of_count h8 hk]
    rfl
  · have hparse := Dec.parses_header hp hk hlen hcount h12
    refine ⟨_, _, _, hparse.execAll rfl, rfl, rfl, fun hneg => ?_, fun hnonneg hmany => ?_, fun hzero hempty => ?_,
      fun hpos hzero => ?_, fun hnonneg hpos hmax => ?_⟩
    · rw [Dec.headerDone_negative (d := s.dec.withHeader bs) hneg]
      rfl
    · rw [Dec.headerDone_many (d := s.dec.withHeader bs) hnonneg hmany]
      rfl
    · rw [Dec.headerDone_empty (d := s.dec.withHeader bs) hempty (BitVec.eq_of_toNat_eq hzero)]
      rfl
    · rw [Dec.headerDone_no_table (d := s.dec.withHeader bs) hpos (BitVec.eq_of_toNat_eq hzero)]
      rfl
    · rw [Dec.headerDone_table (d := s.dec.withHeader bs) hnonneg
        (fun hzero => absurd (congrArg BitVec.toNat hzero) (Nat.ne_of_gt hpos)) hmax]
      rfl

/-- Settles O43: the entry's bytes fill its registers, and InsertEntry's two answers end it. -/
theorem tableEntryIsAssembledAndInserted : Obligations.TableEntryIsAssembledAndInserted := by
  unfold Obligations.TableEntryIsAssembledAndInserted
  rintro s sym b1 b2 b3 b4 n hp hk hpat pat rfl
  have hrun {d' : Dec} (h : (s.dec.withEntryRead sym (BitVec.ofNat 32 (fromLE [b1, b2, b3, b4])) n).finishEntry = .ok d') :
      execAll (decPuts [sym, b1, b2, b3, b4, n]) s = .next (s.withDec d') :=
    (Dec.parses_entry hp hk hpat rfl h).execAll rfl
  refine ⟨fun st hins => ?_, fun code st hfail => ?_⟩
  · rw [hrun (Dec.finishEntry_inserted hins)]
    refine ⟨fun hmore => ?_, fun hlast hlen => ?_, fun hlast hlen => ?_⟩
    · rw [Dec.entryDone_more (by exact hmore)]
      simp [State.withDec, Dec.withEntry, Dec.withEntryRead, hk]
    · rw [Dec.entryDone_done (by exact hlast) (by exact hlen)]
      simp [State.withDec, Dec.withEntry, Dec.withEntryRead, hk]
    · rw [Dec.entryDone_payload (by exact hlast) (by exact hlen)]
      simp [State.withDec, Dec.withEntry, Dec.enterPayload, Dec.withEntryRead, hk]
  · rw [hrun (Dec.finishEntry_failed hfail)]
    simp [State.withDec, Dec.withEntryRead, Dec.raise, hk]

/-! ### The commands, phase by phase -/

/-- Settles O40: the values DEC_INIT writes are the reset values. -/
theorem decInitResetsTheDecoder : Obligations.DecInitResetsTheDecoder := by
  unfold Obligations.DecInitResetsTheDecoder
  exact ⟨rfl, fun _ => rfl, fun _ => rfl, rfl, rfl, rfl, rfl, rfl, rfl, rfl, rfl, rfl, rfl, rfl, rfl, rfl, rfl, rfl, rfl, rfl⟩

/-- Settles O41, entry by entry. -/
theorem decoderPhaseTable : Obligations.DecoderPhaseTable := by
  unfold Obligations.DecoderPhaseTable
  exact fun s => ⟨fun hp => exec_decNext_of_eq (Dec.next_of_not_payload hp),
    fun hp => exec_decEnd_of_eq (Dec.finish_before_payload hp),
    fun hp => ⟨exec_decNext_of_eq (Dec.next_of_error hp), exec_decEnd_of_eq (Dec.finish_of_error hp),
      fun b => exec_decPut_of_ok (Dec.put_of_error hp b)⟩⟩

/-- Settles O48, for a window with room, a full one, a stream that is done, and an input that was ended. -/
theorem decPutAfterTheTable : Obligations.DecPutAfterTheTable := by
  unfold Obligations.DecPutAfterTheTable
  refine fun s b => ⟨fun hp hend hv => ?_, fun hp hend hv => ?_, fun hp hend => ?_, fun hp hend => ?_⟩
  · exact exec_decPut_of_eq (Dec.put_payload hp b) (Dec.winByte_of_room hend hv b)
  · exact exec_decPut_of_eq (Dec.put_payload hp b) (Dec.winByte_of_full hend hv b)
  · exact exec_decPut_of_eq (Dec.put_done hp b) (Dec.doneByte_of_open hend b)
  · rcases hp with hp | hp
    · exact exec_decPut_of_eq (Dec.put_payload hp b) (Dec.winByte_of_ended hend b)
    · exact exec_decPut_of_eq (Dec.put_done hp b) (Dec.doneByte_of_ended hend b)

/-- Settles O50, phase by phase. -/
theorem decEndEndsTheInputOnce : Obligations.DecEndEndsTheInputOnce := by
  unfold Obligations.DecEndEndsTheInputOnce
  exact fun s => ⟨rfl, fun hp hend => exec_decEnd_of_eq (Dec.finish_of_open hp hend),
    fun hp hend => exec_decEnd_of_eq (Dec.finish_of_ended hp hend),
    fun hp => exec_decEnd_of_eq (Dec.finish_before_payload hp),
    fun hp => exec_decEnd_of_eq (Dec.finish_of_error hp)⟩

/-! ### The window -/

/-- Settles O52: the load's bits, and the window's top bit. -/
theorem windowKeepsStreamOrder : Obligations.WindowKeepsStreamOrder := by
  unfold Obligations.WindowKeepsStreamOrder
  refine ⟨fun d b h hp hend hv => ⟨_, Dec.put_payload hp b, ?_⟩, fun win k hk => windowBits_succ win hk⟩
  rw [Dec.winByte_of_room hend hv b]
  exact ⟨rfl, windowBits_or_byte d.win b hv h.win_low⟩

/-- Settles O49: the loop follows the window's bits to a leaf, to their end, or to a missing branch. -/
theorem decNextDecodesOneSymbol : Obligations.DecNextDecodesOneSymbol := by
  unfold Obligations.DecNextDecodesOneSymbol
  refine fun s => ⟨rfl, fun hp hv => ⟨fun k i hk hno hd hleaf => ?_, fun i hno hd => ?_, fun k i hk hno hd hchild => ?_⟩,
    fun hp => exec_decNext_of_eq (Dec.next_of_not_payload hp), fun hp => exec_decNext_of_eq (Dec.next_of_error hp)⟩
  · refine exec_decNext_of_eq ((Dec.next_payload hp).trans ((Dec.nextSymbol_of_leaf hv hk hno hd hleaf).trans ?_))
    rw [Dec.emitSymbol, hp]
    rfl
  · have hstop := exec_decNext_of_eq ((Dec.next_payload hp).trans (Dec.nextSymbol_of_starved hv hno hd))
    refine ⟨fun hend => ?_, fun hend => ?_⟩ <;> rw [hstop]
    · simp [State.withDec, Dec.starve, hend]
    · simp [State.withDec, Dec.starve, hend, Dec.raise]
  · exact exec_decNext_of_eq ((Dec.next_payload hp).trans (Dec.nextSymbol_of_missing hv hk hno hd hchild))

/-- Settles O51: the root is the leaf, and the loop takes no bit to reach it. -/
theorem zeroLengthEntryEmitsWithoutBits : Obligations.ZeroLengthEntryEmitsWithoutBits := by
  unfold Obligations.ZeroLengthEntryEmitsWithoutBits
  refine ⟨fun sym pat => ⟨_, rfl, rfl, rfl⟩, fun s hp hcur hleaf => ?_⟩
  have hnext : s.dec.next = s.dec.emitSymbol (s.dec.store.node 0).sym s.dec.win s.dec.vbits := by
    rw [Dec.next_payload hp, Dec.nextSymbol, hcur, walkBits_leaf hleaf]
  rw [exec_decNext_of_eq hnext, Dec.emitSymbol, hp]
  simp [State.withDec, ← hcur, Dec.emit]

end Sys2Proof.Machine

/-! SUPPORT. The decoder's tree as the table of a code (30_encoding.md R91, 41_decoder.md R167, R170): where no code begins
another, they go in entry by entry without a conflict, and each code then leads to its symbol. -/

namespace Sys2Proof.Machine

/-- No code of a symbol in `syms` begins another's (40_encoder.md R129). -/
def PrefixFree (code : Byte → List Bool) (syms : List Byte) : Prop :=
  ∀ a ∈ syms, ∀ b ∈ syms, code a <+: code b → a = b

/-- The store's tree is that of the code `code` on the symbols `syms`: its leaves end the codes, and every node is on the way
to one. -/
structure NodeStore.Holds (st : NodeStore) (code : Byte → List Bool) (syms : List Byte) : Prop where
  symbols : ∀ bits b, st.symbolAt bits = some b ↔ b ∈ syms ∧ bits = code b
  reached : ∀ bits i, st.descend 0 bits = some i → bits = [] ∨ ∃ b ∈ syms, bits <+: code b

namespace NodeStore.Holds

theorem empty (code : Byte → List Bool) : NodeStore.Holds ⟨[], 1⟩ code [] := by
  have hroot : NodeStore.node ⟨[], 1⟩ 0 = Node.blank := rfl
  have hnone := NodeStore.descend_of_childless (st := ⟨[], 1⟩) (i := 0) fun bit => by rw [hroot, Node.blank_child]
  refine ⟨fun bits b => ?_, fun bits i hi => ?_⟩
  · cases bits with
    | nil => simp [NodeStore.symbolAt_eq, NodeStore.descend, hroot, Node.leafSym]
    | cons bit bits => rw [NodeStore.symbolAt_eq, hnone]; simp
  · cases bits with
    | nil => exact .inl rfl
    | cons bit bits => rw [hnone] at hi; cases hi

variable {st : NodeStore} {code : Byte → List Bool} {syms : List Byte} (h : st.Holds code syms)
include h

/-- A leaf on the way to a symbol's code is the end of that code. -/
theorem leaf_on_path (hfree : PrefixFree code syms) {x : Byte} (hx : x ∈ syms) {bits : List Bool} (hbits : bits <+: code x)
    {i : NodeIdx} (hd : st.descend 0 bits = some i) (hleaf : (st.node i).kind = .leaf) :
    bits = code x ∧ (st.node i).sym = x := by
  have hsym : st.symbolAt bits = some (st.node i).sym := by
    rw [NodeStore.symbolAt_eq, hd]
    exact if_pos hleaf
  obtain ⟨hmem, heq⟩ := (h.symbols _ _).1 hsym
  have hsame := hfree _ hmem x hx (heq ▸ hbits)
  rw [hsame] at heq
  exact ⟨heq, hsame⟩

theorem leaf_at_code {x : Byte} (hx : x ∈ syms) :
    ∃ i, st.descend 0 (code x) = some i ∧ (st.node i).kind = .leaf ∧ (st.node i).sym = x := by
  have hsym := (h.symbols (code x) x).2 ⟨hx, rfl⟩
  rw [NodeStore.symbolAt_eq, Option.bind_eq_some_iff] at hsym
  obtain ⟨i, hd, hi⟩ := hsym
  rw [Node.leafSym, Option.ite_none_right_eq_some] at hi
  exact ⟨i, hd, hi.1, Option.some.inj hi.2⟩

theorem descend_prefix {x : Byte} (hx : x ∈ syms) {bits : List Bool} (hbits : bits <+: code x) :
    ∃ i, st.descend 0 bits = some i := by
  obtain ⟨more, hmore⟩ := hbits
  obtain ⟨i, hd, -⟩ := h.leaf_at_code hx
  rw [← hmore, NodeStore.descend_append, Option.bind_eq_some_iff] at hd
  exact hd.imp fun _ hq => hq.1

/-- A new symbol's code goes into the tree. -/
theorem gains {st' : NodeStore} {b : Byte} (hb : st.Gains st' (code b) b) (hnew : ∀ c ∈ syms, code c ≠ code b) :
    st'.Holds code (syms ++ [b]) := by
  refine ⟨fun bits c => ?_, fun bits i hi => ?_⟩
  · rw [List.mem_append, List.mem_singleton]
    by_cases hbits : bits = code b
    · rw [hbits, hb.at_code, Option.some.injEq]
      constructor
      · rintro rfl
        exact ⟨.inr rfl, rfl⟩
      · rintro ⟨hc | hc, hcode⟩
        · exact absurd hcode.symm (hnew c hc)
        · exact hc.symm
    · rw [hb.elsewhere bits hbits, h.symbols]
      refine and_congr_left fun hcode => (or_iff_left ?_).symm
      rintro rfl
      exact hbits hcode
  · rcases hb.reached bits i hi with ⟨j, hj⟩ | hpre
    · exact (h.reached bits j hj).imp_right fun ⟨c, hc, hpre⟩ => ⟨c, List.mem_append_left _ hc, hpre⟩
    · exact .inr ⟨b, by simp, hpre⟩

/-- Where no code begins another, a new symbol's code meets none of the four conflicts, and is inserted (41_decoder.md
R168). -/
theorem insertEntry_inserted {b : Byte} {pat : Word} {n : Nat} (hst : st.Inv) (hroom : st.next + 32 ≤ Config.decNodes)
    (hfree : PrefixFree code (syms ++ [b])) (hb : b ∉ syms) (h1 : 1 ≤ n) (h32 : n ≤ 32)
    (hcode : code b = bitsOf pat.toNat n) :
    ∃ st', insertEntry b pat n st = .inserted st' ∧ st'.Holds code (syms ++ [b]) := by
  have hold : ∀ c ∈ syms, ¬ code c <+: code b ∧ ¬ code b <+: code c := fun c hc => by
    have hne : c ≠ b := fun heq => hb (heq ▸ hc)
    have hc' : c ∈ syms ++ [b] := List.mem_append_left _ hc
    have hb' : b ∈ syms ++ [b] := by simp
    exact ⟨fun hpre => hne (hfree c hc' b hb' hpre), fun hpre => hne (hfree b hb' c hc' hpre).symm⟩
  have hlength : (code b).length = n := by rw [hcode, length_bitsOf]
  have hno_leaf : ∀ bits i, bits <+: code b → st.descend 0 bits = some i → (st.node i).kind ≠ .leaf := by
    intro bits i hpre hd hleaf
    have hsym : st.symbolAt bits = some (st.node i).sym := by
      rw [NodeStore.symbolAt_eq, hd]
      exact if_pos hleaf
    obtain ⟨hmem, rfl⟩ := (h.symbols _ _).1 hsym
    exact (hold _ hmem).1 hpre
  rcases insertEntry_cases b pat n st hst with ⟨st', hins, -⟩ | ⟨c, st', hfail, -⟩ | ⟨-, hfull⟩
  · obtain ⟨-, hgains, -⟩ := insertEntry_gains hst hins
    refine ⟨st', hins, h.gains (hcode ▸ hgains) fun c hc heq => (hold c hc).1 (heq ▸ List.prefix_refl _)⟩
  · exfalso
    obtain rfl := insertEntry_failed_conflict h32 hfail
    simp only [Config.decNodes] at hroom
    obtain ⟨hconflict, -⟩ := treeConflictsAreTheFourCases b pat n st hst h32 (by omega)
    rw [← hcode] at hconflict
    rcases hconflict.1 ⟨st', hfail⟩ with ⟨hzero, -⟩ | ⟨-, hroot⟩ | ⟨k, i, -, -, hd, hleaf⟩ | ⟨-, i, hd⟩
    · omega
    · exact hno_leaf [] 0 (List.nil_prefix) rfl hroot
    · exact hno_leaf _ i (List.take_prefix _ _) hd hleaf
    · rcases h.reached _ _ hd with hnil | ⟨c, hc, hpre⟩
      · rw [hnil, List.length_nil] at hlength
        omega
      · exact (hold c hc).2 hpre
  · exact absurd hroom (not_le.2 hfull)

end NodeStore.Holds

end Sys2Proof.Machine

/-! SUPPORT. The decoder on a table that the encoder emitted (30_encoding.md R90, R91; 41_decoder.md R165 to R172): it ends at the
start of the payload, with the code in its tree. -/

namespace Sys2Proof.Machine

/-- The decoder at the start of the payload, with the tree in `st` (41_decoder.md R172). -/
def Dec.atPayload (st : NodeStore) (d : Dec) : Dec :=
  { d with
    store := st, eSym := 0, ePat := 0, eLen := 0, entDone := d.tcount.toNat,
    rem := d.len, cur := 0, win := 0, vbits := 0, needIn := false, phase := .payload }

/-- The decoder before the first byte of an entry. -/
structure Dec.AtEntry (d : Dec) : Prop where
  inv : d.Inv
  phase : d.phase = .table
  dpos : d.dpos = 0
  ePat : d.ePat = 0

/-- The encoder's codes of the symbols `syms` can make a table: no code begins another, and each has 1 to 32 bits. -/
structure Enc.TableCodes (e : Enc) (syms : List Byte) : Prop where
  free : PrefixFree e.code syms
  nodup : syms.Nodup
  len : ∀ b ∈ syms, 1 ≤ e.codeLen.get b ∧ e.codeLen.get b ≤ 32

/-- The first symbol after `syms` is a new one, and the codes up to it can make a table. -/
theorem Enc.TableCodes.next {e : Enc} {syms rest : List Byte} {b : Byte} (h : e.TableCodes (syms ++ b :: rest)) :
    b ∉ syms ∧ PrefixFree e.code (syms ++ [b]) := by
  have hnodup := h.nodup
  have hfree := h.free
  rw [List.append_cons] at hnodup hfree
  exact ⟨fun hb => List.disjoint_of_nodup_append hnodup.of_append_left hb (List.mem_singleton_self b),
    fun a ha c hc => hfree a (List.mem_append_left _ ha) c (List.mem_append_left _ hc)⟩

/-- An entry as the encoder emits it is assembled to its symbol, its pattern and its length. -/
theorem Dec.parses_entryBytes {e : Enc} {b : Byte} {d : Dec} {st : NodeStore} (hd : d.AtEntry) (h32 : e.codeLen.get b ≤ 32)
    (hins : insertEntry b (e.codePat.get b) (e.codeLen.get b) d.store = .inserted st) :
    Dec.Parses (entryBytes e b) d (d.entryDone st) := by
  have hfield : BitVec.ofNat 32 (fromLE (leBytes 4 (e.codePat.get b).toNat)) = e.codePat.get b := by
    rw [fromLE_leBytes, Nat.mod_eq_of_lt (e.codePat.get b).isLt, BitVec.ofNat_toNat, BitVec.setWidth_eq]
  have hlen : (BitVec.ofNat 8 (e.codeLen.get b)).toNat = e.codeLen.get b := by
    rw [BitVec.toNat_ofNat, Nat.mod_eq_of_lt (by omega)]
  have hread : (d.withEntryRead b (e.codePat.get b) (BitVec.ofNat 8 (e.codeLen.get b))).entryDone st = d.entryDone st := by
    have hpos : { d with dpos := 0 } = d := by rw [← hd.dpos]
    have hdone := congrArg (Dec.entryDone st) hpos
    exact hdone
  refine Dec.parses_entry hd.phase hd.dpos hd.ePat (length_leBytes 4 _) ?_
  rw [hfield, ← hread]
  exact Dec.finishEntry_inserted (by rw [← hlen] at hins; exact hins)

/-- Every entry of the table is inserted, and the last one starts the payload (41_decoder.md R165, R171). -/
theorem Dec.parses_table {e : Enc} {todo syms : List Byte} {d : Dec} (hd : d.AtEntry) (hlen : d.len ≠ 0) (hne : todo ≠ [])
    (hcount : d.entDone + todo.length = d.tcount.toNat) (hholds : d.store.Holds e.code syms)
    (hcodes : e.TableCodes (syms ++ todo)) :
    ∃ st, st.Holds e.code (syms ++ todo) ∧ Dec.Parses (todo.flatMap (entryBytes e)) d (d.atPayload st) := by
  induction todo generalizing syms d with
  | nil => exact absurd rfl hne
  | cons b todo ih =>
    obtain ⟨hnew, hfree⟩ := hcodes.next
    obtain ⟨h1, h32⟩ := hcodes.len b (by simp)
    obtain ⟨st, hins, hst⟩ :=
      hholds.insertEntry_inserted hd.inv.store (hd.inv.room_for_entry hd.phase) hfree hnew h1 h32 rfl
    have hentry := Dec.parses_entryBytes hd h32 hins
    rw [List.append_cons] at hcodes ⊢
    rw [List.length_cons] at hcount
    cases todo with
    | nil =>
      rw [Dec.entryDone_payload hcount hlen] at hentry
      have hend : (d.withEntry st).enterPayload = d.atPayload st := by
        rw [Dec.atPayload, ← hcount]
        rfl
      exact ⟨st, by simpa using hst, by simpa [hend] using hentry⟩
    | cons c todo =>
      rw [List.length_cons] at hcount
      have hinv := hentry.inv hd.inv
      rw [Dec.entryDone_more (by omega)] at hentry hinv
      obtain ⟨st', hst', hparse⟩ := ih (d := d.withEntry st) ⟨hinv, hd.phase, hd.dpos, rfl⟩ hlen (List.cons_ne_nil _ _)
        (by simp only [Dec.withEntry, List.length_cons]; omega) hst hcodes
      exact ⟨st', hst', hentry.append hparse⟩

end Sys2Proof.Machine

/-! SUPPORT. The host's programs (30_encoding.md R97) while BUSY is 0: a command issued is executed, a STATUS read shows STATUS,
a drain takes the whole FIFO; and the rounds of DECOMPRESS, command by command. -/

namespace Sys2Proof.Machine

/-! ### One host operation -/

section
variable {s t : State} {α : Type}

/-- A command word written while BUSY is 0 runs its command (42_control.md R210). -/
theorem step_write_command {i : Instr} {rest : List BusOp} (hb : s.busy = false)
    (hp : s.pending = .write 0 4 (encode i) :: rest) : step s = exec i { s with pending := rest } := by
  have haction : State.busAction { s with pending := rest } (.write 0 4 (encode i)) = .run i := by
    have hword : State.dispatchWord { s with pending := rest } (encode i) = .run i := by
      simp [State.dispatchWord, hb, decode_encode]
    exact hword
  simp only [step, hp, haction]

theorem State.issue_of_idle (hb : s.busy = false) (i : Instr) : s.issue i = exec i s :=
  step_write_command (s := { s with pending := .write 0 4 (encode i) :: s.pending }) hb rfl

/-- No command sets BUSY (10_state.md R27). -/
theorem exec_keeps_idle {i : Instr} (hb : s.busy = false) (h : exec i s = .next t) : t.busy = false := by
  rcases exec_next_cases h with rfl | rfl | ⟨e, rfl⟩ | ⟨d, rfl⟩ <;> exact hb

/-- A run of commands that stops at none ran the first one, and then the others. -/
theorem execAll_cons_next {i : Instr} {is : List Instr} (h : execAll (i :: is) s = .next t) :
    ∃ u, exec i s = .next u ∧ execAll is u = .next t := by
  cases hi : exec i s with
  | next u => exact ⟨u, rfl, execAll_cons_of_next hi is ▸ h⟩
  | fault f => simp only [execAll, hi] at h; cases h
  | refused r => simp only [execAll, hi] at h; cases h

/-- The commands the host issues are those executed. -/
theorem issueAll_of_execAll {is : List Instr} (hb : s.busy = false) (h : execAll is s = .next t)
    (k : State → HostOutcome α) : issueAll is s k = k t := by
  induction is generalizing s with
  | nil => cases h; rfl
  | cons i is ih =>
    obtain ⟨u, hi, hrest⟩ := execAll_cons_next h
    rw [issueAll, State.issue_of_idle hb, hi]
    exact ih (exec_keeps_idle hb hi) hrest

/-- A state with more in the host's record of reads. -/
def State.withReads (reads : List Word) (s : State) : State :=
  { s with hostReads := s.hostReads ++ reads }

theorem readWord_status (hb : s.busy = false) (k : Word → State → HostOutcome α) :
    readWord 0x04 s k = k s.statusWord (s.withReads [s.statusWord]) := by
  have hread : s.perform (.read 0x04 4) = .next (s.withReads [s.statusWord]) :=
    step_read_plain (s := { s with pending := .read 0x04 4 :: s.pending }) rfl (r := .status) rfl (by simp [hb])
      (by decide) (by decide)
  simp only [readWord, hread, afterStep, State.withReads, List.getLastD_concat]

/-! ### Draining a FIFO -/

theorem fifoValue_cons_ne_zero (b : Byte) (bs : List Byte) : fifoValue (b :: bs) ≠ 0 := by
  obtain ⟨-, hvalid, -⟩ := fifoValue_cons_bits b bs
  intro hzero
  rw [hzero] at hvalid
  cases hvalid

theorem setWidth_fifoValue (b : Byte) (bs : List Byte) : (fifoValue (b :: bs)).setWidth 8 = b := by
  obtain ⟨hbyte, -, -⟩ := fifoValue_cons_bits b bs
  rw [BitVec.setWidth_eq_extractLsb' (by decide), hbyte]

/-- A drain of a register that reads as a FIFO and pops it gives all its bytes, oldest first. What holds of the state with
the FIFO's content, and is kept by a read, holds of the state after the drain with nothing in the FIFO. -/
theorem drainFifo_all {off : Int} (P : List Byte → State → Prop)
    (hread : ∀ bs s, P bs s →
      ∃ s', s.perform (.read off 4) = .next s' ∧ s'.hostReads.getLastD 0 = fifoValue bs ∧ P bs.tail s')
    {bs : List Byte} (hs : P bs s) :
    ∃ s', P [] s' ∧
      ∀ got (k : List Byte → State → HostOutcome α), drainFifo off (bs.length + 1) got s k = k (got ++ bs) s' := by
  induction bs generalizing s with
  | nil =>
    obtain ⟨s', hs', hvalue, hP⟩ := hread [] s hs
    refine ⟨s', hP, fun got k => ?_⟩
    rw [drainFifo, readWord, hs', afterStep, hvalue, List.append_nil]
    rfl
  | cons b bs ih =>
    obtain ⟨s', hs', hvalue, hP⟩ := hread (b :: bs) s hs
    obtain ⟨s'', hP', hdrain⟩ := ih hP
    refine ⟨s'', hP', fun got k => ?_⟩
    rw [List.length_cons, drainFifo, readWord, hs', afterStep, hvalue]
    simp only [if_neg (fifoValue_cons_ne_zero b bs), setWidth_fifoValue, hdrain, List.append_assoc, List.singleton_append]

end

theorem State.perform_read (s : State) {off : Int} {r : Reg} (hr : Reg.select off 4 = .ok r) :
    s.perform (.read off 4) = .next (s.hostRead r) :=
  step_read (s := { s with pending := .read off 4 :: s.pending }) rfl hr

/-! ### The ends of the two programs -/

/-- A state with BUSY 0, the encoder's phase `p`, and `bs` in its FIFO. -/
def State.EncHolds (p : EncPhase) (bs : List Byte) (s : State) : Prop :=
  s.busy = false ∧ s.enc.phase = p ∧ s.enc.out = bs

/-- A state with BUSY 0, the decoder's phase `p`, and `bs` in its FIFO. -/
def State.DecHolds (p : DecPhase) (bs : List Byte) (s : State) : Prop :=
  s.busy = false ∧ s.dec.phase = p ∧ s.dec.out = bs

theorem statusEncState_statusWord (s : State) : statusEncState s.statusWord = s.enc.phase.code := by
  obtain ⟨-, hphase, -⟩ := s.statusWord_codes
  exact hphase

theorem statusDecState_statusWord (s : State) : statusDecState s.statusWord = s.dec.phase.code := by
  obtain ⟨-, -, -, -, hphase, -⟩ := s.statusWord_codes
  exact hphase

theorem statusInRoom_statusWord (s : State) : statusInRoom s.statusWord = s.dec.inRoom := by
  obtain ⟨-, -, -, -, hroom, -⟩ := s.statusWord_flags
  exact hroom

theorem statusInEnd_statusWord (s : State) : statusInEnd s.statusWord = s.dec.inEnd := by
  obtain ⟨-, -, -, -, -, hend, -⟩ := s.statusWord_flags
  exact hend

/-- COMPRESS that ends in DONE hands back what ENC_OUT held. -/
theorem compressEnd_of_done {s : State} {f : List Byte} (h : s.EncHolds .done f) :
    ∃ s', compressEnd s = .next (.success f, s') ∧ s'.busy = false := by
  obtain ⟨s', ⟨hb, hp, -⟩, hdrain⟩ := drainFifo_all (α := HostResult) (State.EncHolds .done)
    (fun bs s ⟨hb, hp, hout⟩ => ⟨_, s.perform_read (off := 0x28) (r := .encOut) rfl,
      by simp [State.hostRead_encOut, hout], by rw [State.hostRead_encOut]; exact ⟨hb, hp, congrArg List.tail hout⟩⟩) h
  obtain ⟨-, -, hout⟩ := h
  refine ⟨s'.withReads [s'.statusWord], ?_, hb⟩
  rw [compressEnd, hout, hdrain, readWord_status hb, statusEncState_statusWord, hp]
  rfl

/-- DECOMPRESS that ends in DONE hands back what DEC_OUT held. -/
theorem decompressEnd_of_done {s : State} {x : List Byte} (h : s.DecHolds .done x) :
    ∃ s', decompressEnd s = .next (some (.success x), s') := by
  obtain ⟨s', ⟨hb, hp, -⟩, hdrain⟩ := drainFifo_all (α := Option HostResult) (State.DecHolds .done)
    (fun bs s ⟨hb, hp, hout⟩ => ⟨_, s.perform_read (off := 0x2C) (r := .decOut) rfl,
      by simp [State.hostRead_decOut, hout], by rw [State.hostRead_decOut]; exact ⟨hb, hp, congrArg List.tail hout⟩⟩) h
  obtain ⟨-, -, hout⟩ := h
  refine ⟨s'.withReads [s'.statusWord], ?_⟩
  rw [decompressEnd, hout, hdrain, readWord_status hb, statusDecState_statusWord, hp]
  rfl

/-! ### The rounds of DECOMPRESS -/

theorem DecPhase.code_inj {p q : DecPhase} (h : p.code = q.code) : p = q := by
  cases p <;> cases q <;> simp [DecPhase.code] at h ⊢

/-- From every state with BUSY 0 and the decoder `d`, the loop of DECOMPRESS over the bytes `f` ends in DONE with the output
`x`. -/
def Dec.Decompresses (d : Dec) (f x : List Byte) : Prop :=
  ∀ s : State, s.busy = false → s.dec = d →
    ∃ fuel s', s'.DecHolds .done x ∧ ∀ k : State → HostOutcome (Option HostResult), decompressLoop fuel f s k = k s'

namespace Dec.Decompresses

variable {d d' : Dec} {f f' x : List Byte}

theorem of_done (hp : d.phase = .done) : d.Decompresses f d.out := by
  rintro s hb rfl
  refine ⟨1, s.withReads [s.statusWord], ⟨hb, hp, rfl⟩, fun k => ?_⟩
  rw [decompressLoop, readWord_status hb, statusDecState_statusWord, hp]
  exact if_pos (.inl rfl)

/-- One round: the command chosen for the decoder's STATUS takes it to `d'`. -/
theorem round {i : Instr} (hp : d.phase ≠ .done ∧ d.phase ≠ .error)
    (hchoice : ∀ s : State, s.dec = d → decompressChoice s.statusWord f = (i, f'))
    (hexec : ∀ s : State, s.dec = d → exec i s = .next (s.withDec d')) (h : d'.Decompresses f' x) : d.Decompresses f x := by
  rintro s hb rfl
  have hrun : (s.withReads [s.statusWord]).issue i = .next ((s.withReads [s.statusWord]).withDec d') :=
    (State.issue_of_idle (s := s.withReads [s.statusWord]) hb i).trans (hexec _ rfl)
  obtain ⟨fuel, s', hend, hloop⟩ := h ((s.withReads [s.statusWord]).withDec d') hb rfl
  have hgo : ¬ (s.dec.phase.code = DecPhase.done.code ∨ s.dec.phase.code = DecPhase.error.code) :=
    fun hend => hend.elim (fun h => hp.1 (DecPhase.code_inj h)) fun h => hp.2 (DecPhase.code_inj h)
  refine ⟨fuel + 1, s', hend, fun k => ?_⟩
  rw [decompressLoop, readWord_status hb, statusDecState_statusWord, if_neg hgo, hchoice s rfl, hrun]
  exact hloop k

section
variable (h : d'.Decompresses f x)
include h

/-- Before the payload every byte is put. -/
theorem put_before {b : Byte} (hp : d.phase = .hdr ∨ d.phase = .table) (hput : d.put b = .ok d') :
    d.Decompresses (b :: f) x := by
  refine round (by rcases hp with hp | hp <;> simp [hp]) (fun s hs => ?_)
    (fun s hs => exec_decPut_of_ok (by rw [hs]; exact hput)) h
  have hcode : s.dec.phase.code ≠ DecPhase.payload.code := by
    rcases hp with hp | hp <;> rw [hs, hp] <;> decide
  rw [decompressChoice, statusDecState_statusWord, if_neg hcode]

theorem parses {bs : List Byte} (hparse : Dec.Parses bs d d') : d.Decompresses (bs ++ f) x := by
  induction hparse with
  | nil d => exact h
  | cons hp hput _ ih => exact (ih h).put_before hp hput

/-- In PAYLOAD a byte is put while there is room. -/
theorem put_room {b : Byte} (hp : d.phase = .payload) (hroom : d.inRoom = true) (hput : d.put b = .ok d') :
    d.Decompresses (b :: f) x := by
  refine round (by simp [hp]) (fun s hs => ?_) (fun s hs => exec_decPut_of_ok (by rw [hs]; exact hput)) h
  rw [decompressChoice, statusDecState_statusWord, if_pos (by rw [hs, hp]), statusInRoom_statusWord, hs, hroom]
  rfl

/-- In PAYLOAD a symbol is asked for when no byte can be put. -/
theorem next_symbol (hp : d.phase = .payload) (hstop : (f ≠ [] ∧ d.inRoom = false) ∨ (f = [] ∧ d.inEnd = true))
    (hnext : d.next = d') : d.Decompresses f x := by
  refine round (by simp [hp]) (fun s hs => ?_) (fun s hs => exec_decNext_of_eq (by rw [hs]; exact hnext)) h
  have hcode : statusDecState s.statusWord = DecPhase.payload.code := by rw [statusDecState_statusWord, hs, hp]
  rcases hstop with ⟨hne, hroom⟩ | ⟨rfl, hend⟩
  · obtain ⟨b, rest, rfl⟩ := List.exists_cons_of_ne_nil hne
    rw [decompressChoice, if_pos hcode, statusInRoom_statusWord, hs, hroom]
    rfl
  · rw [decompressChoice, if_pos hcode, statusInEnd_statusWord, hs, hend]
    rfl

end

/-- In PAYLOAD the input is ended once all of it is put. -/
theorem end_input (h : d'.Decompresses [] x) (hp : d.phase = .payload) (hend : d.inEnd = false) (hfinish : d.finish = d') :
    d.Decompresses [] x := by
  refine round (by simp [hp]) (fun s hs => ?_) (fun s hs => exec_decEnd_of_eq (by rw [hs]; exact hfinish)) h
  rw [decompressChoice, statusDecState_statusWord, if_pos (by rw [hs, hp]), statusInEnd_statusWord, hs, hend]
  rfl

end Dec.Decompresses

end Sys2Proof.Machine

/-! SUPPORT. The payload decoded (41_decoder.md R173 to R178, R181): while the decoder's bits begin with the codes of what is
still to come, DECOMPRESS's rounds give exactly those symbols. -/

namespace Sys2Proof.Machine

/-- The decoder in PAYLOAD with the code in its tree, `path` bits below the root, and the symbols `xs` still to come: their
codes begin the bits of the path, of the window and of the bytes `f` that are not yet put; the path is not yet the first code's
end. -/
structure Dec.Decoding (code : Byte → List Bool) (syms : List Byte) (path : List Bool) (f xs : List Byte) (d : Dec) :
    Prop where
  inv : d.Inv
  phase : d.phase = .payload
  holds : d.store.Holds code syms
  descend : d.store.descend 0 path = some d.cur
  rem : d.rem.toNat = xs.length
  stream : xs.flatMap code <+: path ++ windowBits d.win d.vbits ++ payloadBits f
  ahead : ∀ x ∈ xs.head?, path.length < (code x).length
  ended : d.inEnd = true → f = []

namespace Dec.Decoding

variable {code : Byte → List Bool} {syms f xs : List Byte} {path : List Bool} {x : Byte} {d : Dec}

/-! ### DEC_PUT and DEC_END -/

theorem put {b : Byte} (h : d.Decoding code syms path (b :: f) xs) (hv : d.vbits ≤ 24) :
    ∃ d', d.put b = .ok d' ∧ d'.Decoding code syms path f xs ∧ d'.vbits = d.vbits + 8 ∧ d'.inEnd = d.inEnd ∧
      d'.out = d.out := by
  have hend : d.inEnd = false := Bool.eq_false_iff.2 fun hend => by cases h.ended hend
  have hput := Dec.put_payload h.phase b
  have hinv := h.inv.put hput
  rw [Dec.winByte_of_room hend hv] at hput hinv
  refine ⟨_, hput, { h with inv := hinv, stream := ?_, ended := by simp [hend] }, rfl, rfl, rfl⟩
  have hstream := h.stream
  rw [payloadBits_cons, ← List.append_assoc, List.append_assoc path] at hstream
  rwa [windowBits_or_byte d.win b hv h.inv.win_low]

theorem endInput (h : d.Decoding code syms path [] xs) (hend : d.inEnd = false) :
    d.finish = { d with inEnd := true } ∧ Dec.Decoding code syms path [] xs { d with inEnd := true } :=
  ⟨Dec.finish_of_open (.inl h.phase) hend, { h with inv := h.inv.withFlags d.needIn true d.out, ended := fun _ => rfl }⟩

/-! ### DEC_NEXT -/

section
variable (h : d.Decoding code syms path f (x :: xs)) (hfree : PrefixFree code syms) (hx : x ∈ syms)
include h

/-- The window's bits lead on along the next symbol's code. -/
theorem path_prefix {k : Nat} (hk : k ≤ d.vbits) (hlen : path.length + k ≤ (code x).length) :
    path ++ windowBits d.win k <+: code x := by
  have hstream := h.stream
  rw [List.flatMap_cons] at hstream
  refine List.prefix_of_prefix_length_le ?_ ((List.prefix_append _ _).trans hstream) (by simpa using hlen)
  rw [windowBits_split d.win hk h.inv.vbits_le, ← List.append_assoc, List.append_assoc]
  exact List.prefix_append _ _

/-- The whole code: its bits on the path, then the window's. -/
theorem path_eq_code {k : Nat} (hk : k ≤ d.vbits) (hlen : path.length + k = (code x).length) :
    path ++ windowBits d.win k = code x :=
  (h.path_prefix hk hlen.le).eq_of_length (by rw [List.length_append, length_windowBits, hlen])

theorem descend_window (k : Nat) :
    d.store.descend 0 (path ++ windowBits d.win k) = d.store.descend d.cur (windowBits d.win k) := by
  rw [NodeStore.descend_append, h.descend]
  rfl

include hfree hx

theorem no_leaf_ahead {k : Nat} (hk : k ≤ d.vbits) (hlen : path.length + k < (code x).length) : noLeafWithin d k := by
  intro j q hj hd hleaf
  rw [← h.descend_window] at hd
  obtain ⟨hcode, -⟩ := h.holds.leaf_on_path hfree hx (h.path_prefix (hj.trans hk) (by omega)) hd hleaf
  have := congrArg List.length hcode
  rw [List.length_append, length_windowBits] at this
  omega

/-- With the whole code in the window, DEC_NEXT emits the symbol and consumes the code's bits. -/
theorem nextSymbol_of_code {k : Nat} (hk : k ≤ d.vbits) (hlen : path.length + k = (code x).length) :
    d.nextSymbol = d.emitSymbol x (d.win <<< k) (d.vbits - k) := by
  obtain ⟨i, hd, hleaf, hsym⟩ := h.holds.leaf_at_code hx
  rw [← h.path_eq_code hk hlen, h.descend_window] at hd
  have hno : ∀ j < k, noLeafWithin d j := fun j hj => h.no_leaf_ahead hfree hx (by omega) (by omega)
  rw [Dec.nextSymbol_of_leaf h.inv.vbits_le hk hno hd hleaf, hsym]

/-- After a symbol the decoder is done, or it goes on with the next one from the root. -/
theorem emitted (hne : ∀ y ∈ xs, code y ≠ []) {k : Nat} (hk : k ≤ d.vbits) (hlen : path.length + k = (code x).length) :
    d.next.out = d.out ++ [x] ∧ (xs = [] ∧ d.next.phase = .done ∨
      xs ≠ [] ∧ d.next.Decoding code syms [] f xs ∧ d.next.vbits = d.vbits - k ∧ d.next.inEnd = d.inEnd) := by
  have hinv := h.inv.next
  have hpos := (h.inv.rem_payload h.phase).1
  have hrem : (d.rem - 1).toNat = xs.length := by
    rw [BitVec.toNat_sub_of_le hpos, h.rem, List.length_cons]
    rfl
  rw [Dec.next_payload h.phase, h.nextSymbol_of_code hfree hx hk hlen] at hinv ⊢
  rcases d.emitSymbol_cases x (d.win <<< k) (d.vbits - k) with ⟨hmore, heq⟩ | ⟨hlast, heq⟩ <;> rw [heq] at hinv ⊢
  · have hxs : xs ≠ [] := fun hnil => hmore (BitVec.eq_of_toNat_eq (by rw [hrem, hnil]; rfl))
    have hstream := h.stream
    rw [List.flatMap_cons, windowBits_split d.win hk h.inv.vbits_le, ← List.append_assoc, h.path_eq_code hk hlen,
      List.append_assoc, List.prefix_append_right_inj] at hstream
    refine ⟨rfl, .inr ⟨hxs, ⟨hinv, h.phase, h.holds, rfl, hrem, hstream, fun y hy => ?_, h.ended⟩, rfl, rfl⟩⟩
    exact List.length_pos_iff.2 (hne y (List.mem_of_mem_head? hy))
  · have hxs : xs = [] := List.length_eq_zero_iff.1 (by rw [← hrem, hlast]; rfl)
    exact ⟨rfl, .inl ⟨hxs, rfl⟩⟩

/-- With less than the whole code in the window, DEC_NEXT takes all of it and stops on the code's path; bytes are left to put. -/
theorem starved (hlen : path.length + d.vbits < (code x).length) :
    f ≠ [] ∧ d.next.Decoding code syms (path ++ windowBits d.win d.vbits) f (x :: xs) ∧ d.next.vbits = 0 ∧
      d.next.inEnd = d.inEnd ∧ d.next.out = d.out := by
  have hpath := h.path_prefix (le_refl _) hlen.le
  obtain ⟨i, hi⟩ := h.holds.descend_prefix hx hpath
  have hd := hi
  rw [h.descend_window] at hd
  have hf : f ≠ [] := by
    rintro rfl
    have hstream := (List.prefix_append _ _).trans (List.flatMap_cons ▸ h.stream)
    have := hstream.length_le
    simp only [payloadBits_nil, List.append_nil, List.length_append, length_windowBits] at this
    omega
  have hopen : d.inEnd = false := Bool.eq_false_iff.2 fun hend => hf (h.ended hend)
  have hinv := h.inv.next
  rw [Dec.next_payload h.phase,
    Dec.nextSymbol_of_starved h.inv.vbits_le (h.no_leaf_ahead hfree hx (le_refl _) hlen) hd] at hinv ⊢
  rcases d.starve_cases (d.win <<< d.vbits) i with ⟨hend, -⟩ | ⟨-, heq⟩
  · rw [hopen] at hend
    cases hend
  · rw [heq] at hinv ⊢
    refine ⟨hf, ⟨hinv, h.phase, h.holds, hi, h.rem, ?_, fun y hy => ?_, h.ended⟩, rfl, rfl, rfl⟩
    · simpa [windowBits_zero] using h.stream
    · obtain rfl := Option.some.inj hy
      rwa [List.length_append, length_windowBits]

end

/-! ### The rounds -/

/-- What is left to do: symbols to emit, bytes to put, window bits to take, the input to end. Each round lowers it. -/
def workLeft (f xs : List Byte) (d : Dec) : Nat :=
  xs.length + 9 * f.length + d.vbits + if d.inEnd then 0 else 1

/-- A DEC_NEXT that is not wasted on an empty window gives the last symbol, or leaves less to do. -/
theorem next_progress (h : d.Decoding code syms path f (x :: xs)) (hfree : PrefixFree code syms)
    (hne : ∀ y ∈ syms, code y ≠ []) (hx : x ∈ syms) (hxs : ∀ y ∈ xs, y ∈ syms) (hv : f ≠ [] → 0 < d.vbits) :
    (d.next.phase = .done ∧ d.next.out = d.out ++ x :: xs) ∨
    ∃ path' xs', d.next.Decoding code syms path' f xs' ∧ (∀ y ∈ xs', y ∈ syms) ∧ d.next.out ++ xs' = d.out ++ x :: xs ∧
      workLeft f xs' d.next < workLeft f (x :: xs) d := by
  by_cases hlen : path.length + d.vbits < (code x).length
  · obtain ⟨hf, hdec, hv', hend, hout⟩ := h.starved hfree hx hlen
    have hpos := hv hf
    refine .inr ⟨_, _, hdec, List.forall_mem_cons.2 ⟨hx, hxs⟩, by rw [hout], ?_⟩
    simp only [workLeft, hv', hend]
    omega
  · have hahead := h.ahead x rfl
    obtain ⟨hout, ⟨rfl, hp⟩ | ⟨-, hdec, hv', hend⟩⟩ :=
      h.emitted hfree hx (fun y hy => hne y (hxs y hy)) (k := (code x).length - path.length) (by omega) (by omega)
    · exact .inl ⟨hp, hout⟩
    · refine .inr ⟨_, _, hdec, hxs, by rw [hout, List.append_assoc, List.singleton_append], ?_⟩
      simp only [workLeft, hv', hend, List.length_cons]
      omega

/-- DECOMPRESS gives the symbols to come (41_decoder.md R181). -/
theorem decompresses (h : d.Decoding code syms path f xs) (hfree : PrefixFree code syms) (hne : ∀ y ∈ syms, code y ≠ [])
    (hxs : ∀ y ∈ xs, y ∈ syms) : d.Decompresses f (d.out ++ xs) := by
  induction hwork : workLeft f xs d using Nat.strong_induction_on generalizing path f xs d with
  | _ n ih =>
    subst hwork
    have hnext (hstop : (f ≠ [] ∧ d.inRoom = false) ∨ (f = [] ∧ d.inEnd = true)) (hv : f ≠ [] → 0 < d.vbits) :
        d.Decompresses f (d.out ++ xs) := by
      obtain ⟨x, xs, rfl⟩ : ∃ y ys, xs = y :: ys := List.exists_cons_of_length_pos (h.rem ▸ (h.inv.rem_payload h.phase).1)
      obtain ⟨hx, hxs⟩ := List.forall_mem_cons.1 hxs
      refine Dec.Decompresses.next_symbol ?_ h.phase hstop rfl
      rcases h.next_progress hfree hne hx hxs hv with ⟨hp, hout⟩ | ⟨path', xs', hdec, hxs', hout, hless⟩
      · exact hout ▸ Dec.Decompresses.of_done hp
      · exact hout ▸ ih _ hless hdec hxs' rfl
    cases f with
    | nil =>
      cases hend : d.inEnd with
      | true => exact hnext (.inr ⟨rfl, hend⟩) fun hf => absurd rfl hf
      | false =>
        obtain ⟨hfinish, hdec⟩ := h.endInput hend
        have hless : workLeft [] xs { d with inEnd := true } < workLeft [] xs d := by simp [workLeft, hend]
        have hrest := ih _ hless hdec hxs rfl
        exact hrest.end_input h.phase hend hfinish
    | cons b f =>
      have hopen : d.inEnd = false := Bool.eq_false_iff.2 fun hend => by cases h.ended hend
      by_cases hv : d.vbits ≤ 24
      · obtain ⟨d', hput, hdec, hv', hend, hout⟩ := h.put hv
        have hroom : d.inRoom = true := d.inRoom_iff.2 (.inr (.inl ⟨h.phase, hopen, hv⟩))
        have hless : workLeft f xs d' < workLeft (b :: f) xs d := by
          simp only [workLeft, hv', hend, List.length_cons]
          omega
        exact .put_room (hout ▸ ih _ hless hdec hxs rfl) h.phase hroom hput
      · have hfull : d.inRoom = false := by simp [Dec.inRoom, h.phase, hv]
        exact hnext (.inl ⟨List.cons_ne_nil _ _, hfull⟩) fun _ => by omega

end Dec.Decoding

end Sys2Proof.Machine

/-! SUPPORT. COMPRESS and then DECOMPRESS (30_encoding.md R97, 41_decoder.md R181): the encoder after ENC_BUILD, the stream it
makes, the decoder on that stream, and the round trip settled. -/

namespace Sys2Proof.Machine

/-! ### The encoder after ENC_BUILD -/

/-- The encoder at the start of pass 2 over `x` (40_encoder.md R114): the symbols of `x` have codes of
which none begins another, and the header is all that was emitted. -/
structure Enc.ReadyFor (x : List Byte) (e : Enc) : Prop where
  inv : e.Inv
  phase : e.phase = .encode
  putCnt : e.putCnt = 0
  packer : e.packer = ⟨0, 0⟩
  len : e.encLen.toNat = x.length
  coded : ∀ b, b ∈ codedSymbols e ↔ b ∈ x
  free : PrefixFree e.code (codedSymbols e)
  out : e.out = headerBytes e

theorem mem_codedSymbols {e : Enc} {b : Byte} : b ∈ codedSymbols e ↔ 0 < e.codeLen.get b := by
  simp [codedSymbols]

/-- No code is empty. -/
theorem Enc.code_ne_nil {e : Enc} : ∀ b ∈ codedSymbols e, e.code b ≠ [] := fun b hb hnil => by
  have hzero := congrArg List.length hnil
  rw [Enc.code, length_bitsOf] at hzero
  exact Nat.ne_of_gt (mem_codedSymbols.1 hb) hzero

theorem nodup_codedSymbols (e : Enc) : (codedSymbols e).Nodup :=
  nodup_allSymbols.filter _

/-- ENC_BUILD in COUNT begins pass 2, or finds a code too long (40_encoder.md R114, R122). -/
theorem Enc.build_of_count {e e' : Enc} (hp : e.phase = .count) (h : e.build = .ok e') :
    e'.phase = .encode ∨ e' = e.raise .codeTooLong := by
  simp only [Enc.build, hp, Enc.buildTable] at h
  split at h
  · cases h
    exact .inl rfl
  · split at h
    · cases h
      unfold Enc.buildFrom
      split
      · exact .inr rfl
      · exact .inl rfl
    · cases h

theorem State.Inv.of_execAll {is : List Instr} {s t : State} (h : s.Inv) (hs : execAll is s = .next t) : t.Inv := by
  induction is generalizing s with
  | nil => cases hs; exact h
  | cons i is ih =>
    obtain ⟨u, hi, hrest⟩ := execAll_cons_next hs
    exact ih (h.of_exec hi) hrest

section
variable {x : List Byte} (hx : x.length ≤ Config.lenMax)
include hx

theorem execAll_encInit_encCounts (s : State) :
    execAll (.encInit :: encCounts x) s = .next (s.withEnc (Enc.reset.counted x)) :=
  execAll_encCounts x (s.withEnc Enc.reset) rfl ((Nat.zero_add _).trans_le hx)

theorem Enc.Inv.counted_reset : (Enc.reset.counted x).Inv :=
  (State.Inv.reset.of_execAll (execAll_encInit_encCounts hx State.reset)).enc

theorem toNat_encLen_counted_reset : (Enc.reset.counted x).encLen.toNat = x.length := by
  have hlen : (Enc.reset.counted x).encLen = BitVec.ofNat 64 x.length := BitVec.zero_add _
  simp only [Config.lenMax] at hx
  rw [hlen, BitVec.toNat_ofNat, Nat.mod_eq_of_lt (by omega)]

theorem countedReset_freq_ne_zero {b : Byte} : (Enc.reset.counted x).freq.get b ≠ 0 ↔ b ∈ x :=
  mem_presentSymbols.symm.trans (mem_presentSymbols_countInto hx b)

section
variable {e : Enc} (hbuild : (Enc.reset.counted x).build = .ok e) (hp : e.phase = .encode)
include hbuild hp

/-- After ENC_BUILD exactly the symbols of the input have a code. -/
theorem mem_codedSymbols_built (b : Byte) : b ∈ codedSymbols e ↔ b ∈ x := by
  have hcoded := ((Enc.Inv.counted_reset hx).build hbuild).coded_iff (.inl hp) b
  rw [mem_codedSymbols, Nat.pos_iff_ne_zero, Ne, hcoded, Enc.build_freq hbuild]
  exact countedReset_freq_ne_zero hx

theorem prefixFree_built : PrefixFree e.code (codedSymbols e) := by
  have hmem := mem_codedSymbols_built hx hbuild hp
  intro a ha b hb hprefix
  by_contra hne
  have hlen : (Enc.reset.counted x).encLen ≠ 0 := fun hzero => by
    have hlength := toNat_encLen_counted_reset hx
    rw [hzero] at hlength
    exact List.ne_nil_of_mem ((hmem a).1 ha) (List.length_eq_zero_iff.1 hlength.symm)
  exact codesArePrefixFree (State.reset.withEnc (Enc.reset.counted x)) _ rfl hlen (exec_encBuild_of_ok hbuild) hp a b hne
    ((countedReset_freq_ne_zero hx).2 ((hmem a).1 ha)) ((countedReset_freq_ne_zero hx).2 ((hmem b).1 hb)) hprefix

/-- An ENC_BUILD that reaches ENCODE leaves the encoder ready for pass 2. -/
theorem Enc.readyFor_built : Enc.ReadyFor x e := by
  have hinv := (Enc.Inv.counted_reset hx).build hbuild
  have hmem := mem_codedSymbols_built hx hbuild hp
  have hfree := prefixFree_built hx hbuild hp
  have hlen := toNat_encLen_counted_reset hx
  rcases Enc.build_cases hbuild with rfl | ⟨c, -, rfl⟩ | ⟨-, hzero, rfl⟩ | ⟨-, root, -, -, rfl⟩
  · cases hp
  · cases hp
  · refine ⟨hinv, hp, rfl, rfl, hlen, hmem, hfree, ?_⟩
    have hnil : codedSymbols ((Enc.reset.counted x).emit (List.replicate Config.hdrBytes 0)).enterEncode = [] := by
      rw [hzero] at hlen
      obtain rfl := List.length_eq_zero_iff.1 hlen.symm
      exact List.eq_nil_iff_forall_not_mem.2 fun b hb => List.not_mem_nil ((hmem b).1 hb)
    have hheader : headerBytes ((Enc.reset.counted x).emit (List.replicate Config.hdrBytes 0)).enterEncode =
        leBytes 8 (0 : DWord).toNat ++ leBytes 4 0 := by
      rw [headerBytes, hnil, ← hzero]
      exact List.append_nil _
    rw [hheader]
    rfl
  · exact ⟨hinv, hp, rfl, rfl, hlen, hmem, hfree, rfl⟩

end

/-- ENC_INIT, the counts and ENC_BUILD make the encoder ready for pass 2, unless a code is too long. -/
theorem exists_readyFor (s : State)
    (hfits : ∀ t, execAll (.encInit :: encCounts x ++ [.encBuild]) s = .next t → t.enc.err ≠ .codeTooLong) :
    ∃ e, Enc.ReadyFor x e ∧ execAll (.encInit :: encCounts x ++ [.encBuild]) s = .next (s.withEnc e) := by
  cases hbuild : (Enc.reset.counted x).build with
  | error f => exact absurd hbuild ((Enc.Inv.counted_reset hx).build_ne_error f)
  | ok e =>
    have hrun : execAll (.encInit :: encCounts x ++ [.encBuild]) s = .next (s.withEnc e) := by
      rw [execAll_append_of_next (execAll_encInit_encCounts hx s),
        execAll_cons_of_next (exec_encBuild_of_ok (s := s.withEnc (Enc.reset.counted x)) hbuild)]
      rfl
    refine ⟨e, Enc.readyFor_built hx hbuild ?_, hrun⟩
    exact (Enc.build_of_count rfl hbuild).resolve_right fun hlong => hfits _ hrun (by rw [hlong]; rfl)

end

/-! ### The stream COMPRESS makes -/

/-- Pass 2 ends in DONE, with the header and the codes of the input in ENC_OUT (40_encoder.md R128). -/
theorem Enc.ReadyFor.pass_two {x : List Byte} {s : State} (hb : s.busy = false) (he : s.enc.ReadyFor x) :
    ∃ bytes t, execAll (encPuts x ++ [.encFinish]) s = .next t ∧ t.EncHolds .done (headerBytes s.enc ++ bytes) ∧
      x.flatMap s.enc.code <+: payloadBits bytes := by
  obtain ⟨hacc, hlive⟩ : s.enc.acc = 0 ∧ s.enc.live = 0 := by simpa [Enc.packer] using he.packer
  obtain ⟨bytes, hexec, hbits⟩ := packedOutputIsTheConcatenatedCodes s x he.phase he.putCnt hacc hlive he.len.symm
    fun b hb => ⟨mem_codedSymbols.1 ((he.coded b).2 hb), he.inv.code_len_le b, he.inv.code_pat_lt b⟩
  exact ⟨bytes, _, hexec, ⟨hb, rfl, congrArg (· ++ bytes) he.out⟩, hbits ▸ List.prefix_append _ _⟩

/-- COMPRESS hands back the header and the codes of the input, and leaves BUSY 0 (30_encoding.md R97). -/
theorem compress_of_readyFor {x : List Byte} {s : State} {e : Enc} (hb : s.busy = false) (he : e.ReadyFor x)
    (hrun : execAll (.encInit :: encCounts x ++ [.encBuild]) s = .next (s.withEnc e)) :
    ∃ bytes s', compress x s = .next (.success (headerBytes e ++ bytes), s') ∧ s'.busy = false ∧
      x.flatMap e.code <+: payloadBits bytes := by
  obtain ⟨bytes, t, hexec, ht, hbits⟩ :=
    Enc.ReadyFor.pass_two (s := (s.withEnc e).withReads [(s.withEnc e).statusWord]) hb he
  obtain ⟨s', hend, hb'⟩ := compressEnd_of_done ht
  have hgo : (s.withEnc e).enc.phase.code ≠ EncPhase.error.code := by rw [State.withEnc_enc, he.phase]; decide
  refine ⟨bytes, s', ?_, hb', hbits⟩
  rw [compress, issueAll_of_execAll hb hrun, readWord_status (by exact hb), statusEncState_statusWord, if_neg hgo]
  exact (issueAll_of_execAll (by exact hb) hexec compressEnd).trans hend

/-! ### The decoder on that stream -/

/-- The decoder with the encoder's two header fields, before their checks. -/
def Dec.withFields (e : Enc) (d : Dec) : Dec :=
  { d with len := e.encLen, tcount := BitVec.ofNat 32 (codedSymbols e).length, dpos := 0 }

theorem Dec.parses_fields (e : Enc) :
    Dec.Parses (leBytes 8 e.encLen.toNat ++ leBytes 4 (codedSymbols e).length) Dec.reset
      (Dec.reset.withFields e).headerDone := by
  have hfields : Dec.reset.withHeader (leBytes 8 e.encLen.toNat ++ leBytes 4 (codedSymbols e).length) =
      Dec.reset.withFields e := by
    have hmax := length_codedSymbols_le e
    rw [Dec.withHeader, List.take_left' (length_leBytes 8 _), List.drop_left' (length_leBytes 8 _), fromLE_leBytes,
      fromLE_leBytes, Nat.mod_eq_of_lt e.encLen.isLt, Nat.mod_eq_of_lt (by omega), BitVec.ofNat_toNat, BitVec.setWidth_eq]
    rfl
  rw [← hfields]
  exact Dec.parses_header rfl rfl rfl rfl (by simp)

theorem s64_nonneg {v : DWord} (h : v.toNat ≤ Config.lenMax) : 0 ≤ s64 v := by
  simp only [Config.lenMax] at h
  rw [s64, if_pos (by omega)]
  exact Int.natCast_nonneg _

section
variable {x : List Byte} {e : Enc} (he : e.ReadyFor x)
include he

theorem Enc.ReadyFor.tableCodes : e.TableCodes (codedSymbols e) :=
  ⟨he.free, nodup_codedSymbols e, fun b hb => ⟨mem_codedSymbols.1 hb, he.inv.code_len_le b⟩⟩

/-- The header of the empty input ends the stream (30_encoding.md R94). -/
theorem Enc.ReadyFor.headerDone_of_nil (hx : x = []) :
    (Dec.reset.withFields e).headerDone = { Dec.reset.withFields e with phase := .done } := by
  have hnil : codedSymbols e = [] :=
    List.eq_nil_iff_forall_not_mem.2 fun b hb => List.not_mem_nil (hx ▸ (he.coded b).1 hb)
  have hlen : e.encLen = 0 := BitVec.eq_of_toNat_eq (by rw [he.len, hx]; rfl)
  exact Dec.headerDone_empty hlen (by rw [Dec.withFields, hnil]; rfl)

/-- The header and the table of an input that is not empty are accepted (41_decoder.md R164, R171). -/
theorem Enc.ReadyFor.parses_header (hx : x ≠ []) :
    ∃ st, st.Holds e.code (codedSymbols e) ∧
      Dec.Parses (headerBytes e) Dec.reset (Dec.atPayload st (Dec.reset.withFields e)) := by
  obtain ⟨b, hb⟩ := List.exists_mem_of_ne_nil x hx
  have hpos := List.length_pos_of_mem ((he.coded b).2 hb)
  have hmax := length_codedSymbols_le e
  have hcount : (Dec.reset.withFields e).tcount.toNat = (codedSymbols e).length := by
    rw [Dec.withFields, BitVec.toNat_ofNat, Nat.mod_eq_of_lt (by omega)]
  have hlen : e.encLen ≠ 0 := fun hzero => hx (List.length_eq_zero_iff.1 (by rw [← he.len, hzero]; rfl))
  have hfields := Dec.parses_fields e
  have hinv := hfields.inv .reset
  rw [Dec.headerDone_table (d := Dec.reset.withFields e) (s64_nonneg he.inv.len_le)
    (fun hzero => by rw [hzero] at hcount; exact absurd hcount (Nat.ne_of_lt hpos)) (hcount.trans_le hmax)] at hfields hinv
  obtain ⟨st, hst, hparse⟩ := Dec.parses_table (syms := []) ⟨hinv, rfl, rfl, rfl⟩ hlen (List.ne_nil_of_length_pos hpos)
    ((Nat.zero_add _).trans hcount.symm) (.empty e.code) he.tableCodes
  exact ⟨st, hst, hfields.append hparse⟩

/-- DECOMPRESS of the stream gives the input back (41_decoder.md R181). -/
theorem Enc.ReadyFor.decompresses {bytes : List Byte} (hbytes : x.flatMap e.code <+: payloadBits bytes) :
    Dec.reset.Decompresses (headerBytes e ++ bytes) x := by
  by_cases hx : x = []
  · have hfields := Dec.parses_fields e
    rw [he.headerDone_of_nil hx] at hfields
    rw [headerBytes, List.append_assoc, hx]
    exact .parses (.of_done rfl) hfields
  · obtain ⟨st, hst, hparse⟩ := he.parses_header hx
    have hstart : Dec.Decoding e.code (codedSymbols e) [] bytes x (Dec.atPayload st (Dec.reset.withFields e)) :=
      ⟨hparse.inv .reset, rfl, hst, rfl, he.len, hbytes,
        fun y hy => List.length_pos_iff.2 (Enc.code_ne_nil y ((he.coded y).2 (List.mem_of_mem_head? hy))), nofun⟩
    exact .parses (hstart.decompresses he.free Enc.code_ne_nil fun y hy => (he.coded y).2 hy) hparse

end

/-- Settles O60: COMPRESS's stream is the header and the codes of `x`, none of which begins another, and the decoder follows
them. -/
theorem decompressReturnsWhatCompressTook : Obligations.DecompressReturnsWhatCompressTook := by
  unfold Obligations.DecompressReturnsWhatCompressTook
  intro x s hb hx hfits
  obtain ⟨e, he, hrun⟩ := exists_readyFor hx s hfits
  obtain ⟨bytes, s', hcompress, hb', hbytes⟩ := compress_of_readyFor hb he hrun
  obtain ⟨fuel, s'', hend, hloop⟩ := he.decompresses hbytes (s'.withDec Dec.reset) hb' rfl
  obtain ⟨s''', hdone⟩ := decompressEnd_of_done hend
  refine ⟨_, s', hcompress, fuel, s''', ?_⟩
  rw [decompress, State.issue_of_idle hb']
  exact (hloop decompressEnd).trans hdone

end Sys2Proof.Machine

/-! SUPPORT. The block's control, settled (42_control.md): dispatch of a word written to CMD (R210), NOP (R211), CLRERR (R212). -/

namespace Sys2Proof.Machine

/-- The four lanes of a word are read as that word (30_encoding.md R85). -/
theorem decodeBytes_lanes (w : Word) : decodeBytes (lanes w) = decode w := by
  have hlane : ∀ start len, w.extractLsb' (start + 8) len ++ w.extractLsb' start 8 = w.extractLsb' start (len + 8) :=
    fun _ _ => BitVec.extractLsb'_append_extractLsb'_eq_extractLsb' rfl
  have hword : w.extractLsb' 24 8 ++ w.extractLsb' 16 8 ++ w.extractLsb' 8 8 ++ w.extractLsb' 0 8 = w := by
    rw [hlane 16 8, hlane 8 16, hlane 0 24, BitVec.extractLsb'_eq_self]
  rw [lanes, decodeBytes, hword]

theorem decode_of_decodeTableWord {nbits w : Nat} {i : Instr} (h : decodeTableWord nbits w = some i) :
    decode (BitVec.ofNat 32 (w % 2 ^ nbits)) = .ok i := by
  rw [decodeTableWord, decodeBytes_lanes] at h
  cases hd : decode (BitVec.ofNat 32 (w % 2 ^ nbits)) with
  | ok j => rw [hd] at h; exact congrArg Except.ok (Option.some.inj h)
  | error r => rw [hd] at h; cases h

theorem step_write_of_decode {s : State} {w : Word} {i : Instr} {rest : List BusOp} (hb : s.busy = false)
    (hp : s.pending = .write 0 4 w :: rest) (hw : decode w = .ok i) : step s = exec i { s with pending := rest } :=
  step_write_command hb (decode_eq_ok_iff_encode.1 hw ▸ hp)

theorem step_of_pending_nil {s : State} (hp : s.pending = []) : step s = .next s := by
  simp only [step, hp]

/-- Settles O6: the word written is the encoder's word of the command it decodes to. -/
theorem stepRunsTheDecodedCommand : Obligations.StepRunsTheDecodedCommand := by
  unfold Obligations.StepRunsTheDecodedCommand
  refine ⟨fun s rest w i => step_write_of_decode, fun s nbits w i hw => ?_, fun s => step_of_pending_nil⟩
  exact step_write_of_decode (s := s.withFetchWord nbits w) rfl rfl (decode_of_decodeTableWord hw)

/-- STATUS after reset: of all its fields only DEC_IN_ROOM is not 0 (10_state.md R25, R26). -/
theorem statusWord_reset : State.reset.statusWord = 0x00200000#32 := by
  decide

/-- Settles O19: NOP's fields are all 0, and it answers the state it is given. -/
theorem nopChangesNothing : Obligations.NopChangesNothing := by
  unfold Obligations.NopChangesNothing
  exact ⟨rfl, fun _ => rfl, statusWord_reset⟩

/-- CLRERR undoes a command error raised where there was none. -/
theorem State.clearCmd_raiseCmd {s : State} (herr : s.cmdErr = false) (hcause : s.cmdCause = .none) (c : CmdCause) :
    (s.raiseCmd c).clearCmd = s := by
  obtain ⟨enc, dec, busy, cmdErr, cmdCause, pending, hostReads, draws⟩ := s
  obtain rfl : cmdErr = false := herr
  obtain rfl : cmdCause = .none := hcause
  rfl

theorem run_succ_of_step {s t : State} (h : step s = .next t) (k : Nat) :
    Host.Core.run Sys2Proof.core (k + 1) s = Host.Core.run Sys2Proof.core k t := by
  have hstep : Sys2Proof.core.step s = .next t := h
  simp only [Host.Core.run, hstep]

/-- Settles O20: CLRERR takes back what the illegal word raised. -/
theorem clrerrClearsTheCommandError : Obligations.ClrerrClearsTheCommandError := by
  unfold Obligations.ClrerrClearsTheCommandError
  refine ⟨rfl, fun _ => rfl, State.reset, ?_, statusWord_reset⟩
  have hillegal : ¬ legalByR82 0xFF000000#32 := fun ⟨hop, _, _⟩ => op_not_reserved_of_listed _ hop (by decide)
  rw [run_succ_of_step (step_write_illegal rfl rfl hillegal),
    run_succ_of_step (step_write_command (i := .clrerr) rfl rfl)]
  exact congrArg Host.Outcome.next (State.clearCmd_raiseCmd (s := State.reset) rfl rfl .illegal)

end Sys2Proof.Machine

/-! SUPPORT. The two engines as parts of the state (60_exceptions.md R235, 00_scope.md R11): what a command makes of one engine
is a function of that engine alone, and only the engine's own commands change it. -/

namespace Sys2Proof.Machine

/-! ### A command on one engine -/

/-- What a command makes of the encoder (40_encoder.md); a command of the block or of the decoder leaves it. -/
def Enc.run : Instr → Enc → Except Fault Enc
  | .encInit, e => .ok e.init
  | .encCount b, e => .ok (e.count b)
  | .encBuild, e => e.build
  | .encPut b, e => .ok (e.put b)
  | .encFinish, e => .ok e.finish
  | _, e => .ok e

/-- What a command makes of the decoder (41_decoder.md); a command of the block or of the encoder leaves it. -/
def Dec.run : Instr → Dec → Except Fault Dec
  | .decInit, d => .ok d.init
  | .decPut b, d => d.put b
  | .decNext, d => .ok d.next
  | .decEnd, d => .ok d.finish
  | _, d => .ok d

section
variable {i : Instr} {s t : State}

theorem Enc.run_of_exec (h : exec i s = .next t) : s.enc.run i = .ok t.enc := by
  cases i with
  | encBuild =>
    obtain ⟨e, he, rfl⟩ := exec_encBuild_next h
    exact he
  | decPut b =>
    obtain ⟨d, -, rfl⟩ := exec_decPut_next h
    rfl
  | _ => cases h; rfl

theorem Dec.run_of_exec (h : exec i s = .next t) : s.dec.run i = .ok t.dec := by
  cases i with
  | encBuild =>
    obtain ⟨e, -, rfl⟩ := exec_encBuild_next h
    rfl
  | decPut b =>
    obtain ⟨d, hd, rfl⟩ := exec_decPut_next h
    exact hd
  | _ => cases h; rfl

theorem exec_of_enc_run {e : Enc} (hi : isEncCommand i = true) (h : s.enc.run i = .ok e) :
    exec i s = .next (s.withEnc e) := by
  cases i with
  | encBuild => exact exec_encBuild_of_ok h
  | encInit | encCount _ | encPut _ | encFinish => cases h; rfl
  | nop | clrerr | decInit | decPut _ | decNext | decEnd => cases hi

theorem exec_of_dec_run {d : Dec} (hi : isDecCommand i = true) (h : s.dec.run i = .ok d) :
    exec i s = .next (s.withDec d) := by
  cases i with
  | decPut _ => exact exec_decPut_of_ok h
  | decInit | decNext | decEnd => cases h; rfl
  | nop | clrerr | encInit | encCount _ | encBuild | encPut _ | encFinish => cases hi

theorem Enc.run_of_not_enc (hi : isEncCommand i = false) (e : Enc) : e.run i = .ok e := by
  cases i with
  | encInit | encCount _ | encBuild | encPut _ | encFinish => cases hi
  | nop | clrerr | decInit | decPut _ | decNext | decEnd => rfl

theorem Dec.run_of_not_dec (hi : isDecCommand i = false) (d : Dec) : d.run i = .ok d := by
  cases i with
  | decInit | decPut _ | decNext | decEnd => cases hi
  | nop | clrerr | encInit | encCount _ | encBuild | encPut _ | encFinish => rfl

end

/-! ### An engine -/

/-- An engine of the block: its commands, its part of the state, and what a command makes of that part. The laws say that the
part can be replaced alone, that every command which runs acts on the part as `run` says, and that the engine's own commands
depend on the part and write it, and nothing else. -/
structure Engine (α : Type) where
  owns : Instr → Bool
  part : State → α
  withPart : α → State → State
  run : Instr → α → Except Fault α
  part_withPart : ∀ a s, part (withPart a s) = a
  withPart_part : ∀ s, withPart (part s) s = s
  withPart_withPart : ∀ a b s, withPart a (withPart b s) = withPart a s
  run_of_exec : ∀ {i s t}, exec i s = .next t → run i (part s) = .ok (part t)
  exec_of_run : ∀ {i s a}, owns i = true → run i (part s) = .ok a → exec i s = .next (withPart a s)
  run_of_other : ∀ {i} a, owns i = false → run i a = .ok a

/-- ENC (60_exceptions.md R235). -/
def encEngine : Engine Enc where
  owns := isEncCommand
  part := State.enc
  withPart := State.withEnc
  run := Enc.run
  part_withPart _ _ := rfl
  withPart_part _ := rfl
  withPart_withPart _ _ _ := rfl
  run_of_exec := Enc.run_of_exec
  exec_of_run := exec_of_enc_run
  run_of_other e hi := Enc.run_of_not_enc hi e

/-- DEC (60_exceptions.md R235). -/
def decEngine : Engine Dec where
  owns := isDecCommand
  part := State.dec
  withPart := State.withDec
  run := Dec.run
  part_withPart _ _ := rfl
  withPart_part _ := rfl
  withPart_withPart _ _ _ := rfl
  run_of_exec := Dec.run_of_exec
  exec_of_run := exec_of_dec_run
  run_of_other d hi := Dec.run_of_not_dec hi d

namespace Engine
variable {α : Type} (E : Engine α) {i : Instr} {s t u : State}

theorem part_of_other (hi : E.owns i = false) (h : exec i s = .next t) : E.part t = E.part s :=
  Except.ok.inj ((E.run_of_exec h).symm.trans (E.run_of_other _ hi))

/-- A command of the engine does the same to its part in every state that has the same part. -/
theorem exec_of_part_eq (hi : E.owns i = true) (h : exec i s = .next t) (hu : E.part u = E.part s) :
    exec i u = .next (E.withPart (E.part t) u) :=
  E.exec_of_run hi (hu ▸ E.run_of_exec h)

theorem eq_withPart_of_owns (hi : E.owns i = true) (h : exec i s = .next t) : t = E.withPart (E.part t) s :=
  Host.Outcome.next.inj (h.symm.trans (E.exec_of_part_eq hi h rfl))

/-- A command that changes the engine's part changes nothing else. -/
theorem eq_withPart_of_ne (h : exec i s = .next t) (hne : E.part t ≠ E.part s) : t = E.withPart (E.part t) s := by
  cases hi : E.owns i with
  | false => exact absurd (E.part_of_other hi h) hne
  | true => exact E.eq_withPart_of_owns hi h

/-- The engine's own commands of a list, run from any state with the same part, take that part where the whole list takes it. -/
theorem execAll_filter_owns {is : List Instr} (h : execAll is s = .next t) (hu : E.part u = E.part s) :
    execAll (is.filter E.owns) u = .next (E.withPart (E.part t) u) := by
  induction is generalizing s u with
  | nil =>
    cases h
    rw [← hu, E.withPart_part]
    rfl
  | cons i is ih =>
    obtain ⟨v, hi, hrest⟩ := execAll_cons_next h
    cases howns : E.owns i with
    | false =>
      rw [List.filter_cons_of_neg (by simp [howns])]
      exact ih hrest (hu.trans (E.part_of_other howns hi).symm)
    | true =>
      have hrun := ih (u := E.withPart (E.part v) u) hrest (E.part_withPart _ _)
      rw [E.withPart_withPart] at hrun
      rw [List.filter_cons_of_pos howns, execAll_cons_of_next (E.exec_of_part_eq howns hi hu), hrun]

end Engine

end Sys2Proof.Machine

/-! SUPPORT. Entering ERROR and staying there (60_exceptions.md R222 to R232), engine by engine and for the command error. -/

namespace Sys2Proof.Machine

/-! ### A command that takes an engine into ERROR -/

/-- An encoder command that ends in ERROR has only raised an error (60_exceptions.md R225, R228). -/
theorem Enc.run_into_error {i : Instr} {e e' : Enc} (h : e.run i = .ok e') (hp : e.phase ≠ .error)
    (hp' : e'.phase = .error) : ∃ c, c ≠ .none ∧ e' = e.raise c := by
  cases i with
  | encInit => cases h; cases hp'
  | encCount b =>
    cases h
    rcases e.count_cases b with heq | hraise | ⟨-, -, heq⟩
    · exact absurd (heq ▸ hp') hp
    · exact hraise
    · rw [heq] at hp'
      exact absurd hp' hp
  | encBuild =>
    rcases Enc.build_cases h with rfl | hraise | ⟨-, -, rfl⟩ | ⟨-, root, -, -, rfl⟩
    · exact absurd hp' hp
    · exact hraise
    · cases hp'
    · cases hp'
  | encPut b =>
    cases h
    rcases e.put_cases b with heq | hraise | ⟨-, -, heq⟩
    · exact absurd (heq ▸ hp') hp
    · exact hraise
    · rw [heq] at hp'
      exact absurd hp' hp
  | encFinish =>
    cases h
    rcases e.finish_cases with heq | hraise | ⟨-, -, heq⟩
    · exact absurd (heq ▸ hp') hp
    · exact hraise
    · rw [heq] at hp'
      cases hp'
  | nop | clrerr | decInit | decPut _ | decNext | decEnd => cases h; exact absurd hp' hp

/-- DEC_NEXT that emits a symbol does not end in ERROR; else it emits nothing (41_decoder.md R176). -/
theorem Dec.nextSymbol_out_of_error {d : Dec} (hp : d.phase ≠ .error) (hp' : d.nextSymbol.phase = .error) :
    d.nextSymbol.out = d.out := by
  unfold Dec.nextSymbol at hp' ⊢
  split at hp'
  next sym win vbits _ =>
    rcases d.emitSymbol_cases sym win vbits with ⟨-, heq⟩ | ⟨-, heq⟩ <;> rw [heq] at hp'
    · exact absurd hp' hp
    · cases hp'
  next win cur _ => rcases d.starve_cases win cur with ⟨-, heq⟩ | ⟨-, heq⟩ <;> simp [heq]
  next => rfl

theorem Dec.next_out_of_error {d : Dec} (hp : d.phase ≠ .error) (hp' : d.next.phase = .error) : d.next.out = d.out := by
  rcases d.next_cases with heq | heq | ⟨-, heq⟩ <;> rw [heq] at hp' ⊢
  · rfl
  · exact Dec.nextSymbol_out_of_error hp hp'

/-- A decoder command that ends in ERROR has appended nothing to the FIFO (60_exceptions.md R225). -/
theorem Dec.run_into_error_out {i : Instr} {d d' : Dec} (h : d.run i = .ok d') (hp : d.phase ≠ .error)
    (hp' : d'.phase = .error) : d'.out = d.out := by
  cases i with
  | decInit => cases h; cases hp'
  | decPut b => exact Dec.put_out h
  | decNext => cases h; exact Dec.next_out_of_error hp hp'
  | decEnd => cases h; exact d.finish_out
  | nop | clrerr | encInit | encCount _ | encBuild | encPut _ | encFinish => cases h; rfl

theorem Dec.Inv.run {i : Instr} {d d' : Dec} (hd : d.Inv) (h : d.run i = .ok d') : d'.Inv := by
  cases i with
  | decInit => cases h; exact .reset
  | decPut b => exact hd.put h
  | decNext => cases h; exact hd.next
  | decEnd => cases h; exact hd.finish
  | nop | clrerr | encInit | encCount _ | encBuild | encPut _ | encFinish => cases h; exact hd

/-! ### A command while an error is set -/

/-- An encoder in ERROR ignores every command but ENC_INIT (60_exceptions.md R232). -/
theorem Enc.run_of_error {i : Instr} {e : Enc} (hp : e.phase = .error) (hi : i ≠ .encInit) : e.run i = .ok e := by
  cases i with
  | encInit => exact absurd rfl hi
  | encCount b => exact congrArg Except.ok (Enc.count_of_error hp)
  | encBuild => exact Enc.build_of_error hp
  | encPut b => exact congrArg Except.ok (Enc.put_of_error hp)
  | encFinish => exact congrArg Except.ok (Enc.finish_of_error hp)
  | nop | clrerr | decInit | decPut _ | decNext | decEnd => rfl

/-- A decoder in ERROR ignores every command but DEC_INIT (60_exceptions.md R232). -/
theorem Dec.run_of_error {i : Instr} {d : Dec} (hp : d.phase = .error) (hi : i ≠ .decInit) : d.run i = .ok d := by
  cases i with
  | decInit => exact absurd rfl hi
  | decPut b => exact Dec.put_of_error hp b
  | decNext => exact congrArg Except.ok (Dec.next_of_error hp)
  | decEnd => exact congrArg Except.ok (Dec.finish_of_error hp)
  | nop | clrerr | encInit | encCount _ | encBuild | encPut _ | encFinish => rfl

theorem exec_enc_of_error {i : Instr} {s t : State} (h : exec i s = .next t) (hp : s.enc.phase = .error)
    (hi : i ≠ .encInit) : t.enc = s.enc :=
  Except.ok.inj ((Enc.run_of_exec h).symm.trans (Enc.run_of_error hp hi))

theorem exec_dec_of_error {i : Instr} {s t : State} (h : exec i s = .next t) (hp : s.dec.phase = .error)
    (hi : i ≠ .decInit) : t.dec = s.dec :=
  Except.ok.inj ((Dec.run_of_exec h).symm.trans (Dec.run_of_error hp hi))

/-- Of the commands only CLRERR writes the command error (60_exceptions.md R229). -/
theorem exec_cmdErr_of_ne_clrerr {i : Instr} {s t : State} (h : exec i s = .next t) (hi : i ≠ .clrerr) :
    t.cmdErr = s.cmdErr ∧ t.cmdCause = s.cmdCause := by
  cases i with
  | nop => cases h; exact ⟨rfl, rfl⟩
  | clrerr => exact absurd rfl hi
  | encInit | encCount _ | encBuild | encPut _ | encFinish =>
    rw [encEngine.eq_withPart_of_owns rfl h]
    exact ⟨rfl, rfl⟩
  | decInit | decPut _ | decNext | decEnd =>
    rw [decEngine.eq_withPart_of_owns rfl h]
    exact ⟨rfl, rfl⟩

/-! ### A bus operation while an error is set -/

/-- The encoder `e'` is `e` after the host has read bytes from its FIFO. -/
def Enc.Drained (e e' : Enc) : Prop :=
  e' = { e with out := e'.out } ∧ e'.out <:+ e.out

/-- The decoder `d'` is `d` after the host has read bytes from its FIFO. -/
def Dec.Drained (d d' : Dec) : Prop :=
  d' = { d with out := d'.out } ∧ d'.out <:+ d.out

theorem Enc.Drained.refl (e : Enc) : e.Drained e :=
  ⟨rfl, List.suffix_refl _⟩

theorem Dec.Drained.refl (d : Dec) : d.Drained d :=
  ⟨rfl, List.suffix_refl _⟩

/-- A read changes of the engines at most a FIFO, and nothing of the command error (20_memory.md R66). -/
theorem State.hostRead_drains (s : State) (r : Reg) :
    s.enc.Drained (s.hostRead r).enc ∧ s.dec.Drained (s.hostRead r).dec ∧
      (s.hostRead r).cmdErr = s.cmdErr ∧ (s.hostRead r).cmdCause = s.cmdCause := by
  show s.enc.Drained (s.afterRead r).enc ∧ s.dec.Drained (s.afterRead r).dec ∧
    (s.afterRead r).cmdErr = s.cmdErr ∧ (s.afterRead r).cmdCause = s.cmdCause
  rcases s.afterRead_cases r with heq | heq | heq | heq <;> rw [heq]
  · exact ⟨.refl _, .refl _, rfl, rfl⟩
  · exact ⟨.refl _, .refl _, rfl, rfl⟩
  · exact ⟨⟨rfl, List.tail_suffix _⟩, .refl _, rfl, rfl⟩
  · exact ⟨.refl _, ⟨rfl, List.tail_suffix _⟩, rfl, rfl⟩

/-- What the bus does without reset leaves the engines, but for bytes read, and a command error that is set. -/
theorem State.busAction_done_keeps {s t : State} {op : BusOp} (h : s.busAction op = .done t) (hop : op ≠ .reset) :
    s.enc.Drained t.enc ∧ s.dec.Drained t.dec ∧ (s.cmdErr = true → t.cmdErr = true ∧ t.cmdCause = s.cmdCause) := by
  rcases State.busAction_done_cases h with ⟨r, rfl⟩ | rfl | ⟨c, -, rfl⟩ | ⟨hreset, -⟩
  · obtain ⟨henc, hdec, herr, hcause⟩ := s.hostRead_drains r
    exact ⟨henc, hdec, fun hset => ⟨herr.trans hset, hcause⟩⟩
  · exact ⟨.refl _, .refl _, fun hset => ⟨hset, rfl⟩⟩
  · rw [State.raiseCmd_enc, State.raiseCmd_dec, State.raiseCmd_cmdErr, State.raiseCmd_cmdCause]
    exact ⟨.refl _, .refl _, fun hset => ⟨rfl, if_pos hset⟩⟩
  · exact absurd hreset hop

/-- Only a legal word written to CMD runs a command (42_control.md R210). -/
theorem State.busAction_run {s : State} {op : BusOp} {i : Instr} (h : s.busAction op = .run i) :
    ∃ w, op = .write 0 4 w ∧ decode w = .ok i := by
  cases op with
  | read off size =>
    simp only [State.busAction] at h
    split at h <;> cases h
  | write off size w =>
    simp only [State.busAction] at h
    split at h
    next r hr =>
      unfold State.hostWrite State.dispatchWord at h
      split at h
      next hcmd =>
        obtain ⟨rfl, h0, -, h4, rfl⟩ := Reg.select_ok hr
        rw [Reg.atIndex_eq_cmd] at hcmd
        obtain rfl : off = 0 := by omega
        split at h
        · cases h
        · split at h <;> cases h
          exact ⟨w, rfl, ‹_›⟩
      · cases h
    · cases h
  | reset => cases h

/-- A step without reset runs the command of the word written to CMD, or leaves the engines, but for bytes read, and a command
error that is set. -/
theorem step_next_cases {s t : State} (h : step s = .next t) (hreset : s.pending.head? ≠ some .reset) :
    (∃ w i, s.pending.head? = some (.write 0 4 w) ∧ decode w = .ok i ∧
      exec i { s with pending := s.pending.tail } = .next t) ∨
    (s.enc.Drained t.enc ∧ s.dec.Drained t.dec ∧ (s.cmdErr = true → t.cmdErr = true ∧ t.cmdCause = s.cmdCause)) := by
  rcases step_cases s with ⟨-, hs⟩ | ⟨op, rest, hp, ⟨i, hi, hs⟩ | ⟨u, hu, hs⟩ | ⟨r, -, hs⟩⟩ <;> rw [hs] at h
  · cases h
    exact .inr ⟨.refl _, .refl _, fun hset => ⟨hset, rfl⟩⟩
  · obtain ⟨w, rfl, hw⟩ := State.busAction_run hi
    exact .inl ⟨w, i, by rw [hp]; rfl, hw, by rw [hp]; exact h⟩
  · cases h
    have hop : op ≠ .reset := fun hop => hreset (by rw [hp, hop]; rfl)
    exact .inr (State.busAction_done_keeps (s := { s with pending := rest }) hu hop)
  · cases h

/-! ### A rejected word -/

theorem State.raiseCmd_eq (c : CmdCause) (s : State) :
    s.raiseCmd c = { s with cmdErr := true, cmdCause := if s.cmdErr then s.cmdCause else c } := by
  unfold State.raiseCmd
  split
  next hset => rw [← hset]
  next => rfl

theorem step_write_busy {s : State} {w : Word} {rest : List BusOp} (hb : s.busy = true)
    (hp : s.pending = .write 0 4 w :: rest) :
    step s = .next (State.raiseCmd .overrun { s with pending := rest }) := by
  have hword : State.dispatchWord { s with pending := rest } w = .done (State.raiseCmd .overrun { s with pending := rest }) :=
    if_pos hb
  exact step_of_pending hp hword

end Sys2Proof.Machine

/-! SUPPORT. The statements of 60_exceptions.md, settled. -/

namespace Sys2Proof.Machine

/-- Settles O56: each engine's own commands take its part of the state where the whole list takes it, and nothing else. -/
theorem enginesAreIndependent : Obligations.EnginesAreIndependent := by
  unfold Obligations.EnginesAreIndependent
  exact fun is s t h =>
    ⟨⟨s.withEnc t.enc, encEngine.execAll_filter_owns h rfl, rfl, rfl⟩,
      ⟨s.withDec t.dec, decEngine.execAll_filter_owns h rfl, rfl, rfl⟩⟩

/-- Settles O57: a command that is none of the three that clear an error is ignored by an engine in ERROR and does not write the
command error, and the bus alone only pops bytes. -/
theorem errorsStayUntilCleared : Obligations.ErrorsStayUntilCleared := by
  unfold Obligations.ErrorsStayUntilCleared
  intro s t h hreset
  rcases step_next_cases h hreset with ⟨w, i, hw, hdecode, hexec⟩ | ⟨henc, hdec, hcmd⟩
  · refine ⟨fun hp hne => ?_, fun hp hne => ?_, fun hset hne => ?_⟩
    · rw [exec_enc_of_error hexec hp fun hi => hne w hw (hi ▸ hdecode)]
      exact Enc.Drained.refl s.enc
    · rw [exec_dec_of_error hexec hp fun hi => hne w hw (hi ▸ hdecode)]
      exact Dec.Drained.refl s.dec
    · obtain ⟨herr, hcause⟩ := exec_cmdErr_of_ne_clrerr hexec fun hi => hne w hw (hi ▸ hdecode)
      exact ⟨herr.trans hset, hcause⟩
  · exact ⟨fun _ _ => henc, fun _ _ => hdec, fun hset _ => hcmd hset⟩

/-- Settles O58: the engine that enters ERROR is the one part of the state the command changes; the encoder has only raised its
error, and the decoder's invariants tie the code to the phase. -/
theorem errorEntryChangesOnlyTheEngine : Obligations.ErrorEntryChangesOnlyTheEngine := by
  unfold Obligations.ErrorEntryChangesOnlyTheEngine
  refine fun i s t h => ⟨fun hp hp' => ?_, fun hp hp' => ?_⟩
  · have hstate : t = s.withEnc t.enc := encEngine.eq_withPart_of_ne h fun heq : t.enc = s.enc => hp (heq ▸ hp')
    obtain ⟨c, hc, hraise⟩ := Enc.run_into_error (Enc.run_of_exec h) hp hp'
    rw [hstate, hraise]
    exact ⟨hc, rfl⟩
  · have hstate : t = s.withDec t.dec := decEngine.eq_withPart_of_ne h fun heq : t.dec = s.dec => hp (heq ▸ hp')
    have hrun := Dec.run_of_exec h
    exact ⟨fun hinv herr => (hinv.run hrun).err_iff.1 herr hp', Dec.run_into_error_out hrun hp hp', hstate⟩

/-- Settles O7: both rejections are the one operation that raises a command error. -/
theorem rejectedWordKeepsTheFirstCause : Obligations.RejectedWordKeepsTheFirstCause := by
  unfold Obligations.RejectedWordKeepsTheFirstCause
  refine ⟨fun s rest w hp => ⟨fun hb => ?_, fun hb hw => ?_⟩, rfl, rfl, rfl, fun c => by cases c <;> decide⟩
  · rw [step_write_busy hb hp, State.raiseCmd_eq]
  · rw [step_write_illegal hb hp hw, State.raiseCmd_eq]

end Sys2Proof.Machine

/-! SUPPORT. The statements of 70_reset_and_hazards.md, settled: reads that meet a running command (R254), what the window reads
right after reset (R251), and the reset operation (R250). -/

namespace Sys2Proof.Machine

/-! ### Reads while BUSY is 1 -/

theorem State.hostRead_of_running {s : State} {r : Reg} (hb : s.busy = true) (hr : r.mayBeRunning = true) :
    s.hostRead r = { s with
      draws := s.draws + 1, hostReads := s.hostReads ++ [busyValue r (Config.busyDraw s.draws)] } := by
  have hrun : (s.busy && r.mayBeRunning) = true := Bool.and_eq_true_iff.2 ⟨hb, hr⟩
  have hafter : s.afterRead r = { s with draws := s.draws + 1 } := by
    unfold State.afterRead
    split
    · cases hr
    · cases hr
    · exact if_pos hrun
  have hvalue : s.readValue r = busyValue r (Config.busyDraw s.draws) := if_pos hrun
  rw [State.hostRead, hafter, hvalue]

/-- The bits of STATUS that no free value reaches: BUSY, and the reserved bits (20_memory.md R69). -/
theorem busyStatus_fixed_bits (draw : Word) :
    (busyStatus draw).getLsbD 0 = true ∧ (busyStatus draw).extractLsb' 6 2 = 0#2 ∧
    (busyStatus draw).getLsbD 15 = false ∧ (busyStatus draw).extractLsb' 25 7 = 0#7 := by
  unfold busyStatus
  refine ⟨?_, ?_, ?_, ?_⟩
  · simp
  · simp [BitVec.extractLsb'_or, BitVec.extractLsb'_and]
  · simp
  · simp [BitVec.extractLsb'_or, BitVec.extractLsb'_and]

/-- Settles O15: STATUS draws a free value for its other fields, and ENC_OUT is no register a running command changes. -/
theorem readsWhileBusyShowBusy : Obligations.ReadsWhileBusyShowBusy := by
  unfold Obligations.ReadsWhileBusyShowBusy
  refine fun s rest hb => ⟨fun hp => ?_, fun b bs hout hp => ?_⟩
  · have hstep := step_read hp (r := .status) rfl
    rw [State.hostRead_of_running (s := { s with pending := rest }) hb rfl] at hstep
    obtain ⟨hbusy, h6, h15, h25⟩ := busyStatus_fixed_bits (Config.busyDraw s.draws)
    exact ⟨_, _, hstep, rfl, hbusy, h6, h15, h25, rfl, rfl, hb, rfl, rfl⟩
  · obtain ⟨hbyte, hvalid, -⟩ := fifoValue_cons_bits b bs
    refine ⟨fifoValue (b :: bs), ?_, hvalid, hbyte⟩
    rw [step_read hp (r := .encOut) rfl, State.hostRead_encOut, hout, List.tail_cons]

/-! ### Right after reset -/

/-- After reset both FIFOs are empty, so that no read changes the block. -/
theorem State.hostRead_reset (r : Reg) :
    State.reset.hostRead r = { State.reset with hostReads := [State.reset.regValue r] } := by
  by_cases he : r = .encOut
  · subst he
    exact State.hostRead_encOut_of_empty rfl
  · by_cases hd : r = .decOut
    · subst hd
      exact State.hostRead_decOut_of_empty rfl
    · exact State.hostRead_of_plain rfl he hd

theorem step_read_reset {off : Int} (h0 : 0 ≤ off) (h1 : off < 0x40) (h4 : off % 4 = 0) :
    step { State.reset with pending := [.read off 4] } =
      .next { State.reset with hostReads := [State.reset.regValue (Reg.atIndex (off.toNat / 4))] } := by
  rw [← State.hostRead_reset]
  exact step_read rfl (Reg.select_aligned h0 h1 h4)

/-- Settles O16: each of the sixteen offsets is a word of the window, and its register holds the value listed. -/
theorem resetLeavesTheStatedValues : Obligations.ResetLeavesTheStatedValues := by
  unfold Obligations.ResetLeavesTheStatedValues
  refine ⟨fun off v hv => ?_, fun b => ?_, fun i => rfl, rfl⟩
  · obtain ⟨h0, h1, h4, hvalue⟩ := (by decide : ∀ row : Int × Word, row ∈ _ → 0 ≤ row.1 ∧ row.1 < 0x40 ∧ row.1 % 4 = 0 ∧
      State.reset.regValue (Reg.atIndex (row.1.toNat / 4)) = row.2) (off, v) hv
    rw [step_read_reset h0 h1 h4, hvalue]
  · exact ⟨SymTab.get_replicate 0 b, SymTab.get_replicate 0 b, SymTab.get_replicate 0 b⟩

/-! ### The reset operation -/

theorem step_reset {s : State} {rest : List BusOp} (hp : s.pending = .reset :: rest) :
    step s = .next (State.resetBlock { s with pending := rest }) :=
  step_of_pending hp rfl

/-- The three commands write every element of the block but BUSY (70_reset_and_hazards.md R250). -/
theorem execAll_encInit_decInit_clrerr (s : State) :
    execAll [.encInit, .decInit, .clrerr] s = .next { s.resetBlock with busy := s.busy } := by
  rw [execAll_cons_of_next (t := s.withEnc Enc.reset) rfl,
    execAll_cons_of_next (t := (s.withEnc Enc.reset).withDec Dec.reset) rfl,
    execAll_cons_of_next (t := ((s.withEnc Enc.reset).withDec Dec.reset).clearCmd) rfl]
  rfl

/-- Settles O17: BUSY is the one element of the block that the three commands leave, and reset's value of it is 0. -/
theorem resetEqualsTheInitCommands : Obligations.ResetEqualsTheInitCommands := by
  unfold Obligations.ResetEqualsTheInitCommands
  refine fun s rest hp => ⟨step_reset hp, fun hb => ?_⟩
  rw [step_reset hp, execAll_encInit_decInit_clrerr, hb]
  rfl

end Sys2Proof.Machine
